-- ==== Sys2Proof/Word.lean ====
section
/-! DEFINITION. The word types of the FRC (spec/00_scope.md R8, R9): bytes, 40-bit timestamps, 32-bit
counters and 64-bit binary64 patterns. -/

namespace Sys2Proof

/-- `u8` of rule R8: the width of every address, type tag, sequence number and buffer byte. -/
abbrev Byte := BitVec 8

/-- A 40-bit radio timestamp (TS_BITS of rule R7). -/
abbrev Timestamp := BitVec 40

/-- A diagnostic counter (CNT_BITS of rule R7). -/
abbrev Counter := BitVec 32

/-- The bit pattern of an IEEE-754 binary64 value (`f64bits` of rule R9). -/
abbrev F64 := BitVec 64

end Sys2Proof
end

