-- ==== Sys2Proof/Config.lean ====
section
/-! DEFINITION. The implementation parameters (spec/00_scope.md R6), the fixed constants (R7), and the
two parameters the spec leaves wholly open (a RANGE_NUMERICS other than REF, and REG_MAP). -/

namespace Sys2Proof

/-- REGISTRY_MODE (rule R66). -/
inductive RegistryMode where
  /-- One bit per address: byte `a / 8`, bit `a mod 8`. The default. -/
  | exact
  /-- The original's formula: byte `a / 32`, bit `a mod 8`. -/
  | legacyAlias
deriving DecidableEq, Repr

/-- RANGE_NUMERICS (rules R6, R236). The parameter is a function; State is plain data, so the
configuration names the function: REF, or the `k`-th other function of `Config.customNumerics`. -/
inductive Numerics where
  /-- REF: exact evaluation, one rounding to nearest even. The default. -/
  | ref
  /-- Any other function of (N, D, cal), uninterpreted (assumption 3). -/
  | custom (k : Nat)
deriving DecidableEq, Repr

/-- The configuration record `cfg` (rules R6, R21). -/
structure Cfg where
  /-- LOCAL_ADDR: this node's address. -/
  localAddr : Byte
  /-- ANCHOR_ADDR: the node every other node polls. -/
  anchorAddr : Byte
  /-- CAL_OFFSET: binary64 pattern, metres. -/
  calOffset : F64
  /-- POLL_INTERVAL_US: read by no rule (R272). -/
  pollIntervalUs : Nat
  /-- RADIO_CHANNEL: opaque, passed to HAL_CONFIGURE unread (assumption 4). -/
  radioChannel : Nat
  /-- RADIO_PREAMBLE: opaque. -/
  radioPreamble : Nat
  /-- RADIO_MODE: opaque. -/
  radioMode : Nat
  /-- PPRZ_MSG_ID_RANGE: OPEN in the spec. -/
  pprzMsgIdRange : Byte
  /-- RELAY_DEST: default 255. -/
  relayDest : Byte
  /-- REGISTRY_MODE: default EXACT. -/
  registryMode : RegistryMode
  /-- RANGE_NUMERICS: default REF. -/
  numerics : Numerics
deriving DecidableEq, Repr

/-- The names under which the host reads the state (rule R40); counters by their cause code of R261. That a
ring is named by its raw parts, not by its content alone, is DESIGN CHOICE (assumption 18). -/
inductive RegName where
  | localAddr | anchorAddr | calOffset | pollIntervalUs | radioChannel | radioPreamble | radioMode
  | pprzMsgIdRange | relayDest | registryMode | rangeNumerics
  | halted | txBusy | rxArmed | seqCtr
  | tStartRound1 | tStartReply1 | tEndReply1 | tEndRound2 | tStartReply2 | tEndReply2
  | lastRxTs | lastRxLen | lastRxByte (k : Fin 19) | lastTxLen | lastTxByte (k : Fin 19)
  | lastDist | distValid | registryByte (k : Fin 32)
  | rxrbRd | rxrbCount | rxrbByte (k : Byte) | txrbRd | txrbCount | txrbByte (k : Byte)
  | counter (code : Byte) | pprzOk | lastErr
deriving DecidableEq, Repr

/-- HDR_LEN (rule R7). -/
def Config.hdrLen : Nat := 4
/-- MAX_PAYLOAD (rule R7). -/
def Config.maxPayload : Nat := 15
/-- MAX_FRAME (rule R7). -/
def Config.maxFrame : Nat := 19
/-- RB_CAP (rule R7). -/
def Config.rbCap : Nat := 256
/-- REG_BITS / 8: the registry's bytes (rules R7, R60). -/
def Config.registryBytes : Nat := 32
/-- PPRZ_STX (rule R7). -/
def Config.pprzStx : Byte := 0x99
/-- PPRZ_OVERHEAD (rule R7, spec/90_conflicts.md C1: four, not five). -/
def Config.pprzOverhead : Nat := 4
/-- PPRZ_MIN_LEN (rule R7): a LEN below it is rejected. -/
def Config.pprzMinLen : Nat := 6
/-- TS_MOD = 2^40 (rule R7). -/
def Config.tsMod : Nat := 1099511627776
/-- C_LIGHT in m/s (rule R7). -/
def Config.cLight : Nat := 299792458
/-- F_CTR in ticks per second (rule R7). -/
def Config.fCtr : Nat := 63897600000
/-- The longest input operation: RADIO_RX with `len` = 255 (rule R94). -/
def Config.maxOpBytes : Nat := 262

/-- A RANGE_NUMERICS other than REF (rules R6, R236): a function of (N, D, cal) alone. It has no
body, so a statement that reaches it holds for every such function (assumption 3). -/
opaque Config.customNumerics : Nat → Int → Int → F64 → F64

/-- REG_MAP (rules R40, R81): the OPEN parameter that gives the host numeric register offsets. It has
no body; no operation reads it (assumption 5). -/
opaque Config.regMap : Nat → Option RegName

end Sys2Proof
end

