-- ==== Sys2Proof/Syntax.lean ====
section
/-! DEFINITION. The instructions: one constructor for each mnemonic of spec/opcode_table.json. The
table has four formats (its "format" column): the input operations (spec/30_encoding.md R91), the
on-air frames by type tag (R97, R100), the PPRZ packet (R106, R109) and the RANGE_REPORT telemetry
message (R110). -/

namespace Sys2Proof

/-- A frame but for its type tag, which the constructor gives (rule R97). -/
structure FrameBody where
  /-- The sending node's address. -/
  src : Byte
  /-- The addressed node; 0 and 255 are broadcast. -/
  dest : Byte
  /-- The sender's sequence number. -/
  seq : Byte
  /-- The payload, 0 to 15 bytes in a well-formed frame. -/
  payload : List Byte
deriving DecidableEq, Repr

/-- The instructions of the opcode table. -/
inductive Instr where
  -- input operations (R91)
  /-- RESET (R290): `flags` bit 0 is init_ok. -/
  | reset (flags : Byte)
  /-- UART_RX_BYTE (R140). -/
  | uartRxByte (b : Byte)
  /-- PARSE_STEP (R141). -/
  | parseStep
  /-- TXRB_POP (R153). -/
  | txrbPop
  /-- POLL_TICK (R223). -/
  | pollTick
  /-- RADIO_RX (R180): the operand byte `len` is the length of `data`. -/
  | radioRx (rxTs : Timestamp) (data : List Byte)
  /-- RADIO_TX_DONE (R224). -/
  | radioTxDone (txTs : Timestamp)
  /-- ILLEGAL_OP (reserved), opcodes 0x07 to 0xFF (R95). -/
  | illegalOp (opcode : Byte)
  -- on-air frames (R100)
  /-- RANGE_POLL, type 0 (R229). -/
  | rangePoll (f : FrameBody)
  /-- RANGE_RESPONSE, type 1 (R230). -/
  | rangeResponse (f : FrameBody)
  /-- RANGE_FINAL, type 2 (R231). -/
  | rangeFinal (f : FrameBody)
  /-- RANGE_TRANSFER, type 3 (R232). -/
  | rangeTransfer (f : FrameBody)
  /-- RANGE_REPORT, type 5 (R238). -/
  | rangeReport (f : FrameBody)
  /-- RANGE_REQUEST, type 6 (R190). -/
  | rangeRequest (f : FrameBody)
  /-- DATA_RELAY, type 42 (R187). -/
  | dataRelay (f : FrameBody)
  /-- PING, type 254 (R188). -/
  | ping (f : FrameBody)
  /-- PONG, type 255 (R189). -/
  | pong (f : FrameBody)
  /-- UNASSIGNED_TYPE, types 4, 7 to 41 and 43 to 253 (R101, R191). -/
  | unassignedType (type : Byte) (f : FrameBody)
  -- PPRZ packets
  /-- PPRZ_PACKET (R106, R109): DATA, 2 to 251 bytes; LEN and the checksums follow from it. -/
  | pprzPacket (data : List Byte)
  /-- PPRZ_RANGE_REPORT (R110): SRC, MSG_ID, src, dest and the range's binary64 pattern. -/
  | pprzRangeReport (sender msgId src dest : Byte) (range : F64)
deriving DecidableEq, Repr

/-- The four formats of the opcode table's "format" column. A byte string is read in one of them: an
operation where an operation is presented (R90), a frame where the radio delivers one (R98), a packet
at the head of RXRB (R109), the telemetry message where a UART peer reads it (R110). -/
inductive Format where
  | inputOp
  | onAirFrame
  | pprzPacket
  | pprzRangeReport
deriving DecidableEq, Repr

/-- The format an instruction's row has in the table. -/
def Instr.format : Instr → Format
  | .reset _ => .inputOp
  | .uartRxByte _ => .inputOp
  | .parseStep => .inputOp
  | .txrbPop => .inputOp
  | .pollTick => .inputOp
  | .radioRx _ _ => .inputOp
  | .radioTxDone _ => .inputOp
  | .illegalOp _ => .inputOp
  | .rangePoll _ => .onAirFrame
  | .rangeResponse _ => .onAirFrame
  | .rangeFinal _ => .onAirFrame
  | .rangeTransfer _ => .onAirFrame
  | .rangeReport _ => .onAirFrame
  | .rangeRequest _ => .onAirFrame
  | .dataRelay _ => .onAirFrame
  | .ping _ => .onAirFrame
  | .pong _ => .onAirFrame
  | .unassignedType _ _ => .onAirFrame
  | .pprzPacket _ => .pprzPacket
  | .pprzRangeReport _ _ _ _ _ => .pprzRangeReport

end Sys2Proof
end

