-- ==== Sys2Proof/WellFormed.lean ====
section
/-! DEFINITION. Which instruction terms the encodings can express (spec/30_encoding.md R91 to R110). -/

namespace Sys2Proof

/-- A frame's payload is at most MAX_PAYLOAD bytes (R97). -/
def FrameBody.wellFormed (f : FrameBody) : Bool := decide (f.payload.length ≤ Config.maxPayload)

/-- The type tags that rule R100 assigns. -/
def assignedTypes : List Byte := [0, 1, 2, 3, 5, 6, 42, 254, 255]

/-- The terms the encodings can express: a RADIO_RX `len` is one byte (R92); reserved opcodes are 0x07
to 0xFF (R95); payloads are at most 15 bytes (R97); an unassigned type is none of R100 (R101); PPRZ
DATA is 2 to 251 bytes (R107). -/
def Instr.wellFormed : Instr → Bool
  | .reset _ => true
  | .uartRxByte _ => true
  | .parseStep => true
  | .txrbPop => true
  | .pollTick => true
  | .radioRx _ data => decide (data.length ≤ 255)
  | .radioTxDone _ => true
  | .illegalOp opcode => decide (7 ≤ opcode.toNat)
  | .rangePoll f => f.wellFormed
  | .rangeResponse f => f.wellFormed
  | .rangeFinal f => f.wellFormed
  | .rangeTransfer f => f.wellFormed
  | .rangeReport f => f.wellFormed
  | .rangeRequest f => f.wellFormed
  | .dataRelay f => f.wellFormed
  | .ping f => f.wellFormed
  | .pong f => f.wellFormed
  | .unassignedType type f => !assignedTypes.contains type && f.wellFormed
  | .pprzPacket data => decide (2 ≤ data.length ∧ data.length ≤ 251)
  | .pprzRangeReport _ _ _ _ _ => true

/-- The well-formed instructions. -/
abbrev WellFormed (i : Instr) : Prop := i.wellFormed = true

/-- The configuration constraints of rule R6: neither address is a broadcast address, and CAL_OFFSET
is finite (its exponent field is not all ones). -/
def Cfg.valid (c : Cfg) : Bool :=
  decide (c.localAddr ≠ 0) && decide (c.localAddr ≠ 255) &&
  decide (c.anchorAddr ≠ 0) && decide (c.anchorAddr ≠ 255) &&
  decide (c.calOffset.extractLsb' 52 11 ≠ 2047)

end Sys2Proof
end

