-- ==== Sys2Proof/Decode.lean ====
section
/-! DEFINITION. Byte order, checksums, the decoders of the four formats of the opcode table, and the
encoder (spec/30_encoding.md, spec/40_codec.md R120 and R121, spec/41_pprz.md R151). -/

namespace Sys2Proof

/-- `LE_n(v)`: the n-byte little-endian encoding (R9, R71, R72). -/
def leBytes : Nat → Nat → List Byte
  | 0, _ => []
  | n + 1, v => BitVec.ofNat 8 v :: leBytes n (v / 256)

/-- `fromLE(s)`: the number a little-endian byte sequence stands for (R9). -/
def fromLE : List Byte → Nat
  | [] => 0
  | b :: bs => b.toNat + 256 * fromLE bs

/-- The running sums of rule R108, continued over further bytes. -/
def cksFrom : Byte → Byte → List Byte → Byte × Byte
  | a, b, [] => (a, b)
  | a, b, x :: xs => cksFrom (a + x) (b + (a + x)) xs

/-- `Cks(p, LEN)`: both checksums over offsets 1 to LEN − 3 inclusive (R108). -/
def cks (p : List Byte) (len : Nat) : Byte × Byte := cksFrom 0 0 ((p.drop 1).take (len - 3))

/-- `PprzEncode(data)`: STX, LEN = 4 + len(data), DATA, CKA, CKB (R151, R106). -/
def pprzEncode (data : List Byte) : List Byte :=
  let len := Config.pprzOverhead + data.length
  let p := Config.pprzStx :: BitVec.ofNat 8 len :: data
  p ++ [(cks p len).1, (cks p len).2]

/-- A byte string begins with a valid PPRZ packet of `len` bytes, `len` being its LEN byte (R109). -/
def validPacketAt (p : List Byte) (len : Nat) : Bool :=
  decide (Config.pprzMinLen ≤ len) && decide (len ≤ p.length) &&
  decide (cks p len = (p.getD (len - 2) 0, p.getD (len - 1) 0))

/-- `Encode(f)` of a frame of the given type: header, then payload (R120, R97). -/
def encodeFrame (type : Byte) (f : FrameBody) : List Byte :=
  [f.src, f.dest, type, f.seq] ++ f.payload

/-- `Decode(d, L)` with L the length of d: the type tag and the other fields (R121). Only a byte
string of 4 to 19 bytes is a frame (R98). -/
def decodeFrameFields (d : List Byte) : Option (Byte × FrameBody) :=
  match d with
  | src :: dest :: type :: seq :: payload =>
    if payload.length ≤ Config.maxPayload then some (type, ⟨src, dest, seq, payload⟩) else none
  | _ => none

/-- The instruction of the opcode table that a frame of a type is (R100, R101). -/
def frameInstr (type : Byte) (f : FrameBody) : Instr :=
  if type = 0 then .rangePoll f
  else if type = 1 then .rangeResponse f
  else if type = 2 then .rangeFinal f
  else if type = 3 then .rangeTransfer f
  else if type = 5 then .rangeReport f
  else if type = 6 then .rangeRequest f
  else if type = 42 then .dataRelay f
  else if type = 254 then .ping f
  else if type = 255 then .pong f
  else .unassignedType type f

/-- Why a byte string decodes to no instruction. -/
inductive DecodeError where
  /-- No byte is there: no operation is presented. -/
  | noOperation
  /-- The operation's opcode asks for more bytes than there are (R94). -/
  | truncatedOperation
  /-- Fewer than 4 or more than 19 bytes are no frame (R98). -/
  | notAFrame
  /-- Not a valid packet by R109. -/
  | notAPacket
  /-- A valid packet, but not of LEN 16 (R110). -/
  | notAReport
deriving DecidableEq, Repr

/-- The first `n` bytes and the rest, where there are `n`. -/
def splitBytes (n : Nat) (bs : List Byte) : Except DecodeError (List Byte × List Byte) :=
  if n ≤ bs.length then .ok (bs.take n, bs.drop n) else .error .truncatedOperation

/-- The operation at the head of a byte stream, and the bytes after it (R90 to R95). -/
def decodeOp : List Byte → Except DecodeError (Instr × List Byte)
  | [] => .error .noOperation
  | op :: rest =>
    match op.toNat with
    | 0 =>
      match rest with
      | flags :: rest' => .ok (.reset flags, rest')
      | [] => .error .truncatedOperation
    | 1 =>
      match rest with
      | b :: rest' => .ok (.uartRxByte b, rest')
      | [] => .error .truncatedOperation
    | 2 => .ok (.parseStep, rest)
    | 3 => .ok (.txrbPop, rest)
    | 4 => .ok (.pollTick, rest)
    | 5 =>
      match splitBytes 6 rest with
      | .error e => .error e
      | .ok (operands, rest') =>
        match splitBytes (operands.getD 5 0).toNat rest' with
        | .error e => .error e
        | .ok (data, rest'') =>
          .ok (.radioRx (BitVec.ofNat 40 (fromLE (operands.take 5))) data, rest'')
    | 6 =>
      match splitBytes 5 rest with
      | .error e => .error e
      | .ok (ts, rest') => .ok (.radioTxDone (BitVec.ofNat 40 (fromLE ts)), rest')
    | _ => .ok (.illegalOp op, rest)

/-- The frame that a received byte string is. The header carries no length: the string is the frame
(R98). -/
def decodeFrame (d : List Byte) : Except DecodeError Instr :=
  match decodeFrameFields d with
  | some (type, f) => .ok (frameInstr type f)
  | none => .error .notAFrame

/-- The valid PPRZ packet at the head of a byte stream, and the bytes after it (R106 to R109). -/
def decodePprz : List Byte → Except DecodeError (Instr × List Byte)
  | stx :: len :: rest =>
    if stx = Config.pprzStx ∧ validPacketAt (stx :: len :: rest) len.toNat then
      .ok (.pprzPacket (rest.take (len.toNat - 4)), rest.drop (len.toNat - 2))
    else .error .notAPacket
  | _ => .error .notAPacket

/-- The RANGE_REPORT telemetry message at the head of a byte stream (R110). -/
def decodeReport (p : List Byte) : Except DecodeError (Instr × List Byte) :=
  match decodePprz p with
  | .ok (.pprzPacket (sender :: msgId :: src :: dest :: range), rest) =>
    if range.length = 8 then
      .ok (.pprzRangeReport sender msgId src dest (BitVec.ofNat 64 (fromLE range)), rest)
    else .error .notAReport
  | .ok _ => .error .notAReport
  | .error e => .error e

/-- The decoder of each format. -/
def decodeAs (fmt : Format) (bs : List Byte) : Except DecodeError (Instr × List Byte) :=
  match fmt with
  | .inputOp => decodeOp bs
  | .onAirFrame => (decodeFrame bs).map (fun i => (i, []))
  | .pprzPacket => decodePprz bs
  | .pprzRangeReport => decodeReport bs

/-- The bytes of a well-formed instruction, in its own format (R91, R97, R100, R106, R110). -/
def encode : Instr → List Byte
  | .reset flags => [0x00, flags]
  | .uartRxByte b => [0x01, b]
  | .parseStep => [0x02]
  | .txrbPop => [0x03]
  | .pollTick => [0x04]
  | .radioRx rxTs data => 0x05 :: (leBytes 5 rxTs.toNat ++ BitVec.ofNat 8 data.length :: data)
  | .radioTxDone txTs => 0x06 :: leBytes 5 txTs.toNat
  | .illegalOp opcode => [opcode]
  | .rangePoll f => encodeFrame 0 f
  | .rangeResponse f => encodeFrame 1 f
  | .rangeFinal f => encodeFrame 2 f
  | .rangeTransfer f => encodeFrame 3 f
  | .rangeReport f => encodeFrame 5 f
  | .rangeRequest f => encodeFrame 6 f
  | .dataRelay f => encodeFrame 42 f
  | .ping f => encodeFrame 254 f
  | .pong f => encodeFrame 255 f
  | .unassignedType type f => encodeFrame type f
  | .pprzPacket data => pprzEncode data
  | .pprzRangeReport sender msgId src dest range =>
    pprzEncode ([sender, msgId, src, dest] ++ leBytes 8 range.toNat)

/-- A word of the opcode table as the bytes of an operation: byte k is bits 8k+7..8k, and every bit
above `nbits` is 0, up to the longest operation. -/
def tableBytes (nbits w : Nat) : List Byte :=
  leBytes (nbits / 8) w ++ List.replicate (Config.maxOpBytes - nbits / 8) 0

/-- The operation the decoder reads from a word of the opcode table. Every word is read as an input
operation, since byte 0 of what is presented to the FRC is an opcode (R90, assumption 2). -/
def decodeTableWord (nbits w : Nat) : Option Instr :=
  match decodeOp (tableBytes nbits w) with
  | .ok (i, _) => some i
  | .error _ => none

/-- The bytes of the one operation that `decodeTableWord nbits w` reads, and nothing after it. -/
def tableOperation (nbits w : Nat) : List Byte :=
  match decodeOp (tableBytes nbits w) with
  | .ok (_, rest) => (tableBytes nbits w).take ((tableBytes nbits w).length - rest.length)
  | .error _ => []

end Sys2Proof
end

