-- ==== Sys2Proof/Machine/State.lean ====
section
/-! DEFINITION. The FRC's state (spec/10_state.md R20 to R43), the model's own fields for what the
environment presents and what the FRC emits, the state after reset, and the reasons a step can stop. -/

namespace Sys2Proof.Machine

/-- A byte array as its cells, in one canonical form: addresses strictly rising, and no cell equal to
what an unlisted address reads as (`Memory.wf`). -/
abbrev Memory := List Host.Cell

/-- What an address that no cell lists reads as: 0x00, the reset content the spec gives every byte
array (R32, R43). -/
def unlistedByte : Byte := 0

/-- A ring buffer (R61): storage, read offset and number of bytes held (0 to 256). -/
structure RingBuf where
  /-- `mem[0..255]`. -/
  mem : Memory
  /-- `rd`, the offset of the oldest byte. -/
  rd : Byte
  /-- `count`. -/
  count : Nat
deriving DecidableEq, Repr

/-- A frame buffer (R29, R30): a length (0 to 19) and `b[0..18]`. -/
structure FrameBuf where
  /-- `len`. -/
  len : Nat
  /-- `b[0..18]`. -/
  b : Memory
deriving DecidableEq, Repr

/-- The ranging session (R26). -/
structure Session where
  tStartRound1 : Timestamp
  tStartReply1 : Timestamp
  tEndReply1 : Timestamp
  tEndRound2 : Timestamp
  tStartReply2 : Timestamp
  tEndReply2 : Timestamp
deriving DecidableEq, Repr

/-- The diagnostic counters (R34), in the order of their cause codes, then the success counter. -/
structure Counters where
  ownSrc : Counter
  unknownType : Counter
  degenerate : Counter
  shortFrame : Counter
  shortPayload : Counter
  rxrbDrop : Counter
  txrbDrop : Counter
  pprzDiscard : Counter
  pprzBadLen : Counter
  pprzBadCk : Counter
  relayOversize : Counter
  txOverlap : Counter
  pollSkipped : Counter
  spuriousTxDone : Counter
  illegalOp : Counter
  pprzOk : Counter
deriving DecidableEq, Repr

/-- The causes that `count(E)` records (R261), without NONE and HAL_INIT_FAIL, which no `count` records. -/
inductive Cause where
  | ownSrc | unknownType | degenerate | shortFrame | shortPayload | rxrbOverflow | txrbOverflow
  | pprzDiscard | pprzBadLen | pprzBadCksum | relayOversize | txOverlap | pollSkipped
  | spuriousTxDone | illegalOp
deriving DecidableEq, Repr

/-- The output commands (R96). -/
inductive Command where
  /-- Radio HAL `transmit(bytes)`. -/
  | txFrame (bytes : List Byte)
  /-- Radio HAL `arm_receive()`. -/
  | armRx
  /-- UART `write([b])`. -/
  | uartTxByte (b : Byte)
  /-- Radio HAL `reset()`. -/
  | halReset
  /-- Radio HAL `configure(channel, preamble, mode)`. -/
  | halConfigure (channel preamble mode : Nat)
deriving DecidableEq, Repr

/-- The state: the sixteen components of R20, then the model's own fields. -/
structure State where
  /-- The configuration taken by the last RESET (R21). -/
  cfg : Cfg
  /-- The HAL failed to initialise at the last RESET (R22). -/
  halted : Bool
  /-- A transmission is in flight (R23). -/
  txBusy : Bool
  /-- The receiver has been commanded on (R24). -/
  rxArmed : Bool
  /-- The sequence number of the next frame (R25). -/
  seqCtr : Byte
  /-- The six session registers (R26, R27). -/
  session : Session
  /-- RX timestamp of the last received frame (R28). -/
  lastRxTs : Timestamp
  /-- The last received frame (R29). -/
  lastRx : FrameBuf
  /-- The last transmitted frame (R30). -/
  lastTx : FrameBuf
  /-- The last distance computed (R31). -/
  lastDist : F64
  /-- A distance has been computed (R31). -/
  distValid : Bool
  /-- The Node Registry, 32 bytes (R32). -/
  registry : Memory
  /-- The UART-in ring (R33). -/
  rxrb : RingBuf
  /-- The outbound-to-UART ring (R33). -/
  txrb : RingBuf
  /-- The diagnostic counters (R34). -/
  cnt : Counters
  /-- The code of the last recorded cause (R35). -/
  lastErr : Byte
  /-- MODEL'S OWN. A RESET has been applied since power-on (R295, assumption 6). -/
  started : Bool
  /-- MODEL'S OWN. The configuration the environment presents to a RESET (R90, R290, assumption 7). -/
  envCfg : Cfg
  /-- MODEL'S OWN. The bytes of the operations presented and not yet applied, in order (R76, R90,
  assumption 8). -/
  input : List Byte
  /-- MODEL'S OWN. How many PARSE_STEP operations are held (R141, R267, assumption 9). -/
  held : Nat
  /-- MODEL'S OWN. The commands emitted so far, in order (R96, assumption 10). -/
  out : List Command
deriving DecidableEq, Repr

/-- Why the machine stops with a fault. The spec gives the block no trapping fault (R260). -/
inductive Fault where
  /-- A `MemWrite` outside a byte array's size, which R60 leaves undefined: raised by the frame-buffer
  writes of `Send` and RADIO_RX. Safe: no rule forms such an offset, and none of the operations
  reaches it. -/
  | outsideSpace
deriving DecidableEq, Repr

/-- Why the machine refuses a step. -/
inductive Refusal where
  /-- An instruction that has no meaning yet: raised by no arm of this model. Safe. -/
  | notModelled (mnemonic : String)
  /-- A RESET whose configuration breaks R6: raised by RESET ("else the model refuses", R290). Safe. -/
  | badConfiguration
  /-- An operation other than RESET before the first RESET: raised by every other instruction ("A model
  refuses any run whose first operation is not RESET", R295). Safe. -/
  | beforeFirstReset
  /-- `Encode` of a payload over 15 bytes: raised by `Send` ("a model refuses such a call", R120); no
  operation makes such a call. Safe. -/
  | payloadTooLong
  /-- The presented bytes end inside an operation, so no operation is there (R94): raised by the fetch.
  Safe. -/
  | truncatedOperation
deriving DecidableEq, Repr

/-- The outcome of a meaning. -/
abbrev Result := Host.Outcome State Fault Refusal

/-- The session after RESET and after a POLL_TICK that polls (R27). -/
def Session.zero : Session := ⟨0, 0, 0, 0, 0, 0⟩

/-- Every counter at its reset value (R34). -/
def Counters.zero : Counters := ⟨0, 0, 0, 0, 0, 0, 0, 0, 0, 0, 0, 0, 0, 0, 0, 0⟩

/-- The empty ring of R33. -/
def RingBuf.empty : RingBuf := ⟨[], 0, 0⟩

/-- The frame buffer before any frame (R29, R30). -/
def FrameBuf.empty : FrameBuf := ⟨0, []⟩

/-- The configuration `State.reset` holds: DESIGN CHOICE (assumption 1), the single-node configuration
of the test vectors (spec/95_test_vectors.md section 0, node B), since the spec gives no values. -/
def exampleCfg : Cfg where
  localAddr := 1
  anchorAddr := 1
  calOffset := 0
  pollIntervalUs := 0
  radioChannel := 0
  radioPreamble := 0
  radioMode := 0
  pprzMsgIdRange := 0x40
  relayDest := 255
  registryMode := .exact
  numerics := .ref

/-- The machine right after a RESET whose HAL initialisation succeeded (R43, init_ok = 1), with nothing
presented and nothing emitted. -/
def State.reset : State where
  cfg := exampleCfg
  halted := false
  txBusy := false
  rxArmed := true
  seqCtr := 0
  session := Session.zero
  lastRxTs := 0
  lastRx := FrameBuf.empty
  lastTx := FrameBuf.empty
  lastDist := 0
  distValid := false
  registry := []
  rxrb := RingBuf.empty
  txrb := RingBuf.empty
  cnt := Counters.zero
  lastErr := 0
  started := true
  envCfg := exampleCfg
  input := []
  held := 0
  out := []

end Sys2Proof.Machine
end

