-- ==== Sys2Proof/Machine/Flags.lean ====
section
/-! DEFINITION. The status and diagnostic bits: the cause codes and the counter each cause advances
(spec/60_exceptions.md R261, spec/10_state.md R34). The FRC has no condition codes (R39); the status
bits `halted`, `txBusy`, `rxArmed` and `distValid` are fields of State. -/

namespace Sys2Proof.Machine

/-- The code of a cause (R261). -/
def Cause.code : Cause → Byte
  | .ownSrc => 0x01
  | .unknownType => 0x02
  | .degenerate => 0x03
  | .shortFrame => 0x04
  | .shortPayload => 0x05
  | .rxrbOverflow => 0x06
  | .txrbOverflow => 0x07
  | .pprzDiscard => 0x08
  | .pprzBadLen => 0x09
  | .pprzBadCksum => 0x0A
  | .relayOversize => 0x0B
  | .txOverlap => 0x0C
  | .pollSkipped => 0x0D
  | .spuriousTxDone => 0x0E
  | .illegalOp => 0x0F

/-- HAL_INIT_FAIL (R261, R292). -/
def halInitFailCode : Byte := 0x10

/-- The counters with the one of a cause advanced by 1 modulo 2^32 (R34, R263). -/
def Counters.bump (c : Counters) : Cause → Counters
  | .ownSrc => { c with ownSrc := c.ownSrc + 1 }
  | .unknownType => { c with unknownType := c.unknownType + 1 }
  | .degenerate => { c with degenerate := c.degenerate + 1 }
  | .shortFrame => { c with shortFrame := c.shortFrame + 1 }
  | .shortPayload => { c with shortPayload := c.shortPayload + 1 }
  | .rxrbOverflow => { c with rxrbDrop := c.rxrbDrop + 1 }
  | .txrbOverflow => { c with txrbDrop := c.txrbDrop + 1 }
  | .pprzDiscard => { c with pprzDiscard := c.pprzDiscard + 1 }
  | .pprzBadLen => { c with pprzBadLen := c.pprzBadLen + 1 }
  | .pprzBadCksum => { c with pprzBadCk := c.pprzBadCk + 1 }
  | .relayOversize => { c with relayOversize := c.relayOversize + 1 }
  | .txOverlap => { c with txOverlap := c.txOverlap + 1 }
  | .pollSkipped => { c with pollSkipped := c.pollSkipped + 1 }
  | .spuriousTxDone => { c with spuriousTxDone := c.spuriousTxDone + 1 }
  | .illegalOp => { c with illegalOp := c.illegalOp + 1 }

/-- The counter of a cause (R34). -/
def Counters.get (c : Counters) : Cause → Counter
  | .ownSrc => c.ownSrc
  | .unknownType => c.unknownType
  | .degenerate => c.degenerate
  | .shortFrame => c.shortFrame
  | .shortPayload => c.shortPayload
  | .rxrbOverflow => c.rxrbDrop
  | .txrbOverflow => c.txrbDrop
  | .pprzDiscard => c.pprzDiscard
  | .pprzBadLen => c.pprzBadLen
  | .pprzBadCksum => c.pprzBadCk
  | .relayOversize => c.relayOversize
  | .txOverlap => c.txOverlap
  | .pollSkipped => c.pollSkipped
  | .spuriousTxDone => c.spuriousTxDone
  | .illegalOp => c.illegalOp

end Sys2Proof.Machine
end

