-- ==== Sys2Proof/Machine/Operands.lean ====
section
/-! DEFINITION. Operand assembly (spec/30_encoding.md R92, R93, R99, R112): the flags byte of RESET, the
used bytes of RADIO_RX, the payload fields of the ranging frames, and the route of a frame. -/

namespace Sys2Proof.Machine

/-- `init_ok = flags[0:0]`; bits 7 to 1 are ignored (R92). -/
def initOk (flags : Byte) : Bool := flags.getLsbD 0

/-- The bytes of a received frame that `read_received` returns: the first 19 at most (R93). -/
def receivedBytes (data : List Byte) : List Byte := data.take Config.maxFrame

/-- `TS(p, k)`: the 40-bit timestamp at payload offset k (R112). -/
def payloadTs (p : List Byte) (k : Nat) : Timestamp := BitVec.ofNat 40 (fromLE ((p.drop k).take 5))

/-- `LE_5(t)` (R71, R112). -/
def tsBytes (t : Timestamp) : List Byte := leBytes 5 t.toNat

/-- `DIST(p)`: the 8 raw distance bytes (R112). -/
def payloadDist (p : List Byte) : List Byte := p.take 8

/-- `LE_8(f64bits(d))` (R72, R112). -/
def distBytes (d : F64) : List Byte := leBytes 8 d.toNat

/-- The route classes of a received frame (R181). -/
inductive Route where
  /-- The frame claims this node's address as its source. -/
  | ownSrc
  /-- Addressed to this node. -/
  | own
  /-- Addressed to 0 or 255. -/
  | broadcast
  /-- Addressed to another node. -/
  | foreign
deriving DecidableEq, Repr

/-- `Route(f)`: the tests in the order of R181; the first that holds decides. -/
def routeOf (localAddr : Byte) (f : FrameBody) : Route :=
  if f.src = localAddr then .ownSrc
  else if f.dest = localAddr then .own
  else if f.dest = 0 ∨ f.dest = 255 then .broadcast
  else .foreign

end Sys2Proof.Machine
end

