-- ==== Sys2Proof/Machine/Ops.lean ====
section
/-! DEFINITION. The shared operations: byte arrays (spec/20_memory.md R60), ring buffers (R61 to R64),
the node registry (R66 to R69), commands (spec/30_encoding.md R96), the recording of an anomaly
(spec/60_exceptions.md R263), `Send` and `ArmRx` (spec/40_codec.md R123, R125), the guard every
operation begins with (spec/70_reset_and_hazards.md R293, R295), and the fetch of an operation. -/

namespace Sys2Proof.Machine

-- Byte arrays

/-- The byte at an offset. -/
def Memory.read : Memory → Nat → Byte
  | [], _ => unlistedByte
  | (k, b) :: m, a => if k = a then b else Memory.read m a

/-- The array without any cell at an offset. -/
def Memory.erase : Memory → Nat → Memory
  | [], _ => []
  | (k, b) :: m, a => if k = a then Memory.erase m a else (k, b) :: Memory.erase m a

/-- A cell put in its place among rising offsets. -/
def Memory.insert : Memory → Nat → Byte → Memory
  | [], a, v => [(a, v)]
  | (k, b) :: m, a, v => if a < k then (a, v) :: (k, b) :: m else (k, b) :: Memory.insert m a v

/-- One byte written; the canonical form is kept. -/
def Memory.write (m : Memory) (a : Nat) (v : Byte) : Memory :=
  if v = unlistedByte then Memory.erase m a else Memory.insert (Memory.erase m a) a v

/-- Consecutive bytes written from an offset up. -/
def Memory.writeAll : Memory → Nat → List Byte → Memory
  | m, _, [] => m
  | m, a, v :: vs => Memory.writeAll (Memory.write m a v) (a + 1) vs

/-- The bytes at offsets a to a+n−1. -/
def Memory.readAll (m : Memory) : Nat → Nat → List Byte
  | _, 0 => []
  | a, n + 1 => Memory.read m a :: Memory.readAll m (a + 1) n

/-- Cells at offsets from `lo` up, strictly rising, below `size`, none of them an unlisted byte. -/
def Memory.wfFrom (size : Nat) : Nat → Memory → Bool
  | _, [] => true
  | lo, (k, b) :: m =>
    decide (lo ≤ k) && decide (k < size) && decide (b ≠ unlistedByte) && Memory.wfFrom size (k + 1) m

/-- The canonical form of a byte array of a size. -/
def Memory.wf (size : Nat) (m : Memory) : Bool := Memory.wfFrom size 0 m

/-- `MemWrite(space, a, n, v)` on an array of a size; none outside it (R60). -/
def memWrite (size : Nat) (m : Memory) (a : Nat) (vs : List Byte) : Option Memory :=
  if a + vs.length ≤ size then some (Memory.writeAll m a vs) else none

-- RingBuf buffers

/-- `Peek(rb, k)`, the byte k places after the oldest (R64); callers have k < count. -/
def RingBuf.peek (r : RingBuf) (k : Nat) : Byte := Memory.read r.mem ((r.rd.toNat + k) % Config.rbCap)

/-- The bytes at places k to k+n−1. -/
def RingBuf.peekAll (r : RingBuf) : Nat → Nat → List Byte
  | _, 0 => []
  | k, n + 1 => RingBuf.peek r k :: RingBuf.peekAll r (k + 1) n

/-- `content(rb)`, oldest first (R61). -/
def RingBuf.content (r : RingBuf) : List Byte := RingBuf.peekAll r 0 r.count

/-- The ring with one byte appended; `Push` has tested that it is not full (R62). -/
def RingBuf.append (r : RingBuf) (b : Byte) : RingBuf :=
  { r with
    mem := Memory.write r.mem ((r.rd.toNat + r.count) % Config.rbCap) b
    count := r.count + 1 }

/-- The ring after a `Pop`, whose byte is `Peek(rb, 0)` (R63); callers have count ≥ 1. -/
def RingBuf.drop1 (r : RingBuf) : RingBuf := { r with rd := r.rd + 1, count := r.count - 1 }

/-- The ring after n `Pop`s. -/
def RingBuf.dropN (r : RingBuf) : Nat → RingBuf
  | 0 => r
  | n + 1 => RingBuf.dropN (RingBuf.drop1 r) n

-- Node registry

/-- The byte index of an address under a mode (R66): 32 bytes, so 5 bits (R60). -/
def registryIndex (mode : RegistryMode) (a : Byte) : Nat :=
  match mode with
  | .exact => (a >>> 3).toNat
  | .legacyAlias => (a >>> 5).toNat

/-- The bit weight of an address: `1 << (a mod 8)` in both modes (R66). -/
def registryWeight (a : Byte) : Byte := 1 <<< (a.toNat % 8)

/-- `RegistrySet(a)` on the registry's bytes (R68). -/
def registrySetBit (mode : RegistryMode) (reg : Memory) (a : Byte) : Memory :=
  Memory.write reg (registryIndex mode a)
    (Memory.read reg (registryIndex mode a) ||| registryWeight a)

/-- `RegistryKnown(a)`, a host read (R69). -/
def registryKnown (s : State) (a : Byte) : Bool :=
  decide (Memory.read s.registry (registryIndex s.cfg.registryMode a) &&& registryWeight a ≠ 0)

/-- `RegistrySet(a)` (R68). -/
def registrySet (a : Byte) (s : State) : State :=
  { s with registry := registrySetBit s.cfg.registryMode s.registry a }

-- Commands and anomalies

/-- `Emit(cmd)` (R10, R96). -/
def emit (c : Command) (s : State) : State := { s with out := s.out ++ [c] }

/-- `count(E)`: what this machine does in place of taking an exception. The cause's counter advances,
`lastErr` takes its code, and nothing else is saved or changed (R260, R263); nothing returns from it
(R264, R270). -/
def count (e : Cause) (s : State) : State :=
  { s with cnt := s.cnt.bump e, lastErr := e.code }

/-- The fatal condition HAL_INIT_FAIL: the halted state (R265, R292). -/
def haltFatal (s : State) : State := { s with halted := true, lastErr := halInitFailCode }

-- Pushes into the two rings

/-- `Push(RXRB, b)`: appended, or dropped and counted when 256 bytes are held (R62). -/
def pushRx (b : Byte) (s : State) : State :=
  if s.rxrb.count = Config.rbCap then count .rxrbOverflow s else { s with rxrb := s.rxrb.append b }

/-- `Push(TXRB, b)` (R62). -/
def pushTx (b : Byte) (s : State) : State :=
  if s.txrb.count = Config.rbCap then count .txrbOverflow s else { s with txrb := s.txrb.append b }

/-- A multi-byte enqueue: one `Push` a byte, in order (R62). -/
def pushTxAll : List Byte → State → State
  | [], s => s
  | b :: bs, s => pushTxAll bs (pushTx b s)

-- Radio primitives

/-- `ArmRx()` (R125). -/
def armRx (s : State) : State :=
  if s.txBusy then s else emit .armRx { s with rxArmed := true }

/-- A frame buffer after `len` and `MemWrite(b, 0, len, bytes)`; bytes past the frame keep their value
(R123, R180). -/
def FrameBuf.store (buf : FrameBuf) (bytes : List Byte) : Option FrameBuf :=
  match memWrite Config.maxFrame buf.b 0 bytes with
  | some m => some ⟨bytes.length, m⟩
  | none => none

/-- The bytes of the frame a buffer holds. -/
def FrameBuf.bytes (buf : FrameBuf) : List Byte := Memory.readAll buf.b 0 buf.len

/-- The state after `Send` has accepted the encoded frame `f` (R123). -/
def transmit (f : List Byte) (buf : FrameBuf) (s : State) : State :=
  emit (.txFrame f)
    { s with lastTx := buf, seqCtr := s.seqCtr + 1, txBusy := true, rxArmed := false }

/-- `Send(dest, type, payload)` (R123): refused and counted while a transmission is in flight; `Encode`
refuses a payload over 15 bytes (R120). -/
def send (dest type : Byte) (payload : List Byte) (s : State) : Result :=
  if s.txBusy then .next (count .txOverlap s)
  else if Config.maxPayload < payload.length then .refused .payloadTooLong
  else
    match s.lastTx.store (encodeFrame type ⟨s.cfg.localAddr, dest, s.seqCtr, payload⟩) with
    | some buf =>
      .next (transmit (encodeFrame type ⟨s.cfg.localAddr, dest, s.seqCtr, payload⟩) buf s)
    | none => .fault .outsideSpace

-- What every operation begins with

/-- The guard of every operation but RESET: before the first RESET the run is refused (R295); in the
halted state nothing happens (R293); otherwise the operation's body runs. -/
def operate (body : State → Result) (s : State) : Result :=
  if s.started then if s.halted then .next s else body s else .refused .beforeFirstReset

/-- A PARSE_STEP waits and can take its step now: `txBusy` is clear (R141, R267). -/
def parseReady (s : State) : Bool := decide (0 < s.held) && !s.txBusy

/-- The operation at the head of what is presented, and the bytes after it (R90, R94). -/
def fetch (s : State) : Except DecodeError (Instr × List Byte) := decodeOp s.input

/-- What a step does where no whole operation is presented: with no byte the FRC is idle and keeps all
state (R279); bytes that end inside an operation are no operation. -/
def noFetch (e : DecodeError) (s : State) : Result :=
  match e with
  | .noOperation => .next s
  | .truncatedOperation => .refused .truncatedOperation
  | .notAFrame => .refused .truncatedOperation
  | .notAPacket => .refused .truncatedOperation
  | .notAReport => .refused .truncatedOperation

end Sys2Proof.Machine
end

