-- ==== Sys2Proof/Machine/Pprz.lean ====
section
/-! DEFINITION. The PPRZ parser, the relay of an extracted packet, the telemetry message and
PARSE_STEP (spec/41_pprz.md R141 to R155). -/

namespace Sys2Proof.Machine

/-- `Pop(RXRB)` with the byte unused (R63). -/
def popRx (s : State) : State := { s with rxrb := s.rxrb.drop1 }

/-- Step 1, the hunt for STX: at most `fuel` bytes that are not 0x99 are consumed, each counted (R142).
Called with `fuel` = RXRB.count, it ends at a 0x99 or at an empty ring. -/
def hunt : Nat → State → State
  | 0, s => s
  | fuel + 1, s =>
    if s.rxrb.count = 0 then s
    else if s.rxrb.peek 0 = Config.pprzStx then s
    else hunt fuel (count .pprzDiscard (popRx s))

/-- The LEN byte of the packet at the head, "at offset 1 without consuming" (R64, R144). -/
def headLen (s : State) : Nat := (s.rxrb.peek 1).toNat

/-- Steps 2 to 6 on a ring whose head is 0x99, or that is empty (R142 last line, R143 to R147): the
packet extracted, if any, and the state. -/
def parseHead (s : State) : Option (List Byte) × State :=
  if s.rxrb.count < 5 then (none, s)
  else if headLen s < Config.pprzMinLen then (none, count .pprzBadLen (popRx s))
  else if s.rxrb.count < headLen s then (none, s)
  else if validPacketAt (s.rxrb.peekAll 0 (headLen s)) (headLen s) then
    (some (s.rxrb.peekAll 0 (headLen s)), { s with rxrb := s.rxrb.dropN (headLen s) })
  else (none, count .pprzBadCksum (popRx s))

/-- `Parse(RXRB)` (R142 to R147), but for the success counter, which `acceptPacket` advances. -/
def parse (s : State) : Option (List Byte) × State := parseHead (hunt s.rxrb.count s)

/-- `Relay(p)` (R148, R149). -/
def relay (p : List Byte) (s : State) : Result :=
  if Config.maxPayload < p.length then .next (count .relayOversize s)
  else send s.cfg.relayDest 42 p s

/-- What an extracted packet does: `cnt_pprz_ok` advances, `lastErr` does not (R147, R35), and the
packet is relayed (R148). -/
def acceptPacket (p : List Byte) (s : State) : Result :=
  relay p { s with cnt := { s.cnt with pprzOk := s.cnt.pprzOk + 1 } }

/-- PARSE_STEP takes its step (R141 with `txBusy` = 0). -/
def parseStepBody (s : State) : Result :=
  match parse s with
  | (none, s') => .next s'
  | (some p, s') => acceptPacket p s'

/-- PARSE_STEP (R141): held while a transmission is in flight, and it waits (R267, assumption 9). -/
def execParseStep (s : State) : Result :=
  operate (fun s => if s.txBusy then .next { s with held := s.held + 1 } else parseStepBody s) s

/-- A packet into TXRB, byte by byte (R152). -/
def pushReport (sender msgId src dest : Byte) (range : List Byte) (s : State) : State :=
  pushTxAll (pprzEncode ([sender, msgId, src, dest] ++ range)) s

/-- `Telemetry(s, d, r)` (R152). -/
def telemetry (src dest : Byte) (range : List Byte) (s : State) : State :=
  pushReport s.cfg.localAddr s.cfg.pprzMsgIdRange src dest range s

/-- PPRZ_PACKET (R109): the valid packet with this DATA, extracted by the parser (R147, R148). -/
def execPprzPacket (data : List Byte) (s : State) : Result :=
  operate (acceptPacket (pprzEncode data)) s

/-- PPRZ_RANGE_REPORT (R110): the one PPRZ message the FRC originates, pushed into TXRB (R152). -/
def execPprzRangeReport (sender msgId src dest : Byte) (range : F64) (s : State) : Result :=
  operate (fun s => .next (pushReport sender msgId src dest (distBytes range) s)) s

/-- The resync view of RXRB's content (R155): derived, no register. -/
inductive HeadView where
  /-- The ring is empty, or its head is not 0x99. -/
  | hunting
  /-- Head 0x99, fewer than 5 bytes. -/
  | short
  /-- LEN is 5 or less. -/
  | badLen
  /-- LEN is more than the bytes held. -/
  | waiting
  /-- The whole declared packet is there. -/
  | checking
deriving DecidableEq, Repr

/-- In which of R155's cases the head of RXRB is. -/
def headView (s : State) : HeadView :=
  if s.rxrb.count = 0 ∨ s.rxrb.peek 0 ≠ Config.pprzStx then .hunting
  else if s.rxrb.count < 5 then .short
  else if headLen s < Config.pprzMinLen then .badLen
  else if s.rxrb.count < headLen s then .waiting
  else .checking

end Sys2Proof.Machine
end

