-- ==== Sys2Proof/Machine/Router.lean ====
section
/-! DEFINITION. The packet router and the frame types without a ranging role (spec/42_router.md R181 to
R191). A frame instruction is a frame the radio has delivered: RADIO_RX has latched it (R180), and
`byRoute` is R181 with the type's row of R192. -/

namespace Sys2Proof.Machine

/-- `OwnSrc(f)` (R182): no type is looked at. -/
def onOwnSrc (s : State) : Result := .next (armRx (count .ownSrc s))

/-- `OnUnknown(f)` (R191). -/
def onUnknown (s : State) : Result := .next (armRx (count .unknownType s))

/-- A foreign frame of a type other than RANGE_REPORT (R186): ignored, not counted. -/
def onIgnored (s : State) : Result := .next (armRx s)

/-- `Route(f)` (R181), for a type whose own, broadcast and foreign handling are given. -/
def byRoute (f : FrameBody) (own broadcast foreign : State → Result) (s : State) : Result :=
  match routeOf s.cfg.localAddr f with
  | .ownSrc => onOwnSrc s
  | .own => own s
  | .broadcast => broadcast s
  | .foreign => foreign s

/-- `OnRelay(f)` (R187). -/
def onRelay (f : FrameBody) (s : State) : Result := .next (armRx (pushTxAll f.payload s))

/-- `OnPing(f)` (R188): the PONG goes to the frame's `src` (R193). -/
def onPing (f : FrameBody) (s : State) : Result := send f.src 255 [] s

/-- `OnPong(f)` (R189). -/
def onPong (f : FrameBody) (s : State) : Result := .next (armRx (registrySet f.src s))

/-- RANGE_REQUEST (R190): assigned, no handler. -/
def execRangeRequest (f : FrameBody) (s : State) : Result :=
  operate (byRoute f onUnknown onUnknown onIgnored) s

/-- DATA_RELAY (R187): an own frame is handled as broadcast (R184). -/
def execDataRelay (f : FrameBody) (s : State) : Result :=
  operate (byRoute f (onRelay f) (onRelay f) onIgnored) s

/-- PING (R188). -/
def execPing (f : FrameBody) (s : State) : Result :=
  operate (byRoute f (onPing f) (onPing f) onIgnored) s

/-- PONG (R189). -/
def execPong (f : FrameBody) (s : State) : Result :=
  operate (byRoute f (onPong f) (onPong f) onIgnored) s

/-- UNASSIGNED_TYPE (R101, R191): the type value is looked at no further. -/
def execUnassignedType (_type : Byte) (f : FrameBody) (s : State) : Result :=
  operate (byRoute f onUnknown onUnknown onIgnored) s

end Sys2Proof.Machine
end

