-- ==== Sys2Proof/Machine/Ranging.lean ====
section
/-! DEFINITION. The DS-TWR ranging state machine (spec/43_ranging.md R220 to R243): timestamp
arithmetic, the distance formula, POLL_TICK, RADIO_TX_DONE and the five ranging frame types. -/

namespace Sys2Proof.Machine

-- Timestamp arithmetic

/-- `delta40(start, end)` (R220): an interval in [0, 2^40). -/
def delta40 (start stop : Timestamp) : Nat :=
  if start.toNat ≤ stop.toNat then stop.toNat - start.toNat
  else stop.toNat + (Config.tsMod - start.toNat)

/-- tRound1 of `Deltas()` (R233). -/
def tRound1 (x : Session) : Nat := delta40 x.tStartRound1 x.tStartReply2
/-- tReply1 of `Deltas()` (R233). -/
def tReply1 (x : Session) : Nat := delta40 x.tStartReply1 x.tEndReply1
/-- tReply2 of `Deltas()` (R233). -/
def tReply2 (x : Session) : Nat := delta40 x.tStartReply2 x.tEndReply2
/-- tRound2 of `Deltas()` (R233). -/
def tRound2 (x : Session) : Nat := delta40 x.tEndReply1 x.tEndRound2

/-- N of `Terms` (R234), exact and signed. -/
def termN (x : Session) : Int :=
  (tRound1 x : Int) * (tRound2 x : Int) - (tReply1 x : Int) * (tReply2 x : Int)

/-- D of `Terms` (R234), exact. -/
def termD (x : Session) : Int :=
  (tRound1 x : Int) + (tReply1 x : Int) + (tRound2 x : Int) + (tReply2 x : Int)

-- RANGE_NUMERICS

/-- The value of a finite binary64 pattern times 2^1074, an integer (R9, R236). -/
def f64Scaled (p : F64) : Int :=
  let e := (p.extractLsb' 52 11).toNat
  let m := (p.extractLsb' 0 52).toNat
  let a : Nat := if e = 0 then m else (2 ^ 52 + m) * 2 ^ (e - 1)
  if p.getLsbD 63 then -(a : Int) else (a : Int)

/-- The quotient a / b rounded to the nearest integer, ties to even (b > 0). -/
def divNearestEven (a b : Nat) : Nat :=
  let q := a / b
  let r := a % b
  if 2 * r < b then q else if b < 2 * r then q + 1 else if q % 2 = 0 then q else q + 1

/-- The exponent of the leading bit of a / b, that is the e with 2^e ≤ a/b < 2^(e+1) (a, b > 0), as
1074 + e; 0 where e is below −1074. -/
def leadExponent (a b : Nat) : Nat :=
  let e := 1074 + Nat.log2 a - Nat.log2 b
  if b * 2 ^ e ≤ a * 2 ^ 1074 then e else e - 1

/-- The magnitude bits of the binary64 nearest to a / b, ties to even (R236, `RNE64`): with the unit in
the last place 2^(u − 1074), the pattern of m units is u·2^52 + m, for normal and subnormal values
alike, and a carry out of m moves to the next exponent. A value past the largest finite one gives the
pattern of infinity; R236 says none occurs. -/
def roundMagnitude (a b : Nat) : Nat :=
  let u := leadExponent a b - 52
  min (u * 2 ^ 52 + divNearestEven (a * 2 ^ 1074) (b * 2 ^ u)) (2047 * 2 ^ 52)

/-- `RNE64(n / d)` for d > 0: one rounding to the nearest binary64, ties to even; an exact zero gives
+0.0 (R236). -/
def roundNearestEven64 (n : Int) (d : Nat) : F64 :=
  if n = 0 then 0
  else if n < 0 then BitVec.ofNat 64 (2 ^ 63 + roundMagnitude n.natAbs d)
  else BitVec.ofNat 64 (roundMagnitude n.natAbs d)

/-- Numerator of `C_LIGHT · N / (D · F_CTR) − real(cal)` over `refDen` (R236). -/
def refNum (n d : Int) (cal : F64) : Int :=
  (Config.cLight : Int) * n * 2 ^ 1074 - f64Scaled cal * (d * (Config.fCtr : Int))

/-- Denominator of the same, positive for D > 0. -/
def refDen (d : Int) : Nat := d.toNat * Config.fCtr * 2 ^ 1074

/-- REF (R236): exact over the rationals, rounded once. -/
def refNumerics (n d : Int) (cal : F64) : F64 := roundNearestEven64 (refNum n d cal) (refDen d)

/-- `RANGE_NUMERICS(N, D, cal)` (R236). -/
def rangeNumerics (sel : Numerics) (n d : Int) (cal : F64) : F64 :=
  match sel with
  | .ref => refNumerics n d cal
  | .custom k => Config.customNumerics k n d cal

-- The handlers of own frames

/-- `OnPoll(f)` (R229). -/
def onPoll (f : FrameBody) (s : State) : Result := send f.src 1 [] s

/-- `OnResponse(f)` (R230): no check that this node polled. -/
def onResponse (f : FrameBody) (s : State) : Result := send f.src 2 [] s

/-- `tEndRound2 <- lastRxTs` (R231). -/
def captureFinal (s : State) : State :=
  { s with session := { s.session with tEndRound2 := s.lastRxTs } }

/-- The 15-byte RANGE_TRANSFER payload (R103, R231). -/
def transferPayload (x : Session) : List Byte :=
  tsBytes x.tStartReply1 ++ tsBytes x.tEndReply1 ++ tsBytes x.tEndRound2

/-- `OnFinal(f)` (R231): the capture stands even where the reply is refused. -/
def onFinal (f : FrameBody) (s : State) : Result :=
  send f.src 3 (transferPayload (captureFinal s).session) (captureFinal s)

/-- `Report(f, d)` (R237). -/
def report (f : FrameBody) (d : F64) (s : State) : Result :=
  send f.src 5 (distBytes d)
    (telemetry s.cfg.localAddr f.src (distBytes d) { s with lastDist := d, distValid := true })

/-- The responder's three timestamps into this node's registers (R232, R103). -/
def captureTransfer (p : List Byte) (s : State) : State :=
  { s with
    session :=
      { s.session with
        tStartReply1 := payloadTs p 0
        tEndReply1 := payloadTs p 5
        tEndRound2 := payloadTs p 10 } }

/-- The distance of the session a state holds (R232 to R236). -/
def sessionDistance (s : State) : F64 :=
  rangeNumerics s.cfg.numerics (termN s.session) (termD s.session) s.cfg.calOffset

/-- The second half of `OnTransfer(f)`, after the timestamps are copied (R232, R235). -/
def computeAndReport (f : FrameBody) (s : State) : Result :=
  if termD s.session ≤ 0 then .next (armRx (count .degenerate s))
  else report f (sessionDistance s) s

/-- `OnTransfer(f)` (R232). -/
def onTransfer (f : FrameBody) (s : State) : Result :=
  if f.payload.length < 15 then .next (armRx (count .shortPayload s))
  else computeAndReport f (captureTransfer f.payload s)

/-- `OnReport(f)` (R238): the distance bytes are copied, never decoded. -/
def onReport (f : FrameBody) (s : State) : Result :=
  if f.payload.length < 8 then .next (armRx (count .shortPayload s))
  else .next (armRx (telemetry f.src f.dest (payloadDist f.payload) s))

-- The frame types

/-- RANGE_POLL (R229). -/
def execRangePoll (f : FrameBody) (s : State) : Result :=
  operate (byRoute f (onPoll f) onUnknown onIgnored) s

/-- RANGE_RESPONSE (R230). -/
def execRangeResponse (f : FrameBody) (s : State) : Result :=
  operate (byRoute f (onResponse f) onUnknown onIgnored) s

/-- RANGE_FINAL (R231). -/
def execRangeFinal (f : FrameBody) (s : State) : Result :=
  operate (byRoute f (onFinal f) onUnknown onIgnored) s

/-- RANGE_TRANSFER (R232). -/
def execRangeTransfer (f : FrameBody) (s : State) : Result :=
  operate (byRoute f (onTransfer f) onUnknown onIgnored) s

/-- RANGE_REPORT (R238): the foreign route delivers too (R186). -/
def execRangeReport (f : FrameBody) (s : State) : Result :=
  operate (byRoute f (onReport f) onUnknown (onReport f)) s

-- The operations

/-- The session reset of a fresh poll (R223, R27). -/
def clearSession (s : State) : State := { s with session := Session.zero }

/-- POLL_TICK (R223). -/
def execPollTick (s : State) : Result :=
  operate
    (fun s =>
      if s.cfg.localAddr = s.cfg.anchorAddr then .next s
      else if s.txBusy then .next (count .pollSkipped s)
      else send s.cfg.anchorAddr 0 [] (clearSession s))
    s

/-- `lastTx.b[2]`, the type of the frame last transmitted (R30, R224). -/
def lastTxType (s : State) : Byte := Memory.read s.lastTx.b 2

/-- The captures of a transmit completion, by the type of the frame that completed (R225 to R228). -/
def captureTxDone (txTs : Timestamp) (s : State) : State :=
  if lastTxType s = 0 then { s with session := { s.session with tStartRound1 := txTs } }
  else if lastTxType s = 1 then
    { s with session := { s.session with tStartReply1 := s.lastRxTs, tEndReply1 := txTs } }
  else if lastTxType s = 2 then
    { s with session := { s.session with tStartReply2 := s.lastRxTs, tEndReply2 := txTs } }
  else s

/-- RADIO_TX_DONE (R224). -/
def execRadioTxDone (txTs : Timestamp) (s : State) : Result :=
  operate
    (fun s =>
      if s.txBusy then .next (armRx { captureTxDone txTs s with txBusy := false })
      else .next (count .spuriousTxDone s))
    s

end Sys2Proof.Machine
end

