-- ==== Sys2Proof/Machine/Radio.lean ====
section
/-! DEFINITION. RADIO_RX (spec/42_router.md R180) and the dispatch of a received frame to the meaning of
its type (R183 to R186, R192). -/

namespace Sys2Proof.Machine

/-- The meaning of a received frame, by its type tag (R100, R192). -/
def execFrame (type : Byte) (f : FrameBody) (s : State) : Result :=
  if type = 0 then execRangePoll f s
  else if type = 1 then execRangeResponse f s
  else if type = 2 then execRangeFinal f s
  else if type = 3 then execRangeTransfer f s
  else if type = 5 then execRangeReport f s
  else if type = 6 then execRangeRequest f s
  else if type = 42 then execDataRelay f s
  else if type = 254 then execPing f s
  else if type = 255 then execPong f s
  else execUnassignedType type f s

/-- The receiver has delivered a frame at `rxTs`, whatever `rxArmed` says (R180, R24). -/
def latchRx (rxTs : Timestamp) (s : State) : State := { s with rxArmed := false, lastRxTs := rxTs }

/-- The body of RADIO_RX after the timestamp is latched, on the bytes received (R180). -/
def receive (d : List Byte) (s : State) : Result :=
  match decodeFrameFields d with
  | none => .next (armRx (count .shortFrame s))
  | some (type, f) =>
    match s.lastRx.store d with
    | some buf => execFrame type f { s with lastRx := buf }
    | none => .fault .outsideSpace

/-- RADIO_RX (R180). Only the first 19 bytes are used (R93), so a byte string that is no frame is one of
fewer than 4 bytes (SHORT_FRAME). -/
def execRadioRx (rxTs : Timestamp) (data : List Byte) (s : State) : Result :=
  operate (fun s => receive (receivedBytes data) (latchRx rxTs s)) s

end Sys2Proof.Machine
end

