-- ==== Sys2Proof/Machine/System.lean ====
section
/-! DEFINITION. RESET and the reserved opcodes (spec/70_reset_and_hazards.md R290 to R292,
spec/30_encoding.md R95). -/

namespace Sys2Proof.Machine

/-- Every component of R20 at its reset value, `cfg` the configuration presented (R290, R43); `halted`,
`rxArmed` and `lastErr` as they are before init_ok decides. A waiting PARSE_STEP is discarded with
everything else in flight (assumption 9); what is presented and what was emitted is not FRC state. -/
def cleared (s : State) : State where
  cfg := s.envCfg
  halted := false
  txBusy := false
  rxArmed := false
  seqCtr := 0
  session := Session.zero
  lastRxTs := 0
  lastRx := FrameBuf.empty
  lastTx := FrameBuf.empty
  lastDist := 0
  distValid := false
  registry := []
  rxrb := RingBuf.empty
  txrb := RingBuf.empty
  cnt := Counters.zero
  lastErr := 0
  started := true
  envCfg := s.envCfg
  input := s.input
  held := 0
  out := s.out

/-- The two HAL commands of a reset, in their fixed order (R290, R291). -/
def emitReset (s : State) : State :=
  emit (.halConfigure s.cfg.radioChannel s.cfg.radioPreamble s.cfg.radioMode) (emit .halReset s)

/-- RESET (R290 to R292): accepted in every state, before the first RESET and halted included; refused
only for a configuration that breaks R6. -/
def execReset (flags : Byte) (s : State) : Result :=
  if s.envCfg.valid then
    if initOk flags then .next (armRx (emitReset (cleared s)))
    else .next (haltFatal (emitReset (cleared s)))
  else .refused .badConfiguration

/-- A reserved opcode, 0x07 to 0xFF (R95): counted, nothing else. -/
def execIllegalOp (_opcode : Byte) (s : State) : Result :=
  operate (fun s => .next (count .illegalOp s)) s

end Sys2Proof.Machine
end

