-- ==== Sys2Proof/Machine/Uart.lean ====
section
/-! DEFINITION. The UART operations UART_RX_BYTE and TXRB_POP (spec/41_pprz.md R140, R153). -/

namespace Sys2Proof.Machine

/-- UART_RX_BYTE (R140). -/
def execUartRxByte (b : Byte) (s : State) : Result := operate (fun s => .next (pushRx b s)) s

/-- TXRB_POP (R153): one byte, if there is one, leaves for the UART. -/
def execTxrbPop (s : State) : Result :=
  operate
    (fun s =>
      if s.txrb.count = 0 then .next s
      else .next (emit (.uartTxByte (s.txrb.peek 0)) { s with txrb := s.txrb.drop1 }))
    s

end Sys2Proof.Machine
end

