-- ==== Sys2Proof/Machine/Dispatch.lean ====
section
/-! DEFINITION. One arm per instruction. -/

namespace Sys2Proof.Machine

def exec (i : Instr) (s : State) : Host.Outcome State Fault Refusal :=
  match i with
  | .reset flags => Sys2Proof.Machine.execReset flags s
  | .uartRxByte b => Sys2Proof.Machine.execUartRxByte b s
  | .parseStep => Sys2Proof.Machine.execParseStep s
  | .txrbPop => Sys2Proof.Machine.execTxrbPop s
  | .pollTick => Sys2Proof.Machine.execPollTick s
  | .radioRx rxTs data => Sys2Proof.Machine.execRadioRx rxTs data s
  | .radioTxDone txTs => Sys2Proof.Machine.execRadioTxDone txTs s
  | .illegalOp opcode => Sys2Proof.Machine.execIllegalOp opcode s
  | .rangePoll f => Sys2Proof.Machine.execRangePoll f s
  | .rangeResponse f => Sys2Proof.Machine.execRangeResponse f s
  | .rangeFinal f => Sys2Proof.Machine.execRangeFinal f s
  | .rangeTransfer f => Sys2Proof.Machine.execRangeTransfer f s
  | .rangeReport f => Sys2Proof.Machine.execRangeReport f s
  | .rangeRequest f => Sys2Proof.Machine.execRangeRequest f s
  | .dataRelay f => Sys2Proof.Machine.execDataRelay f s
  | .ping f => Sys2Proof.Machine.execPing f s
  | .pong f => Sys2Proof.Machine.execPong f s
  | .unassignedType type f => Sys2Proof.Machine.execUnassignedType type f s
  | .pprzPacket data => Sys2Proof.Machine.execPprzPacket data s
  | .pprzRangeReport sender msgId src dest range => Sys2Proof.Machine.execPprzRangeReport sender msgId src dest range s

end Sys2Proof.Machine
end

