-- ==== Sys2Proof/Machine/Step.lean ====
section
/-! DEFINITION. One step: a PARSE_STEP that waits and can run, or the next operation presented. -/

namespace Sys2Proof.Machine

/-- One step of the FRC (spec/00_scope.md R5, spec/20_memory.md R75, R76): a held PARSE_STEP whose hold
is lifted runs first (assumption 9); else the operation at the head of what the environment presents
is applied, atomically and completely; with nothing presented the FRC is idle (R279). -/
def step (s : State) : Host.Outcome State Fault Refusal :=
  if parseReady s then exec .parseStep { s with held := s.held - 1 }
  else
    match fetch s with
    | .ok (i, rest) => exec i { s with input := rest }
    | .error e => noFetch e s

/-- The state with exactly the operation of an opcode-table word presented, and no PARSE_STEP waiting,
so that the next step runs that operation. It stands for the environment's presenting of an operation
(assumption 8). -/
def State.withFetchWord (s : State) (nbits w : Nat) : State :=
  { s with input := tableOperation nbits w, held := 0 }

end Sys2Proof.Machine
end

