-- ==== Sys2Proof/Safety.lean ====
section
/-! DEFINITION. The terms in which claims about the FRC are stated: a running FRC, what a store, a push, a
pop, a transmission and a re-arm leave, the invariant of a run, and the value of a binary64 pattern. -/

namespace Sys2Proof.Machine

/-- A RESET has been applied and the last one succeeded: operations have their effect (spec/70 R293,
R295). -/
abbrev Running (s : State) : Prop := s.started = true ∧ s.halted = false

/-- An instruction other than RESET. -/
def notReset : Instr → Bool
  | .reset _ => false
  | _ => true

/-- `new` is the frame buffer `old` after `len` and the bytes from offset 0 are stored; every other byte
is as before (spec/10 R29, R30). -/
def Stored (old new : FrameBuf) (bytes : List Byte) : Prop :=
  new.len = bytes.length ∧ new.bytes = bytes ∧
    ∀ a, bytes.length ≤ a → Memory.read new.b a = Memory.read old.b a

/-- `new` is the ring `old` after the bytes are pushed: its content has them at its end, and no storage
byte changes but those at the write positions (spec/20 R61, R62). -/
def Appended (old new : RingBuf) (bytes : List Byte) : Prop :=
  new.content = old.content ++ bytes ∧ new.rd = old.rd ∧
    ∀ a, (∀ k, k < bytes.length → a ≠ (old.rd.toNat + old.count + k) % 256) →
      Memory.read new.mem a = Memory.read old.mem a

/-- `new` is the ring `old` after n bytes are popped; no storage byte changes (spec/20 R63). -/
def Consumed (old new : RingBuf) (n : Nat) : Prop :=
  new.content = old.content.drop n ∧ new.rd = old.rd + BitVec.ofNat 8 n ∧
    new.count = old.count - n ∧ new.mem = old.mem

/-- `t` is `s` after a transmission of `bytes` has started (spec/40 R123), and nothing else. -/
def SentFrame (s : State) (bytes : List Byte) (t : State) : Prop :=
  ∃ buf, Stored s.lastTx buf bytes ∧
    t = { s with
      lastTx := buf
      seqCtr := s.seqCtr + 1
      txBusy := true
      rxArmed := false
      out := s.out ++ [.txFrame bytes] }

/-- `t` is `s` after a re-arm (spec/40 R125), and nothing else: none while a transmission is in flight. -/
def Rearmed (s t : State) : Prop :=
  (s.txBusy = true → t = s) ∧
  (s.txBusy = false → t = { s with rxArmed := true, out := s.out ++ [.armRx] })

/-- How many of the commands are TX_FRAME. -/
def txFrames (cmds : List Command) : Nat :=
  cmds.countP (fun c => match c with | .txFrame _ => true | _ => false)

/-- A ring's storage is canonical and it holds at most 256 bytes (spec/20 R61). -/
def RingBuf.wf (r : RingBuf) : Bool := Memory.wf 256 r.mem && decide (r.count ≤ 256)

/-- A frame buffer's storage is canonical and it holds no frame or one of 4 to 19 bytes (spec/10 R29,
R30). -/
def FrameBuf.wf (f : FrameBuf) : Bool :=
  Memory.wf 19 f.b && (decide (f.len = 0) || (decide (4 ≤ f.len) && decide (f.len ≤ 19)))

/-- Every anomaly counter is 0. -/
def Counters.noAnomaly (c : Counters) : Bool :=
  decide ({ c with pprzOk := 0 } = Counters.zero)

/-- The part of the invariant that holds once a RESET has been applied. -/
def State.invStarted (s : State) : Bool :=
  -- the configuration meets R6
  s.cfg.valid &&
  -- running: the receiver is armed or a transmission is in flight, never both (R24, R125, R126);
  -- halted: neither, and the halt is observable (R292, R293)
  (if s.halted then !s.txBusy && !s.rxArmed && decide (s.lastErr = 0x10)
   else decide (s.rxArmed = !s.txBusy) && decide (s.lastErr.toNat ≤ 0x0F)) &&
  -- a frame is in flight only if one has been sent (R23, R30), and it carries this node's address (R124)
  (!s.txBusy || decide (4 ≤ s.lastTx.len)) &&
  (decide (s.lastTx.len = 0) || decide (Memory.read s.lastTx.b 0 = s.cfg.localAddr)) &&
  -- no distance but a computed one (R31)
  (s.distValid || decide (s.lastDist = 0)) &&
  -- lastErr 0x00 means no anomaly since reset (R35)
  (decide (s.lastErr ≠ 0) || s.cnt.noAnomaly) &&
  -- bytes 8 to 31 of the registry are never written under LEGACY_ALIAS (R66)
  (decide (s.cfg.registryMode = .exact) || Memory.wf 8 s.registry)

/-- The invariant of a run: every byte array is in its canonical form inside its size, and the status
components agree with each other. -/
def State.inv (s : State) : Bool :=
  Memory.wf 32 s.registry && s.rxrb.wf && s.txrb.wf && s.lastRx.wf && s.lastTx.wf &&
  (!s.started || s.invStarted)

/-- `s` meets the invariant. -/
abbrev StateInv (s : State) : Prop := s.inv = true

/-- The value of a finite binary64 pattern, as a rational. -/
def f64Value (p : F64) : ℚ := (f64Scaled p : ℚ) / 2 ^ 1074

/-- A pattern is finite: its exponent field is not all ones. -/
abbrev f64Finite (p : F64) : Prop := p.extractLsb' 52 11 ≠ 2047

/-- What `C_LIGHT · N / (D · F_CTR) − real(cal)` is, as a rational (spec/43 R236). -/
def refExact (n d : Int) (cal : F64) : ℚ :=
  299792458 * (n : ℚ) / ((d : ℚ) * 63897600000) - f64Value cal

end Sys2Proof.Machine
end

