-- ==== Sys2Proof/Certificates/Slice0/Obligations.lean ====
section
/-! DEFINITION. The statements for the provers. -/

open Sys2Proof Sys2Proof.Machine

-- The step

/-- A step applies the operation at the head of what is presented, and moves past its bytes (R5, R76, R90);
where a PARSE_STEP waits and can run, that one runs first (assumption 9). -/
def Obligations.StepRunsDecodedOperation : Prop :=
  ∀ (s : State) (i : Instr) (rest : List Byte),
    ¬ (0 < s.held ∧ s.txBusy = false) → decodeOp s.input = .ok (i, rest) → WellFormed i →
      step s = exec i { s with input := rest }

/-- A step that fetches nothing. The model's choice (assumption 9): a held PARSE_STEP takes its step as soon
as `txBusy` is clear, before the next operation presented. With nothing presented and no PARSE_STEP able to
run, all state is kept (R279). -/
def Obligations.StepWithoutFetchedOperation : Prop :=
  (∀ s : State, 0 < s.held → s.txBusy = false →
    step s = exec .parseStep { s with held := s.held - 1 }) ∧
  (∀ s : State, s.input = [] → ¬ (0 < s.held ∧ s.txBusy = false) → step s = .next s)

-- Encodings

/-- Decode undoes encode on every well-formed instruction of all four formats, with every operand at every
value (R91 to R97, R106 to R110, R122). -/
def Obligations.DecodeUndoesEncode : Prop :=
  ∀ i : Instr, WellFormed i → decodeAs i.format (encode i) = .ok (i, [])

/-- An operation decodes the same whatever follows it in the stream (R94). -/
def Obligations.OperationDecodesBeforeAnyRest : Prop :=
  ∀ (i : Instr) (rest : List Byte), WellFormed i → i.format = .inputOp →
    decodeOp (encode i ++ rest) = .ok (i, rest)

/-- What decodes as an operation is a well-formed input operation, and its encoding is exactly the bytes
that were read (R90, R92, R94). -/
def Obligations.EncodeUndoesOperationDecode : Prop :=
  ∀ (bytes : List Byte) (i : Instr) (rest : List Byte), decodeOp bytes = .ok (i, rest) →
    WellFormed i ∧ i.format = .inputOp ∧ encode i ++ rest = bytes

/-- The frame codec's round trip, both ways (R122). -/
def Obligations.FrameCodecRoundTrip : Prop :=
  (∀ (type : Byte) (f : FrameBody), f.payload.length ≤ 15 →
    decodeFrameFields (encodeFrame type f) = some (type, f)) ∧
  (∀ d : List Byte, 4 ≤ d.length → d.length ≤ 19 →
    ∃ type f, decodeFrameFields d = some (type, f) ∧ encodeFrame type f = d)

/-- Words written out from the spec's encodings (R91, R97, R100, R106, R110). -/
def Obligations.WrittenWordsDecode : Prop :=
  decodeOp [0x00, 0x03] = .ok (.reset 0x03, []) ∧
  decodeOp [0x06, 0xC8, 0x01, 0x00, 0x00, 0x80] = .ok (.radioTxDone 0x80000001C8, []) ∧
  decodeOp [0x05, 0x00, 0x50, 0x00, 0x00, 0x00, 0x04, 0x02, 0x01, 0x00, 0x07, 0x04] =
    .ok (.radioRx 0x0000005000 [0x02, 0x01, 0x00, 0x07], [0x04]) ∧
  decodeFrame [0x02, 0xFF, 0x2A, 0x09, 0xAA] = .ok (.dataRelay ⟨0x02, 0xFF, 0x09, [0xAA]⟩) ∧
  decodePprz [0x99, 0x06, 0x01, 0x02, 0x09, 0x16, 0x55] = .ok (.pprzPacket [0x01, 0x02], [0x55])

/-- The checksums are the byte sum and the sum of the running byte sums, modulo 256, over offsets 1 to
LEN − 3 (R108). -/
def Obligations.ChecksumsAreRunningSums : Prop :=
  ∀ (p : List Byte) (len : Nat),
    (cks p len).1 =
      BitVec.ofNat 8 ((((p.drop 1).take (len - 3)).map BitVec.toNat).sum) ∧
    (cks p len).2 =
      BitVec.ofNat 8 (((List.range ((p.drop 1).take (len - 3)).length).map (fun i =>
        (((((p.drop 1).take (len - 3)).take (i + 1)).map BitVec.toNat).sum))).sum)

-- The invariant

/-- The invariant holds right after reset. -/
def Obligations.ResetStateMeetsInvariant : Prop := StateInv State.reset

/-- From every state that meets the invariant, a step leads to one that does. -/
def Obligations.StepKeepsInvariant : Prop :=
  ∀ s t : State, StateInv s → step s = .next t → StateInv t

-- Reset, halt, power-on

/-- A RESET with init_ok = 1: every component at its reset value, the configuration taken, and exactly the
three commands in their order (R290, R43, R291); the model's own fields by assumptions 6 to 10. -/
def Obligations.ResetSucceeds : Prop :=
  ∀ (flags : Byte) (s : State), s.envCfg.valid = true → flags.getLsbD 0 = true →
    exec (.reset flags) s = .next
      { cfg := s.envCfg, halted := false, txBusy := false, rxArmed := true, seqCtr := 0,
        session := ⟨0, 0, 0, 0, 0, 0⟩, lastRxTs := 0, lastRx := ⟨0, []⟩, lastTx := ⟨0, []⟩,
        lastDist := 0, distValid := false, registry := [], rxrb := ⟨[], 0, 0⟩, txrb := ⟨[], 0, 0⟩,
        cnt := ⟨0, 0, 0, 0, 0, 0, 0, 0, 0, 0, 0, 0, 0, 0, 0, 0⟩, lastErr := 0,
        started := true, envCfg := s.envCfg, input := s.input, held := 0,
        out := s.out ++ [.halReset,
          .halConfigure s.envCfg.radioChannel s.envCfg.radioPreamble s.envCfg.radioMode, .armRx] }

/-- A RESET with init_ok = 0: the same, but halted, `lastErr` = 0x10, and the receiver not armed (R290,
R292). -/
def Obligations.ResetFailureHalts : Prop :=
  ∀ (flags : Byte) (s : State), s.envCfg.valid = true → flags.getLsbD 0 = false →
    exec (.reset flags) s = .next
      { cfg := s.envCfg, halted := true, txBusy := false, rxArmed := false, seqCtr := 0,
        session := ⟨0, 0, 0, 0, 0, 0⟩, lastRxTs := 0, lastRx := ⟨0, []⟩, lastTx := ⟨0, []⟩,
        lastDist := 0, distValid := false, registry := [], rxrb := ⟨[], 0, 0⟩, txrb := ⟨[], 0, 0⟩,
        cnt := ⟨0, 0, 0, 0, 0, 0, 0, 0, 0, 0, 0, 0, 0, 0, 0, 0⟩, lastErr := 0x10,
        started := true, envCfg := s.envCfg, input := s.input, held := 0,
        out := s.out ++ [.halReset,
          .halConfigure s.envCfg.radioChannel s.envCfg.radioPreamble s.envCfg.radioMode] }

/-- A RESET is refused exactly where the configuration presented breaks R6 (R290): an address 0 or 255, or
a CAL_OFFSET that is not finite. That "not finite" is an exponent field of all ones is the model's reading
(the binary64 layout, PRESUMED, assumption 17), and that the configuration presented stands in `envCfg` is the
model's choice (assumption 7). -/
def Obligations.ResetRefusesBadConfiguration : Prop :=
  ∀ (flags : Byte) (s : State),
    exec (.reset flags) s = .refused .badConfiguration ↔
      (s.envCfg.localAddr = 0 ∨ s.envCfg.localAddr = 255 ∨ s.envCfg.anchorAddr = 0 ∨
        s.envCfg.anchorAddr = 255 ∨ s.envCfg.calOffset.extractLsb' 52 11 = 2047)

/-- While halted, every instruction but RESET changes nothing and emits nothing, and only a RESET with
init_ok = 1 leaves the halted state (R293). -/
def Obligations.HaltedIgnoresAllButReset : Prop :=
  (∀ (i : Instr) (s : State), s.started = true → s.halted = true → notReset i = true →
    exec i s = .next s) ∧
  (∀ (i : Instr) (s t : State), s.started = true → s.halted = true → exec i s = .next t →
    t.halted = false → ∃ flags, i = .reset flags ∧ flags.getLsbD 0 = true)

/-- Before the first RESET, which the model's own flag `started` records (assumption 6), every other
instruction is refused (R295). -/
def Obligations.RunMustBeginWithReset : Prop :=
  ∀ (i : Instr) (s : State), s.started = false → notReset i = true →
    exec i s = .refused .beforeFirstReset

/-- No instruction but RESET changes the configuration or the halted bit (R21, R22); nor does one touch
what is presented. -/
def Obligations.OnlyResetWritesConfiguration : Prop :=
  ∀ (i : Instr) (s t : State), notReset i = true → exec i s = .next t →
    t.cfg = s.cfg ∧ t.halted = s.halted ∧ t.started = s.started ∧ t.envCfg = s.envCfg ∧
      t.input = s.input

-- UART

/-- UART_RX_BYTE stores the byte at the end of RXRB, or drops and counts it where 256 are held; nothing
else changes (R140, R62). -/
def Obligations.UartByteAppendedOrDropped : Prop :=
  ∀ (b : Byte) (s : State), Running s →
    (s.rxrb.count < 256 →
      ∃ r, Appended s.rxrb r [b] ∧ exec (.uartRxByte b) s = .next { s with rxrb := r }) ∧
    (s.rxrb.count = 256 →
      exec (.uartRxByte b) s = .next { s with
        cnt := { s.cnt with rxrbDrop := s.cnt.rxrbDrop + 1 }, lastErr := 0x06 })

/-- TXRB_POP sends the oldest byte of TXRB to the UART, or does nothing where there is none (R153). -/
def Obligations.TxrbPopEmitsOldestByte : Prop :=
  ∀ s : State, Running s →
    (∀ b rest, s.txrb.content = b :: rest →
      ∃ r, Consumed s.txrb r 1 ∧ r.content = rest ∧
        exec .txrbPop s = .next { s with txrb := r, out := s.out ++ [.uartTxByte b] }) ∧
    (s.txrb.content = [] → exec .txrbPop s = .next s)

-- The parser

/-- PARSE_STEP during a transmission has no step: nothing changes but that it waits (R141, R267;
that it is counted in `held` is the model's choice, assumption 9). -/
def Obligations.ParseStepHeldWhileTransmitting : Prop :=
  ∀ s : State, Running s → s.txBusy = true →
    exec .parseStep s = .next { s with held := s.held + 1 }

/-- Steps 1 and 2: every byte ahead of the first 0x99 is discarded and counted; with fewer than 5 bytes
from there on, nothing else happens (R142, R143). -/
def Obligations.ParseDiscardsToStxAndWaits : Prop :=
  ∀ (s : State) (junk tail : List Byte), Running s → s.txBusy = false →
    s.rxrb.content = junk ++ tail → (∀ b ∈ junk, b ≠ 0x99) →
    (∀ b, tail.head? = some b → b = 0x99) → tail.length < 5 →
      ∃ r, Consumed s.rxrb r junk.length ∧
        exec .parseStep s = .next { s with
          rxrb := r
          cnt := { s.cnt with pprzDiscard := s.cnt.pprzDiscard + BitVec.ofNat 32 junk.length }
          lastErr := if junk.length = 0 then s.lastErr else 0x08 }

/-- Step 3: a LEN of 5 or less drops the leading 0x99 alone (R144). -/
def Obligations.ParseRejectsShortLen : Prop :=
  ∀ (s : State) (junk more : List Byte) (len : Byte), Running s → s.txBusy = false →
    s.rxrb.content = junk ++ 0x99 :: len :: more → (∀ b ∈ junk, b ≠ 0x99) → 3 ≤ more.length →
    len.toNat ≤ 5 →
      ∃ r, Consumed s.rxrb r (junk.length + 1) ∧
        exec .parseStep s = .next { s with
          rxrb := r
          cnt := { s.cnt with
            pprzDiscard := s.cnt.pprzDiscard + BitVec.ofNat 32 junk.length
            pprzBadLen := s.cnt.pprzBadLen + 1 }
          lastErr := 0x09 }

/-- Step 4: a packet of which not all bytes are held is waited for; nothing of it is consumed (R145). -/
def Obligations.ParseWaitsForWholePacket : Prop :=
  ∀ (s : State) (junk more : List Byte) (len : Byte), Running s → s.txBusy = false →
    s.rxrb.content = junk ++ 0x99 :: len :: more → (∀ b ∈ junk, b ≠ 0x99) → 3 ≤ more.length →
    6 ≤ len.toNat → more.length + 2 < len.toNat →
      ∃ r, Consumed s.rxrb r junk.length ∧
        exec .parseStep s = .next { s with
          rxrb := r
          cnt := { s.cnt with pprzDiscard := s.cnt.pprzDiscard + BitVec.ofNat 32 junk.length }
          lastErr := if junk.length = 0 then s.lastErr else 0x08 }

/-- Step 5: a whole packet whose last two bytes are not its checksums loses its 0x99 alone (R146). -/
def Obligations.ParseRejectsBadChecksum : Prop :=
  ∀ (s : State) (junk data more : List Byte) (cka ckb : Byte), Running s → s.txBusy = false →
    2 ≤ data.length → data.length ≤ 251 →
    s.rxrb.content =
      junk ++ (0x99 :: BitVec.ofNat 8 (data.length + 4) :: data) ++ [cka, ckb] ++ more →
    (∀ b ∈ junk, b ≠ 0x99) →
    cks (0x99 :: BitVec.ofNat 8 (data.length + 4) :: data) (data.length + 4) ≠ (cka, ckb) →
      ∃ r, Consumed s.rxrb r (junk.length + 1) ∧
        exec .parseStep s = .next { s with
          rxrb := r
          cnt := { s.cnt with
            pprzDiscard := s.cnt.pprzDiscard + BitVec.ofNat 32 junk.length
            pprzBadCk := s.cnt.pprzBadCk + 1 }
          lastErr := 0x0A }

/-- Step 6 and the relay: a valid packet of at most 15 bytes is consumed whole, counted, and sent as the
payload of one DATA_RELAY frame to RELAY_DEST (R147, R148). -/
def Obligations.ParseRelaysValidPacket : Prop :=
  ∀ (s : State) (junk data more : List Byte), Running s → s.txBusy = false →
    2 ≤ data.length → data.length ≤ 11 →
    s.rxrb.content = junk ++ pprzEncode data ++ more → (∀ b ∈ junk, b ≠ 0x99) →
      ∃ r t, Consumed s.rxrb r (junk.length + data.length + 4) ∧ exec .parseStep s = .next t ∧
        SentFrame
          { s with
            rxrb := r
            cnt := { s.cnt with
              pprzDiscard := s.cnt.pprzDiscard + BitVec.ofNat 32 junk.length
              pprzOk := s.cnt.pprzOk + 1 }
            lastErr := if junk.length = 0 then s.lastErr else 0x08 }
          ([s.cfg.localAddr, s.cfg.relayDest, 42, s.seqCtr] ++ pprzEncode data) t

/-- A valid packet of more than 15 bytes is consumed, counted twice (a success, and RELAY_OVERSIZE) and not
sent (R147, R149). -/
def Obligations.ParseDropsOversizePacket : Prop :=
  ∀ (s : State) (junk data more : List Byte), Running s → s.txBusy = false →
    12 ≤ data.length → data.length ≤ 251 →
    s.rxrb.content = junk ++ pprzEncode data ++ more → (∀ b ∈ junk, b ≠ 0x99) →
      ∃ r, Consumed s.rxrb r (junk.length + data.length + 4) ∧
        exec .parseStep s = .next { s with
          rxrb := r
          cnt := { s.cnt with
            pprzDiscard := s.cnt.pprzDiscard + BitVec.ofNat 32 junk.length
            pprzOk := s.cnt.pprzOk + 1
            relayOversize := s.cnt.relayOversize + 1 }
          lastErr := 0x0B }

/-- Forward progress (R154): a PARSE_STEP that is not held consumes a number k of the oldest bytes. It
consumes none only where RXRB is empty, or its head is 0x99 with fewer than 5 or fewer than LEN bytes held;
where it returns no packet, each byte it consumes before the last is not 0x99. -/
def Obligations.ParserMakesProgress : Prop :=
  ∀ s t : State, Running s → s.txBusy = false → exec .parseStep s = .next t →
    ∃ k, k ≤ s.rxrb.content.length ∧ t.rxrb.content = s.rxrb.content.drop k ∧
      (k = 0 → s.rxrb.content = [] ∨
        (s.rxrb.content.getD 0 0 = 0x99 ∧
          (s.rxrb.content.length < 5 ∨
            s.rxrb.content.length < (s.rxrb.content.getD 1 0).toNat))) ∧
      (t.cnt.pprzOk = s.cnt.pprzOk → ∀ j, j + 1 < k → s.rxrb.content.getD j 0 ≠ 0x99)

/-- Resync (R156): a corrupted packet with no 0x99 after its first byte, then a valid packet. One PARSE_STEP
drops the leading 0x99; the next discards the rest of the corrupted packet, no more, and relays the valid
one whole. -/
def Obligations.ResyncAfterCorruptedPacket : Prop :=
  ∀ (s : State) (bad data good more : List Byte) (cka ckb : Byte), Running s → s.txBusy = false →
    2 ≤ data.length → data.length ≤ 251 →
    bad = (BitVec.ofNat 8 (data.length + 4) :: data) ++ [cka, ckb] →
    cks (0x99 :: BitVec.ofNat 8 (data.length + 4) :: data) (data.length + 4) ≠ (cka, ckb) →
    (∀ b ∈ bad, b ≠ 0x99) → 2 ≤ good.length → good.length ≤ 11 →
    s.rxrb.content = 0x99 :: bad ++ pprzEncode good ++ more →
      ∃ t u, exec .parseStep s = .next t ∧ t.out = s.out ∧
        t.rxrb.content = bad ++ pprzEncode good ++ more ∧
        t.cnt = { s.cnt with pprzBadCk := s.cnt.pprzBadCk + 1 } ∧
        exec .parseStep t = .next u ∧ u.rxrb.content = more ∧
        u.cnt = { s.cnt with
          pprzBadCk := s.cnt.pprzBadCk + 1
          pprzDiscard := s.cnt.pprzDiscard + BitVec.ofNat 32 bad.length
          pprzOk := s.cnt.pprzOk + 1 } ∧
        u.out = s.out ++
          [.txFrame ([s.cfg.localAddr, s.cfg.relayDest, 42, s.seqCtr] ++ pprzEncode good)]

/-- What an extracted packet does (R147, R148, R149; as an instruction of its own, assumption 12): the
success counter, then a DATA_RELAY frame for at most 15 bytes, RELAY_OVERSIZE for more; during a transmission TX_OVERLAP. -/
def Obligations.ExtractedPacketEffect : Prop :=
  ∀ (data : List Byte) (s : State), Running s →
    (data.length ≤ 11 → s.txBusy = false →
      ∃ t, exec (.pprzPacket data) s = .next t ∧
        SentFrame { s with cnt := { s.cnt with pprzOk := s.cnt.pprzOk + 1 } }
          ([s.cfg.localAddr, s.cfg.relayDest, 42, s.seqCtr] ++ pprzEncode data) t) ∧
    (data.length ≤ 11 → s.txBusy = true →
      exec (.pprzPacket data) s = .next { s with
        cnt := { s.cnt with pprzOk := s.cnt.pprzOk + 1, txOverlap := s.cnt.txOverlap + 1 }
        lastErr := 0x0C }) ∧
    (12 ≤ data.length →
      exec (.pprzPacket data) s = .next { s with
        cnt := { s.cnt with
          pprzOk := s.cnt.pprzOk + 1
          relayOversize := s.cnt.relayOversize + 1 }
        lastErr := 0x0B })

/-- The RANGE_REPORT telemetry message (R110; as an instruction of its own, assumption 12): its 16 bytes are
pushed into TXRB; those that do not fit are dropped and counted (R152, R62). -/
def Obligations.RangeReportMessagePushed : Prop :=
  ∀ (sender msgId src dest : Byte) (range : F64) (s : State), Running s → s.txrb.count ≤ 256 →
    ∃ (r : RingBuf) (cka ckb : Byte) (p : List Byte),
      p = [0x99, 0x10, sender, msgId, src, dest] ++ leBytes 8 range.toNat ++ [cka, ckb] ∧
      cks p 16 = (cka, ckb) ∧ Appended s.txrb r (p.take (256 - s.txrb.count)) ∧
      exec (.pprzRangeReport sender msgId src dest range) s = .next { s with
        txrb := r
        cnt := { s.cnt with
          txrbDrop := s.cnt.txrbDrop + BitVec.ofNat 32 (16 - (256 - s.txrb.count)) }
        lastErr := if s.txrb.count ≤ 240 then s.lastErr else 0x07 }

-- The router

/-- A frame with this node's own address as its source is dropped and counted, whatever its type and
destination (R182). -/
def Obligations.OwnSourceFrameDropped : Prop :=
  ∀ (type : Byte) (f : FrameBody) (s : State), Running s → f.src = s.cfg.localAddr →
    ∃ t, exec (frameInstr type f) s = .next t ∧
      Rearmed { s with cnt := { s.cnt with ownSrc := s.cnt.ownSrc + 1 }, lastErr := 0x01 } t

/-- A foreign frame other than RANGE_REPORT only re-arms (R186). -/
def Obligations.ForeignFrameIgnored : Prop :=
  ∀ (type : Byte) (f : FrameBody) (s : State), Running s → f.src ≠ s.cfg.localAddr →
    f.dest ≠ s.cfg.localAddr → f.dest ≠ 0 → f.dest ≠ 255 → type ≠ 5 →
    ∃ t, exec (frameInstr type f) s = .next t ∧ Rearmed s t

/-- UNKNOWN_TYPE (R190, R191): a broadcast frame of any type but DATA_RELAY, PING and PONG, and an own frame
of RANGE_REQUEST or of an unassigned type. -/
def Obligations.UnknownTypeCounted : Prop :=
  ∀ (type : Byte) (f : FrameBody) (s : State), Running s → f.src ≠ s.cfg.localAddr →
    type ≠ 42 → type ≠ 254 → type ≠ 255 →
    ((f.dest ≠ s.cfg.localAddr ∧ (f.dest = 0 ∨ f.dest = 255)) ∨
      (f.dest = s.cfg.localAddr ∧ type ≠ 0 ∧ type ≠ 1 ∧ type ≠ 2 ∧ type ≠ 3 ∧ type ≠ 5)) →
    ∃ t, exec (frameInstr type f) s = .next t ∧
      Rearmed { s with cnt := { s.cnt with unknownType := s.cnt.unknownType + 1 }, lastErr := 0x02 } t

/-- An own frame of no ranging type is handled exactly as if it were broadcast (R184). -/
def Obligations.OwnNonRangingAsBroadcast : Prop :=
  ∀ (type : Byte) (f : FrameBody) (s : State), f.src ≠ s.cfg.localAddr →
    f.dest = s.cfg.localAddr → s.cfg.localAddr ≠ 0 → s.cfg.localAddr ≠ 255 →
    type ≠ 0 → type ≠ 1 → type ≠ 2 → type ≠ 3 → type ≠ 5 →
    exec (frameInstr type f) s = exec (frameInstr type { f with dest := 255 }) s ∧
    exec (frameInstr type f) s = exec (frameInstr type { f with dest := 0 }) s

/-- DATA_RELAY, own or broadcast (R187): the payload bytes that fit go into TXRB in order, the others are
counted, and the receiver is re-armed. -/
def Obligations.DataRelayEnqueuesPayload : Prop :=
  ∀ (f : FrameBody) (s : State), Running s → s.txrb.count ≤ 256 → f.src ≠ s.cfg.localAddr →
    (f.dest = s.cfg.localAddr ∨ f.dest = 0 ∨ f.dest = 255) →
    ∃ r t, Appended s.txrb r (f.payload.take (256 - s.txrb.count)) ∧
      exec (.dataRelay f) s = .next t ∧
      Rearmed { s with
        txrb := r
        cnt := { s.cnt with
          txrbDrop := s.cnt.txrbDrop +
            BitVec.ofNat 32 (f.payload.length - (256 - s.txrb.count)) }
        lastErr := if f.payload.length ≤ 256 - s.txrb.count then s.lastErr else 0x07 } t

/-- PING, own or broadcast (R188): one PONG to the sender; the registry is not written. -/
def Obligations.PingAnsweredByPong : Prop :=
  ∀ (f : FrameBody) (s : State), Running s → f.src ≠ s.cfg.localAddr →
    (f.dest = s.cfg.localAddr ∨ f.dest = 0 ∨ f.dest = 255) →
    (s.txBusy = false →
      ∃ t, exec (.ping f) s = .next t ∧
        SentFrame s [s.cfg.localAddr, f.src, 255, s.seqCtr] t) ∧
    (s.txBusy = true →
      exec (.ping f) s = .next { s with
        cnt := { s.cnt with txOverlap := s.cnt.txOverlap + 1 }, lastErr := 0x0C })

/-- PONG, own or broadcast (R189, R68): the sender's registry byte gains the sender's bit, every other
registry byte is as before, and the receiver is re-armed. -/
def Obligations.PongRegistersSender : Prop :=
  ∀ (f : FrameBody) (s : State), Running s → f.src ≠ s.cfg.localAddr →
    (f.dest = s.cfg.localAddr ∨ f.dest = 0 ∨ f.dest = 255) →
    ∃ reg t, exec (.pong f) s = .next t ∧ Rearmed { s with registry := reg } t ∧
      ∀ a, Memory.read reg a =
        if a = (if s.cfg.registryMode = .exact then f.src.toNat / 8 else f.src.toNat / 32) then
          Memory.read s.registry a ||| BitVec.ofNat 8 (2 ^ (f.src.toNat % 8))
        else Memory.read s.registry a

/-- Which addresses a registered address makes known (R66, R69): under EXACT itself alone; under
LEGACY_ALIAS every address of its 32-address block with the same remainder modulo 8. -/
def Obligations.RegistryKnowsExactlyTheAliases : Prop :=
  ∀ (s : State) (a b : Byte),
    registryKnown (registrySet a s) b = true ↔
      (registryKnown s b = true ∨
        (if s.cfg.registryMode = .exact then b = a
         else b.toNat / 32 = a.toNat / 32 ∧ b.toNat % 8 = a.toNat % 8))

-- Ranging

/-- The interval is the difference modulo 2^40 (R220). -/
def Obligations.DeltaIsDifferenceModulo : Prop :=
  ∀ start stop : Timestamp, delta40 start stop = (stop - start).toNat ∧
    (delta40 start stop : Int) = ((stop.toNat : Int) - (start.toNat : Int)) % (2 ^ 40 : Int)

/-- D is never negative, and it is 0 exactly where all four intervals are 0 (R235). -/
def Obligations.DenominatorZeroIffIntervalsZero : Prop :=
  ∀ x : Session, 0 ≤ termD x ∧
    (termD x ≤ 0 ↔ tRound1 x = 0 ∧ tReply1 x = 0 ∧ tRound2 x = 0 ∧ tReply2 x = 0)

/-- REF (R236): the finite binary64 pattern nearest to the exact value, the even one where two are as near,
and +0.0 for an exact zero. What value a pattern has and which patterns are finite (`f64Value`, `f64Finite`)
is the model's reading of binary64 (its layout, PRESUMED, assumption 17). -/
def Obligations.RefRoundsOnceToNearestEven : Prop :=
  ∀ (n d : Int) (cal : F64), 0 < d → d < 2 ^ 42 → -(2 ^ 80 : Int) < n → n < 2 ^ 80 →
    f64Finite cal →
    f64Finite (refNumerics n d cal) ∧
    (refExact n d cal = 0 → refNumerics n d cal = 0) ∧
    (∀ p : F64, f64Finite p →
      |f64Value (refNumerics n d cal) - refExact n d cal| ≤ |f64Value p - refExact n d cal|) ∧
    (∀ p : F64, f64Finite p → f64Value p ≠ f64Value (refNumerics n d cal) →
      |f64Value (refNumerics n d cal) - refExact n d cal| = |f64Value p - refExact n d cal| →
      (refNumerics n d cal).getLsbD 0 = false)

/-- RANGE_POLL, own (R229): an empty RANGE_RESPONSE to the sender; the session is not reset and nothing is
captured. -/
def Obligations.PollAnsweredByResponse : Prop :=
  ∀ (f : FrameBody) (s : State), Running s → f.src ≠ s.cfg.localAddr → f.dest = s.cfg.localAddr →
    (s.txBusy = false →
      ∃ t, exec (.rangePoll f) s = .next t ∧
        SentFrame s [s.cfg.localAddr, f.src, 1, s.seqCtr] t) ∧
    (s.txBusy = true →
      exec (.rangePoll f) s = .next { s with
        cnt := { s.cnt with txOverlap := s.cnt.txOverlap + 1 }, lastErr := 0x0C })

/-- RANGE_RESPONSE, own (R230): an empty RANGE_FINAL to the sender, whether or not this node polled. -/
def Obligations.ResponseAnsweredByFinal : Prop :=
  ∀ (f : FrameBody) (s : State), Running s → f.src ≠ s.cfg.localAddr → f.dest = s.cfg.localAddr →
    (s.txBusy = false →
      ∃ t, exec (.rangeResponse f) s = .next t ∧
        SentFrame s [s.cfg.localAddr, f.src, 2, s.seqCtr] t) ∧
    (s.txBusy = true →
      exec (.rangeResponse f) s = .next { s with
        cnt := { s.cnt with txOverlap := s.cnt.txOverlap + 1 }, lastErr := 0x0C })

/-- RANGE_FINAL, own (R231): tEndRound2 takes the frame's RX time, and the three responder timestamps go to
the sender; the capture stands even where the reply is refused. -/
def Obligations.FinalAnsweredByTransfer : Prop :=
  ∀ (f : FrameBody) (s : State), Running s → f.src ≠ s.cfg.localAddr → f.dest = s.cfg.localAddr →
    (s.txBusy = false →
      ∃ t, exec (.rangeFinal f) s = .next t ∧
        SentFrame { s with session := { s.session with tEndRound2 := s.lastRxTs } }
          ([s.cfg.localAddr, f.src, 3, s.seqCtr] ++ leBytes 5 s.session.tStartReply1.toNat ++
            leBytes 5 s.session.tEndReply1.toNat ++ leBytes 5 s.lastRxTs.toNat) t) ∧
    (s.txBusy = true →
      exec (.rangeFinal f) s = .next { s with
        session := { s.session with tEndRound2 := s.lastRxTs }
        cnt := { s.cnt with txOverlap := s.cnt.txOverlap + 1 }, lastErr := 0x0C })

/-- RANGE_TRANSFER, own, whole payload, D > 0 (R232 to R234, R237, R103, R152): the three timestamps are
copied, the distance of the session is recorded and pushed as telemetry, as far as TXRB has room, and
reported to the sender; during a transmission the report is refused and all else stands. -/
def Obligations.TransferComputesAndReports : Prop :=
  ∀ (f : FrameBody) (s : State) (a b c : Timestamp) (x : Session) (d : F64),
    Running s → f.src ≠ s.cfg.localAddr → f.dest = s.cfg.localAddr →
    f.payload = leBytes 5 a.toNat ++ leBytes 5 b.toNat ++ leBytes 5 c.toNat →
    x = { s.session with tStartReply1 := a, tEndReply1 := b, tEndRound2 := c } →
    0 < termD x → d = rangeNumerics s.cfg.numerics (termN x) (termD x) s.cfg.calOffset →
    s.txrb.count ≤ 256 →
    ∃ (r : RingBuf) (m : State),
      Appended s.txrb r
        ((pprzEncode ([s.cfg.localAddr, s.cfg.pprzMsgIdRange, s.cfg.localAddr, f.src] ++
          leBytes 8 d.toNat)).take (256 - s.txrb.count)) ∧
      m = { s with
        session := x
        lastDist := d
        distValid := true
        txrb := r
        cnt := { s.cnt with
          txrbDrop := s.cnt.txrbDrop + BitVec.ofNat 32 (16 - (256 - s.txrb.count)) }
        lastErr := if s.txrb.count ≤ 240 then s.lastErr else 0x07 } ∧
      (s.txBusy = false →
        ∃ t, exec (.rangeTransfer f) s = .next t ∧
          SentFrame m ([s.cfg.localAddr, f.src, 5, s.seqCtr] ++ leBytes 8 d.toNat) t) ∧
      (s.txBusy = true →
        exec (.rangeTransfer f) s = .next { m with
          cnt := { m.cnt with txOverlap := m.cnt.txOverlap + 1 }, lastErr := 0x0C })

/-- The four intervals over the six registers, each modulo 2^40 (R233), and the two terms over the
intervals, exact, with their bounds (R234). -/
def Obligations.DistanceTermsOfSession : Prop :=
  ∀ x : Session,
    tRound1 x = (x.tStartReply2 - x.tStartRound1).toNat ∧
    tReply1 x = (x.tEndReply1 - x.tStartReply1).toNat ∧
    tReply2 x = (x.tEndReply2 - x.tStartReply2).toNat ∧
    tRound2 x = (x.tEndRound2 - x.tEndReply1).toNat ∧
    termN x = (tRound1 x : Int) * (tRound2 x : Int) - (tReply1 x : Int) * (tReply2 x : Int) ∧
    -(2 ^ 80 : Int) < termN x ∧ termN x < 2 ^ 80 ∧
    termD x = (tRound1 x : Int) + (tReply1 x : Int) + (tRound2 x : Int) + (tReply2 x : Int) ∧
    0 ≤ termD x ∧ termD x < 2 ^ 42

/-- RANGE_TRANSFER, own, where it computes nothing: a payload under 15 bytes is SHORT_PAYLOAD and copies
nothing; four intervals of 0 are DEGENERATE, after the copy (R232, R235). -/
def Obligations.TransferShortOrDegenerate : Prop :=
  ∀ (f : FrameBody) (s : State), Running s → f.src ≠ s.cfg.localAddr → f.dest = s.cfg.localAddr →
    (f.payload.length < 15 →
      ∃ t, exec (.rangeTransfer f) s = .next t ∧
        Rearmed { s with
          cnt := { s.cnt with shortPayload := s.cnt.shortPayload + 1 }, lastErr := 0x05 } t) ∧
    (∀ (a b c : Timestamp) (x : Session),
      f.payload = leBytes 5 a.toNat ++ leBytes 5 b.toNat ++ leBytes 5 c.toNat →
      x = { s.session with tStartReply1 := a, tEndReply1 := b, tEndRound2 := c } →
      tRound1 x = 0 → tReply1 x = 0 → tRound2 x = 0 → tReply2 x = 0 →
      ∃ t, exec (.rangeTransfer f) s = .next t ∧
        Rearmed { s with
          session := x
          cnt := { s.cnt with degenerate := s.cnt.degenerate + 1 }, lastErr := 0x03 } t)

/-- RANGE_REPORT, own or foreign (R238): the 8 distance bytes are pushed verbatim in a telemetry message,
or the payload is short. -/
def Obligations.ReportDeliveredToTelemetry : Prop :=
  ∀ (f : FrameBody) (s : State), Running s → f.src ≠ s.cfg.localAddr →
    (f.dest = s.cfg.localAddr ∨ (f.dest ≠ 0 ∧ f.dest ≠ 255)) →
    (f.payload.length < 8 →
      ∃ t, exec (.rangeReport f) s = .next t ∧
        Rearmed { s with
          cnt := { s.cnt with shortPayload := s.cnt.shortPayload + 1 }, lastErr := 0x05 } t) ∧
    (8 ≤ f.payload.length → s.txrb.count ≤ 256 →
      ∃ r t, Appended s.txrb r
          ((pprzEncode ([s.cfg.localAddr, s.cfg.pprzMsgIdRange, f.src, f.dest] ++
            f.payload.take 8)).take (256 - s.txrb.count)) ∧
        exec (.rangeReport f) s = .next t ∧
        Rearmed { s with
          txrb := r
          cnt := { s.cnt with
            txrbDrop := s.cnt.txrbDrop + BitVec.ofNat 32 (16 - (256 - s.txrb.count)) }
          lastErr := if s.txrb.count ≤ 240 then s.lastErr else 0x07 } t)

/-- POLL_TICK (R223): nothing on the anchor; POLL_SKIPPED during a transmission, the session kept; else the
session is cleared and an empty RANGE_POLL goes to the anchor. -/
def Obligations.PollTickPollsTheAnchor : Prop :=
  ∀ s : State, Running s →
    (s.cfg.localAddr = s.cfg.anchorAddr → exec .pollTick s = .next s) ∧
    (s.cfg.localAddr ≠ s.cfg.anchorAddr → s.txBusy = true →
      exec .pollTick s = .next { s with
        cnt := { s.cnt with pollSkipped := s.cnt.pollSkipped + 1 }, lastErr := 0x0D }) ∧
    (s.cfg.localAddr ≠ s.cfg.anchorAddr → s.txBusy = false →
      ∃ t, exec .pollTick s = .next t ∧
        SentFrame { s with session := ⟨0, 0, 0, 0, 0, 0⟩ }
          [s.cfg.localAddr, s.cfg.anchorAddr, 0, s.seqCtr] t)

/-- RADIO_TX_DONE (R224 to R228): by the type of the frame in flight the timestamps are captured, then the
transmitter is free and the receiver armed; with no frame in flight SPURIOUS_TXDONE. -/
def Obligations.TransmitDoneCapturesAndRearms : Prop :=
  ∀ (ts : Timestamp) (s : State), Running s →
    (s.txBusy = true →
      exec (.radioTxDone ts) s = .next { s with
        session :=
          if Memory.read s.lastTx.b 2 = 0 then { s.session with tStartRound1 := ts }
          else if Memory.read s.lastTx.b 2 = 1 then
            { s.session with tStartReply1 := s.lastRxTs, tEndReply1 := ts }
          else if Memory.read s.lastTx.b 2 = 2 then
            { s.session with tStartReply2 := s.lastRxTs, tEndReply2 := ts }
          else s.session
        txBusy := false
        rxArmed := true
        out := s.out ++ [.armRx] }) ∧
    (s.txBusy = false →
      exec (.radioTxDone ts) s = .next { s with
        cnt := { s.cnt with spuriousTxDone := s.cnt.spuriousTxDone + 1 }, lastErr := 0x0E })

-- RADIO_RX and the reserved opcodes

/-- RADIO_RX (R180, R93): the timestamp is latched whatever `rxArmed` is; fewer than 4 bytes are a
SHORT_FRAME; else the first 19 bytes are latched as the frame, and the frame's instruction runs. -/
def Obligations.RadioRxRunsTheFrame : Prop :=
  ∀ (ts : Timestamp) (data : List Byte) (s : State), Running s →
    (data.length < 4 →
      ∃ t, exec (.radioRx ts data) s = .next t ∧
        Rearmed { s with
          rxArmed := false
          lastRxTs := ts
          cnt := { s.cnt with shortFrame := s.cnt.shortFrame + 1 }, lastErr := 0x04 } t) ∧
    (∀ (type : Byte) (f : FrameBody), data.take 19 = [f.src, f.dest, type, f.seq] ++ f.payload →
      ∃ buf, Stored s.lastRx buf (data.take 19) ∧
        exec (.radioRx ts data) s =
          exec (frameInstr type f)
            { s with rxArmed := false, lastRxTs := ts, lastRx := buf })

/-- A reserved opcode is counted and changes nothing else (R95). -/
def Obligations.ReservedOpcodeCounted : Prop :=
  ∀ (opcode : Byte) (s : State), Running s →
    exec (.illegalOp opcode) s = .next { s with
      cnt := { s.cnt with illegalOp := s.cnt.illegalOp + 1 }, lastErr := 0x0F }

-- Rules of the whole machine

/-- In a running FRC every instruction but RESET answers a next state: no fault and no refusal (R260, R264).
-/
def Obligations.RunningOperationsComplete : Prop :=
  ∀ (i : Instr) (s : State), Running s → notReset i = true → ∃ t, exec i s = .next t

/-- Every frame transmitted carries LOCAL_ADDR and the current `seqCtr`, has 4 to 19 bytes, and `seqCtr`
advances by exactly one for each TX_FRAME (R124). Commands are only added. -/
def Obligations.SequenceCountsTransmittedFrames : Prop :=
  ∀ (i : Instr) (s t : State), notReset i = true → exec i s = .next t →
    ∃ cmds, t.out = s.out ++ cmds ∧ t.seqCtr = s.seqCtr + BitVec.ofNat 8 (txFrames cmds) ∧
      txFrames cmds ≤ 1 ∧
      ∀ bytes, .txFrame bytes ∈ cmds →
        4 ≤ bytes.length ∧ bytes.length ≤ 19 ∧ bytes.getD 0 0 = s.cfg.localAddr ∧
          bytes.getD 3 0 = s.seqCtr

/-- After a radio event the receiver is armed or a transmission is in flight (R126): RADIO_RX leaves exactly
one of the two, and RADIO_TX_DONE of a frame in flight arms the receiver. -/
def Obligations.RadioEventArmsOrTransmits : Prop :=
  (∀ (ts : Timestamp) (data : List Byte) (s t : State), Running s →
    exec (.radioRx ts data) s = .next t → t.rxArmed = !t.txBusy) ∧
  (∀ (ts : Timestamp) (s t : State), Running s → s.txBusy = true →
    exec (.radioTxDone ts) s = .next t → t.rxArmed = true ∧ t.txBusy = false)

/-- The Node Registry is never read by an operation (R196): with another registry, every instruction does
the same to all else. -/
def Obligations.RegistryNeverRead : Prop :=
  ∀ (i : Instr) (s t : State) (reg : Memory), exec i s = .next t →
    ∃ reg', exec i { s with registry := reg } = .next { t with registry := reg' }

/-- The Node Registry is written only by a PONG, delivered alone or in a RADIO_RX, and by RESET (R32, R196).
-/
def Obligations.RegistryWrittenOnlyByPong : Prop :=
  ∀ (i : Instr) (s t : State), notReset i = true → exec i s = .next t →
    t.registry ≠ s.registry →
    (∃ f, i = .pong f) ∨ (∃ ts data, i = .radioRx ts data ∧ data.getD 2 0 = 255)

/-- `rxArmed` gates nothing (R24): with it set otherwise, every instruction does the same to all else. -/
def Obligations.ReceiverFlagGatesNothing : Prop :=
  ∀ (i : Instr) (s t : State) (armed : Bool), exec i s = .next t →
    ∃ armed', exec i { s with rxArmed := armed } = .next { t with rxArmed := armed' }

/-- No rule reads the seq of a received frame (R25, R124). -/
def Obligations.ReceivedSeqNeverRead : Prop :=
  ∀ (type : Byte) (f : FrameBody) (q : Byte) (s : State),
    exec (frameInstr type f) s = exec (frameInstr type { f with seq := q }) s

/-- A lost transmit completion (R300): as long as neither RADIO_TX_DONE nor RESET comes, `txBusy` stays set,
nothing is sent, the receiver is not re-armed, and the frame in flight stays the last one sent. -/
def Obligations.LostCompletionHangs : Prop :=
  ∀ (i : Instr) (s t : State), Running s → s.txBusy = true → notReset i = true →
    (∀ ts, i ≠ .radioTxDone ts) → exec i s = .next t →
    t.txBusy = true ∧ t.seqCtr = s.seqCtr ∧ t.lastTx = s.lastTx ∧ (t.rxArmed = true → s.rxArmed = true) ∧
      ∃ cmds, t.out = s.out ++ cmds ∧ txFrames cmds = 0 ∧ Command.armRx ∉ cmds

/-- The session registers are written only by RADIO_TX_DONE, RANGE_FINAL, RANGE_TRANSFER (also inside a
RADIO_RX), POLL_TICK and RESET (R26). -/
def Obligations.SessionWriters : Prop :=
  ∀ (i : Instr) (s t : State), notReset i = true → exec i s = .next t →
    t.session ≠ s.session →
    i = .pollTick ∨ (∃ ts, i = .radioTxDone ts) ∨ (∃ f, i = .rangeFinal f) ∨
      (∃ f, i = .rangeTransfer f) ∨
      (∃ ts data, i = .radioRx ts data ∧ (data.getD 2 0 = 2 ∨ data.getD 2 0 = 3))
end

