-- ==== Sys2Proof/Laws/Codec.lean ====
section
/-! SUPPORT. Byte order, checksums and the codecs (spec/30_encoding.md, spec/40_codec.md R122). -/

namespace Sys2Proof

@[simp] theorem length_leBytes : ∀ (n v : Nat), (leBytes n v).length = n := by
  intro n
  induction n with
  | zero => intro; rfl
  | succ n ih => intro v; simp [leBytes, ih]

/-- `fromLE` undoes `LE_n` modulo 2^(8n) (R9). -/
theorem fromLE_leBytes : ∀ (n v : Nat), fromLE (leBytes n v) = v % 256 ^ n := by
  intro n
  induction n with
  | zero => intro v; simp [leBytes, fromLE, Nat.mod_one]
  | succ n ih =>
    intro v
    have hpow : 256 ^ (n + 1) = 256 * 256 ^ n := Nat.pow_succ'
    have hbyte : (BitVec.ofNat 8 v).toNat = v % 256 := BitVec.toNat_ofNat v 8
    rw [leBytes, fromLE, ih, hbyte, hpow, Nat.mod_mul]

theorem fromLE_lt : ∀ bs : List Byte, fromLE bs < 256 ^ bs.length := by
  intro bs
  induction bs with
  | nil => simp [fromLE]
  | cons b bs ih =>
    have := b.isLt
    rw [fromLE, List.length_cons, Nat.pow_succ']
    omega

/-- `LE_n` undoes `fromLE` on n bytes (R9). -/
theorem leBytes_fromLE : ∀ bs : List Byte, leBytes bs.length (fromLE bs) = bs := by
  intro bs
  induction bs with
  | nil => rfl
  | cons b bs ih =>
    have hb := b.isLt
    rw [List.length_cons, leBytes, fromLE, show (b.toNat + 256 * fromLE bs) / 256 = fromLE bs by omega,
      ih]
    congr 1
    apply BitVec.eq_of_toNat_eq
    rw [BitVec.toNat_ofNat]
    omega

theorem leBytes_ofNat40 (v : Nat) : leBytes 5 (BitVec.ofNat 40 v).toNat = leBytes 5 v := by
  have h : ∀ n v w : Nat, v % 256 ^ n = w % 256 ^ n → leBytes n v = leBytes n w := by
    intro n
    induction n with
    | zero => intros; rfl
    | succ n ih =>
      intro v w h
      rw [Nat.pow_succ', Nat.mod_mul, Nat.mod_mul] at h
      have h1 : v % 256 = w % 256 := by omega
      have h2 : v / 256 % 256 ^ n = w / 256 % 256 ^ n := by omega
      rw [leBytes, leBytes, ih _ _ h2]
      congr 1
      apply BitVec.eq_of_toNat_eq
      simpa [BitVec.toNat_ofNat] using h1
  apply h
  rw [BitVec.toNat_ofNat]
  norm_num

/-- A timestamp read back from its own bytes (R71). -/
theorem ofNat_fromLE_leBytes5 (t : Timestamp) : BitVec.ofNat 40 (fromLE (leBytes 5 t.toNat)) = t := by
  apply BitVec.eq_of_toNat_eq
  have := t.isLt
  rw [fromLE_leBytes, BitVec.toNat_ofNat]
  norm_num
  omega

/-- A binary64 pattern read back from its own bytes (R72). -/
theorem ofNat_fromLE_leBytes8 (d : F64) : BitVec.ofNat 64 (fromLE (leBytes 8 d.toNat)) = d := by
  apply BitVec.eq_of_toNat_eq
  have := d.isLt
  rw [fromLE_leBytes, BitVec.toNat_ofNat]
  norm_num
  omega

/-- Eight bytes copied verbatim are `LE_8` of the pattern they stand for (R72). -/
theorem leBytes8_of_bytes (bs : List Byte) (h : bs.length = 8) :
    leBytes 8 (BitVec.ofNat 64 (fromLE bs)).toNat = bs := by
  have hlt := fromLE_lt bs
  rw [h] at hlt
  rw [BitVec.toNat_ofNat, Nat.mod_eq_of_lt (by norm_num at hlt ⊢; exact hlt), ← h, leBytes_fromLE]

@[simp] theorem length_pprzEncode (data : List Byte) : (pprzEncode data).length = data.length + 4 := by
  simp [pprzEncode]

/-- The checksums look at offsets 1 to LEN − 3 only (R108). -/
theorem cks_append (p q : List Byte) {len : Nat} (h : len - 2 ≤ p.length) (h3 : 3 ≤ len) :
    cks (p ++ q) len = cks p len := by
  unfold cks
  rw [List.drop_append_of_le_length (by omega),
    List.take_append_of_le_length (by rw [List.length_drop]; omega)]

/-- A packet the encoder makes is valid where it stands (R150, R109). -/
theorem validPacketAt_pprzEncode (data rest : List Byte) (h : 2 ≤ data.length) :
    validPacketAt (pprzEncode data ++ rest) (data.length + 4) = true := by
  unfold validPacketAt
  simp only [Bool.and_eq_true, decide_eq_true_eq]
  refine ⟨⟨by unfold Config.pprzMinLen; omega, by simp⟩, ?_⟩
  rw [cks_append _ _ (by rw [length_pprzEncode]; omega) (by omega), pprzEncode,
    cks_append _ _ (by simp only [List.length_cons]; omega) (by omega)]
  simp only [Config.pprzOverhead, Nat.add_comm 4 data.length]
  have e1 : data.length + 4 - 2 = data.length + 2 := by omega
  have e2 : data.length + 4 - 1 = data.length + 3 := by omega
  rw [e1, e2, List.append_assoc]
  simp [List.getD_eq_getElem?_getD]

/-- The type tag and the fields of a frame read back from its encoding (R122). -/
theorem decodeFrameFields_encodeFrame (type : Byte) (f : FrameBody) (h : f.wellFormed = true) :
    decodeFrameFields (encodeFrame type f) = some (type, f) := by
  have h' : f.payload.length ≤ Config.maxPayload := by simpa [FrameBody.wellFormed] using h
  simp [decodeFrameFields, encodeFrame, h']

/-- Which byte strings are frames, and what they decode to (R98, R121). -/
theorem decodeFrameFields_some {d : List Byte} {type : Byte} {f : FrameBody}
    (h : decodeFrameFields d = some (type, f)) :
    encodeFrame type f = d ∧ f.wellFormed = true ∧ 4 ≤ d.length ∧ d.length ≤ 19 := by
  unfold decodeFrameFields at h
  split at h
  · split at h
    · next hlen =>
      cases h
      simp only [Config.maxPayload] at hlen
      refine ⟨rfl, decide_eq_true hlen, ?_, ?_⟩ <;>
        simp only [List.length_cons] <;> omega
    · cases h
  · cases h

/-- A byte string that is no frame has fewer than 4 or more than 19 bytes (R98). -/
theorem decodeFrameFields_none {d : List Byte} (h : decodeFrameFields d = none) :
    d.length < 4 ∨ 19 < d.length := by
  unfold decodeFrameFields at h
  split at h
  · split at h
    · cases h
    · next hlen =>
      simp only [Config.maxPayload] at hlen
      simp only [List.length_cons]
      omega
  · next hne =>
    left
    match d, hne with
    | [], _ => simp
    | [_], _ => simp
    | [_, _], _ => simp
    | [_, _, _], _ => simp
    | a :: b :: c :: e :: p, hne => exact absurd rfl (hne a b c e p)

theorem splitBytes_append (xs ys : List Byte) {n : Nat} (h : xs.length = n) :
    splitBytes n (xs ++ ys) = .ok (xs, ys) := by
  subst h
  simp [splitBytes]

/-- What `splitBytes` answers. -/
theorem splitBytes_ok {n : Nat} {bs xs ys : List Byte} (h : splitBytes n bs = .ok (xs, ys)) :
    bs = xs ++ ys ∧ xs.length = n := by
  unfold splitBytes at h
  split at h
  · next hn =>
    cases h
    simp [hn]
  · cases h

end Sys2Proof
end

