-- ==== Sys2Proof/Laws/Memory.lean ====
section
/-! SUPPORT. What the byte-array operations do: a read after a write, and the canonical form kept. -/

namespace Sys2Proof.Machine

@[simp] theorem Memory.read_nil (a : Nat) : Memory.read [] a = 0 := rfl

theorem Memory.read_erase (m : Memory) (a x : Nat) :
    Memory.read (Memory.erase m a) x = if x = a then 0 else Memory.read m x := by
  induction m with
  | nil => simp [Memory.erase]
  | cons c m ih =>
    obtain ⟨k, b⟩ := c
    by_cases hk : k = a
    · subst hk
      by_cases hx : x = k
      · subst hx
        simp [Memory.erase, ih]
      · simp [Memory.erase, Memory.read, ih, hx, Ne.symm hx]
    · by_cases hx : x = a
      · subst hx
        simp [Memory.erase, hk, Memory.read, ih]
      · simp [Memory.erase, hk, Memory.read, ih, hx]

theorem Memory.read_insert (m : Memory) (a x : Nat) (v : Byte) (h : Memory.read m a = 0)
    (hm : ∀ c ∈ m, c.1 ≠ a) :
    Memory.read (Memory.insert m a v) x = if x = a then v else Memory.read m x := by
  induction m with
  | nil =>
    by_cases hx : x = a
    · simp [Memory.insert, Memory.read, hx]
    · simp [Memory.insert, Memory.read, hx, Ne.symm hx, unlistedByte]
  | cons c m ih =>
    obtain ⟨k, b⟩ := c
    have hk : k ≠ a := hm (k, b) (by simp)
    have ih' := ih (by simpa [Memory.read, hk] using h) (fun c hc => hm c (by simp [hc]))
    by_cases hlt : a < k
    · by_cases hx : x = a
      · simp [Memory.insert, hlt, Memory.read, hx]
      · simp [Memory.insert, hlt, Memory.read, hx, Ne.symm hx]
    · by_cases hx : x = a
      · subst hx
        simp [Memory.insert, hlt, Memory.read, ih', hk]
      · simp [Memory.insert, hlt, Memory.read, ih', hx]

theorem Memory.erase_absent (m : Memory) (a : Nat) : ∀ c ∈ Memory.erase m a, c.1 ≠ a := by
  induction m with
  | nil => simp [Memory.erase]
  | cons c m ih =>
    obtain ⟨k, b⟩ := c
    by_cases hk : k = a
    · simpa [Memory.erase, hk] using ih
    · intro c hc
      simp only [Memory.erase, hk, if_false, List.mem_cons] at hc
      rcases hc with rfl | hc
      · exact hk
      · exact ih c hc

/-- A read after a write: the byte written at its offset, the old byte elsewhere. -/
theorem Memory.read_write (m : Memory) (a x : Nat) (v : Byte) :
    Memory.read (Memory.write m a v) x = if x = a then v else Memory.read m x := by
  unfold Memory.write
  by_cases hv : v = unlistedByte
  · rw [if_pos hv, Memory.read_erase, hv]
    rfl
  · rw [if_neg hv, Memory.read_insert _ _ _ _ (by simp [Memory.read_erase])
      (Memory.erase_absent m a), Memory.read_erase]
    split <;> rfl

@[simp] theorem Memory.read_write_same (m : Memory) (a : Nat) (v : Byte) :
    Memory.read (Memory.write m a v) a = v := by simp [Memory.read_write]

theorem Memory.read_write_other (m : Memory) {a x : Nat} (v : Byte) (h : x ≠ a) :
    Memory.read (Memory.write m a v) x = Memory.read m x := by simp [Memory.read_write, h]

theorem Memory.read_writeAll_below (vs : List Byte) : ∀ (m : Memory) (a x : Nat), x < a →
    Memory.read (Memory.writeAll m a vs) x = Memory.read m x := by
  induction vs with
  | nil => intros; rfl
  | cons v vs ih =>
    intro m a x h
    rw [Memory.writeAll, ih _ _ _ (by omega), Memory.read_write_other _ _ (by omega)]

/-- Reading what a consecutive write left. -/
theorem Memory.read_writeAll (vs : List Byte) : ∀ (m : Memory) (a x : Nat),
    Memory.read (Memory.writeAll m a vs) x =
      if a ≤ x ∧ x < a + vs.length then vs.getD (x - a) 0 else Memory.read m x := by
  induction vs with
  | nil =>
    intro m a x
    rw [if_neg (by simp)]
    rfl
  | cons v vs ih =>
    intro m a x
    rw [Memory.writeAll, ih]
    by_cases hx : x = a
    · subst hx
      simp
    · by_cases h : a ≤ x ∧ x < a + (v :: vs).length
      · rw [if_pos h, if_pos (by simp only [List.length_cons] at h; omega)]
        obtain ⟨k, hk⟩ : ∃ k, x - a = k + 1 := ⟨x - a - 1, by omega⟩
        rw [hk, show x - (a + 1) = k by omega]
        rfl
      · rw [if_neg h, if_neg (by simp only [List.length_cons] at h; omega),
          Memory.read_write_other _ _ hx]

theorem Memory.readAll_writeAll (vs : List Byte) : ∀ (m : Memory) (a : Nat),
    Memory.readAll (Memory.writeAll m a vs) a vs.length = vs := by
  induction vs with
  | nil => intros; rfl
  | cons v vs ih =>
    intro m a
    rw [List.length_cons, Memory.readAll, Memory.writeAll, ih,
      Memory.read_writeAll_below _ _ _ _ (by omega), Memory.read_write_same]

@[simp] theorem Memory.length_readAll (m : Memory) : ∀ (n a : Nat),
    (Memory.readAll m a n).length = n := by
  intro n
  induction n with
  | zero => intro; rfl
  | succ n ih => intro a; simp [Memory.readAll, ih]

theorem Memory.wfFrom_mono {size : Nat} {m : Memory} {lo lo' : Nat} (h : lo' ≤ lo)
    (hm : Memory.wfFrom size lo m = true) : Memory.wfFrom size lo' m = true := by
  cases m with
  | nil => rfl
  | cons c m =>
    obtain ⟨k, b⟩ := c
    simp only [Memory.wfFrom, Bool.and_eq_true, decide_eq_true_eq] at hm ⊢
    exact ⟨⟨⟨by omega, hm.1.1.2⟩, hm.1.2⟩, hm.2⟩

theorem Memory.wfFrom_erase {size : Nat} (a : Nat) : ∀ {m : Memory} {lo : Nat},
    Memory.wfFrom size lo m = true → Memory.wfFrom size lo (Memory.erase m a) = true := by
  intro m
  induction m with
  | nil => intro lo _; rfl
  | cons c m ih =>
    obtain ⟨k, b⟩ := c
    intro lo hm
    simp only [Memory.wfFrom, Bool.and_eq_true, decide_eq_true_eq] at hm
    by_cases hk : k = a
    · simpa [Memory.erase, hk] using ih (Memory.wfFrom_mono (by omega) hm.2)
    · simp only [Memory.erase, hk, if_false, Memory.wfFrom, Bool.and_eq_true, decide_eq_true_eq]
      exact ⟨hm.1, ih hm.2⟩

theorem Memory.wfFrom_insert {size a : Nat} {v : Byte} (ha : a < size) (hv : v ≠ 0) :
    ∀ {m : Memory} {lo : Nat}, lo ≤ a → (∀ c ∈ m, c.1 ≠ a) →
      Memory.wfFrom size lo m = true → Memory.wfFrom size lo (Memory.insert m a v) = true := by
  intro m
  induction m with
  | nil =>
    intro lo hlo _ _
    simp only [Memory.insert, Memory.wfFrom, Bool.and_eq_true, decide_eq_true_eq, and_true]
    exact ⟨⟨hlo, ha⟩, hv⟩
  | cons c m ih =>
    obtain ⟨k, b⟩ := c
    intro lo hlo hne hm
    simp only [Memory.wfFrom, Bool.and_eq_true, decide_eq_true_eq] at hm
    have hk : k ≠ a := hne (k, b) (by simp)
    by_cases hlt : a < k
    · simp only [Memory.insert, hlt, if_true, Memory.wfFrom, Bool.and_eq_true, decide_eq_true_eq]
      exact ⟨⟨⟨hlo, ha⟩, hv⟩, ⟨⟨by omega, hm.1.1.2⟩, hm.1.2⟩, hm.2⟩
    · simp only [Memory.insert, hlt, if_false, Memory.wfFrom, Bool.and_eq_true, decide_eq_true_eq]
      exact ⟨hm.1, ih (by omega) (fun c hc => hne c (by simp [hc])) hm.2⟩

/-- A write inside the array keeps its canonical form. -/
theorem Memory.wf_write {size a : Nat} {m : Memory} (v : Byte) (ha : a < size)
    (hm : Memory.wf size m = true) : Memory.wf size (Memory.write m a v) = true := by
  unfold Memory.write Memory.wf
  split
  · exact Memory.wfFrom_erase a hm
  · next hv =>
    exact Memory.wfFrom_insert ha hv (by omega) (Memory.erase_absent m a)
      (Memory.wfFrom_erase a hm)

/-- A consecutive write inside the array keeps its canonical form. -/
theorem Memory.wf_writeAll {size : Nat} : ∀ (vs : List Byte) {m : Memory} {a : Nat},
    a + vs.length ≤ size → Memory.wf size m = true →
      Memory.wf size (Memory.writeAll m a vs) = true := by
  intro vs
  induction vs with
  | nil => intro m a _ hm; exact hm
  | cons v vs ih =>
    intro m a h hm
    simp only [List.length_cons] at h
    exact ih (by omega) (Memory.wf_write v (by omega) hm)

/-- All that `MemWrite` does (R60). -/
theorem memWrite_spec {size : Nat} {m m' : Memory} {a : Nat} {vs : List Byte}
    (h : memWrite size m a vs = some m') :
    a + vs.length ≤ size ∧ m' = Memory.writeAll m a vs ∧ Memory.readAll m' a vs.length = vs ∧
      (Memory.wf size m = true → Memory.wf size m' = true) := by
  unfold memWrite at h
  split at h
  · next hle =>
    cases h
    exact ⟨hle, rfl, Memory.readAll_writeAll vs m a, Memory.wf_writeAll vs hle⟩
  · cases h

/-- Storing 19 bytes or fewer in a frame buffer succeeds, and the buffer then holds them (R29, R30). -/
theorem FrameBuf.store_spec (buf : FrameBuf) {bytes : List Byte} (h : bytes.length ≤ 19) :
    buf.store bytes = some ⟨bytes.length, Memory.writeAll buf.b 0 bytes⟩ := by
  simp [FrameBuf.store, memWrite, Config.maxFrame, h]

theorem FrameBuf.bytes_store (buf : FrameBuf) (bytes : List Byte) :
    FrameBuf.bytes ⟨bytes.length, Memory.writeAll buf.b 0 bytes⟩ = bytes :=
  Memory.readAll_writeAll bytes buf.b 0

end Sys2Proof.Machine
end

