-- ==== Sys2Proof/Machine/HostView.lean ====
section
/-! DEFINITION. What the host can read between operations (spec/10_state.md R40, R29, R31, spec/60_exceptions.md
R278): every component of R20 by name, and by numeric offset through the OPEN parameter REG_MAP. -/

namespace Sys2Proof.Machine

/-- A status bit as the host reads it. -/
def hostBit (b : Bool) : Nat := if b then 1 else 0

/-- REGISTRY_MODE as the host reads it: 0 for EXACT, 1 for LEGACY_ALIAS. DESIGN CHOICE (assumption 11). -/
def hostRegistryMode (m : RegistryMode) : Nat :=
  match m with
  | .exact => 0
  | .legacyAlias => 1

/-- RANGE_NUMERICS as the host reads it: 0 for REF, k + 1 for the k-th other function. DESIGN CHOICE
(assumption 11). -/
def hostNumerics (n : Numerics) : Nat :=
  match n with
  | .ref => 0
  | .custom k => k + 1

/-- A counter by its cause code (R34, R261); no counter has the other codes. -/
def hostCounter (c : Counters) (code : Byte) : Nat :=
  match code.toNat with
  | 0x01 => c.ownSrc.toNat
  | 0x02 => c.unknownType.toNat
  | 0x03 => c.degenerate.toNat
  | 0x04 => c.shortFrame.toNat
  | 0x05 => c.shortPayload.toNat
  | 0x06 => c.rxrbDrop.toNat
  | 0x07 => c.txrbDrop.toNat
  | 0x08 => c.pprzDiscard.toNat
  | 0x09 => c.pprzBadLen.toNat
  | 0x0A => c.pprzBadCk.toNat
  | 0x0B => c.relayOversize.toNat
  | 0x0C => c.txOverlap.toNat
  | 0x0D => c.pollSkipped.toNat
  | 0x0E => c.spuriousTxDone.toNat
  | 0x0F => c.illegalOp.toNat
  | _ => 0

/-- A host read of one component by name (R40); it changes nothing.

DESIGN CHOICE (assumption 18): of a ring the host reads `rd`, `count` and the storage byte at each of the 256
offsets, and of a frame buffer the byte at each of the 19 places, valid or not. R40 makes every component
readable; R60 says that no byte array is addressable by the environment, R61 that only a ring's content is
observable, R43 that bytes outside it are not. The content view is what these reads have in common over all
representations (`hostRead_rxrb_content`, `hostRead_txrb_content`); no claim may rest on the rest. -/
def hostRead (s : State) (r : RegName) : Nat :=
  match r with
  | .localAddr => s.cfg.localAddr.toNat
  | .anchorAddr => s.cfg.anchorAddr.toNat
  | .calOffset => s.cfg.calOffset.toNat
  | .pollIntervalUs => s.cfg.pollIntervalUs
  | .radioChannel => s.cfg.radioChannel
  | .radioPreamble => s.cfg.radioPreamble
  | .radioMode => s.cfg.radioMode
  | .pprzMsgIdRange => s.cfg.pprzMsgIdRange.toNat
  | .relayDest => s.cfg.relayDest.toNat
  | .registryMode => hostRegistryMode s.cfg.registryMode
  | .rangeNumerics => hostNumerics s.cfg.numerics
  | .halted => hostBit s.halted
  | .txBusy => hostBit s.txBusy
  | .rxArmed => hostBit s.rxArmed
  | .seqCtr => s.seqCtr.toNat
  | .tStartRound1 => s.session.tStartRound1.toNat
  | .tStartReply1 => s.session.tStartReply1.toNat
  | .tEndReply1 => s.session.tEndReply1.toNat
  | .tEndRound2 => s.session.tEndRound2.toNat
  | .tStartReply2 => s.session.tStartReply2.toNat
  | .tEndReply2 => s.session.tEndReply2.toNat
  | .lastRxTs => s.lastRxTs.toNat
  | .lastRxLen => s.lastRx.len
  | .lastRxByte k => (Memory.read s.lastRx.b k.val).toNat
  | .lastTxLen => s.lastTx.len
  | .lastTxByte k => (Memory.read s.lastTx.b k.val).toNat
  | .lastDist => s.lastDist.toNat
  | .distValid => hostBit s.distValid
  | .registryByte k => (Memory.read s.registry k.val).toNat
  | .rxrbRd => s.rxrb.rd.toNat
  | .rxrbCount => s.rxrb.count
  | .rxrbByte k => (Memory.read s.rxrb.mem k.toNat).toNat
  | .txrbRd => s.txrb.rd.toNat
  | .txrbCount => s.txrb.count
  | .txrbByte k => (Memory.read s.txrb.mem k.toNat).toNat
  | .counter code => hostCounter s.cnt code
  | .pprzOk => s.cnt.pprzOk.toNat
  | .lastErr => s.lastErr.toNat

/-- A host read by numeric register offset: what REG_MAP places there, if anything (R40, R81). -/
def hostReadAt (s : State) (offset : Nat) : Option Nat := (Config.regMap offset).map (hostRead s)

/-- `RegistryKnown(a)`, the host's reading of the Node Registry (R69). -/
def hostRegistryKnown (s : State) (a : Byte) : Bool := registryKnown s a

end Sys2Proof.Machine
end

