-- ==== Sys2Proof/Laws/RingBuf.lean ====
section
/-! SUPPORT. A ring buffer as the byte sequence it holds (spec/20_memory.md R61 to R64). -/

namespace Sys2Proof.Machine

@[simp] theorem RingBuf.length_peekAll (r : RingBuf) : ∀ (n k : Nat), (r.peekAll k n).length = n := by
  intro n
  induction n with
  | zero => intro; rfl
  | succ n ih => intro k; simp [RingBuf.peekAll, ih]

@[simp] theorem RingBuf.length_content (r : RingBuf) : r.content.length = r.count :=
  RingBuf.length_peekAll r _ _

theorem RingBuf.getElem_peekAll (r : RingBuf) : ∀ (n k i : Nat) (h : i < (r.peekAll k n).length),
    (r.peekAll k n)[i] = r.peek (k + i) := by
  intro n
  induction n with
  | zero => intro k i h; simp [RingBuf.peekAll] at h
  | succ n ih =>
    intro k i h
    cases i with
    | zero => rfl
    | succ i =>
      simp only [RingBuf.peekAll, List.getElem_cons_succ]
      rw [ih, show k + 1 + i = k + (i + 1) by omega]

theorem RingBuf.getElem_content (r : RingBuf) (i : Nat) (h : i < r.content.length) :
    r.content[i] = r.peek i := by
  simp only [RingBuf.content]
  rw [RingBuf.getElem_peekAll, Nat.zero_add]

/-- A byte at a place of the ring is that element of its content. -/
theorem RingBuf.peek_eq_getD (r : RingBuf) {k : Nat} (h : k < r.count) :
    r.peek k = r.content.getD k 0 := by
  rw [List.getD_eq_getElem _ _ (by simpa using h), RingBuf.getElem_content]

/-- The first n bytes of the ring are the first n of its content. -/
theorem RingBuf.peekAll_eq_take (r : RingBuf) {n : Nat} (h : n ≤ r.count) :
    r.peekAll 0 n = r.content.take n := by
  apply List.ext_getElem
  · simp [h]
  · intro i h1 h2
    rw [RingBuf.getElem_peekAll, List.getElem_take, RingBuf.getElem_content, Nat.zero_add]

/-- `Push` into a ring that is not full appends the byte to the content (R62). -/
theorem RingBuf.content_append (r : RingBuf) (b : Byte) (h : r.count < 256) :
    (r.append b).content = r.content ++ [b] := by
  apply List.ext_getElem
  · simp [RingBuf.append]
  · intro i h1 h2
    have hi : i < r.count + 1 := by simpa [RingBuf.append] using h1
    rw [RingBuf.getElem_content]
    have hrd := r.rd.isLt
    by_cases hlt : i < r.count
    · rw [List.getElem_append_left (by simpa using hlt), RingBuf.getElem_content]
      simp only [RingBuf.peek, RingBuf.append, Config.rbCap]
      rw [Memory.read_write_other _ _ (by omega)]
    · have : i = r.count := by omega
      subst this
      simp [RingBuf.peek, RingBuf.append]

theorem RingBuf.peek_drop1 (r : RingBuf) (k : Nat) : r.drop1.peek k = r.peek (k + 1) := by
  have hrd := r.rd.isLt
  have h1 : BitVec.toNat (1 : Byte) = 1 := rfl
  simp only [RingBuf.peek, RingBuf.drop1, Config.rbCap, BitVec.toNat_add, h1]
  congr 1
  omega

/-- `Pop` removes the oldest byte (R63). -/
theorem RingBuf.content_drop1 (r : RingBuf) : r.drop1.content = r.content.drop 1 := by
  apply List.ext_getElem
  · simp [RingBuf.drop1]
  · intro i h1 h2
    rw [RingBuf.getElem_content, List.getElem_drop, RingBuf.getElem_content, RingBuf.peek_drop1,
      Nat.add_comm]

theorem RingBuf.content_dropN (n : Nat) : ∀ r : RingBuf, (r.dropN n).content = r.content.drop n := by
  induction n with
  | zero => intro r; simp [RingBuf.dropN]
  | succ n ih =>
    intro r
    rw [RingBuf.dropN, ih, RingBuf.content_drop1, List.drop_drop, Nat.add_comm]

@[simp] theorem RingBuf.drop1_count (r : RingBuf) : r.drop1.count = r.count - 1 := rfl
@[simp] theorem RingBuf.drop1_mem (r : RingBuf) : r.drop1.mem = r.mem := rfl
@[simp] theorem RingBuf.append_count (r : RingBuf) (b : Byte) : (r.append b).count = r.count + 1 := rfl
@[simp] theorem RingBuf.append_rd (r : RingBuf) (b : Byte) : (r.append b).rd = r.rd := rfl

theorem RingBuf.dropN_count (n : Nat) : ∀ r : RingBuf, (r.dropN n).count = r.count - n := by
  induction n with
  | zero => intro r; rfl
  | succ n ih => intro r; rw [RingBuf.dropN, ih, RingBuf.drop1_count]; omega

theorem RingBuf.dropN_mem (n : Nat) : ∀ r : RingBuf, (r.dropN n).mem = r.mem := by
  induction n with
  | zero => intro r; rfl
  | succ n ih => intro r; rw [RingBuf.dropN, ih, RingBuf.drop1_mem]

/-- `Push` keeps the storage's canonical form. -/
theorem RingBuf.append_mem_wf (r : RingBuf) (b : Byte) (h : Memory.wf 256 r.mem = true) :
    Memory.wf 256 (r.append b).mem = true :=
  Memory.wf_write b (Nat.mod_lt _ (by decide)) h

@[simp] theorem RingBuf.content_empty : RingBuf.empty.content = [] := rfl

/-- A ring with a byte has that byte at the head of its content. -/
theorem RingBuf.content_cons (r : RingBuf) (h : 0 < r.count) :
    r.content = r.peek 0 :: r.drop1.content := by
  rw [RingBuf.content_drop1]
  cases hc : r.content with
  | nil =>
    have := RingBuf.length_content r
    rw [hc] at this
    simp at this
    omega
  | cons x xs =>
    have := RingBuf.peek_eq_getD r h
    rw [hc] at this
    simp [this]

/-- The storage byte k places past `rd` is the k-th byte of the content: what R61 lets be observed of a ring,
read from its raw parts. -/
theorem RingBuf.read_offset_eq_content (r : RingBuf) {k : Nat} (h : k < r.count) :
    Memory.read r.mem (r.rd + BitVec.ofNat 8 k).toNat = r.content.getD k 0 := by
  rw [← RingBuf.peek_eq_getD r h, RingBuf.peek]
  congr 1
  simp only [BitVec.toNat_add, BitVec.toNat_ofNat, Config.rbCap]
  omega

/-- The host's reads of RXRB give its content (R40, R61). -/
theorem hostRead_rxrb_content (s : State) {k : Nat} (h : k < hostRead s .rxrbCount) :
    hostRead s (.rxrbByte (BitVec.ofNat 8 (hostRead s .rxrbRd + k))) = (s.rxrb.content.getD k 0).toNat := by
  rw [← RingBuf.read_offset_eq_content _ h]
  simp [hostRead, BitVec.ofNat_add]

/-- The host's reads of TXRB give its content (R40, R61). -/
theorem hostRead_txrb_content (s : State) {k : Nat} (h : k < hostRead s .txrbCount) :
    hostRead s (.txrbByte (BitVec.ofNat 8 (hostRead s .txrbRd + k))) = (s.txrb.content.getD k 0).toNat := by
  rw [← RingBuf.read_offset_eq_content _ h]
  simp [hostRead, BitVec.ofNat_add]

end Sys2Proof.Machine
end

