-- ==== Sys2Proof/Laws/State.lean ====
section
/-! SUPPORT. One lemma for each field of State and each named update, so that no proof unfolds a record
update. -/

namespace Sys2Proof.Machine

-- emit

@[simp] theorem emit_cfg (c : Command) (s : State) :
    (emit c s).cfg = s.cfg := rfl

@[simp] theorem emit_halted (c : Command) (s : State) :
    (emit c s).halted = s.halted := rfl

@[simp] theorem emit_txBusy (c : Command) (s : State) :
    (emit c s).txBusy = s.txBusy := rfl

@[simp] theorem emit_rxArmed (c : Command) (s : State) :
    (emit c s).rxArmed = s.rxArmed := rfl

@[simp] theorem emit_seqCtr (c : Command) (s : State) :
    (emit c s).seqCtr = s.seqCtr := rfl

@[simp] theorem emit_session (c : Command) (s : State) :
    (emit c s).session = s.session := rfl

@[simp] theorem emit_lastRxTs (c : Command) (s : State) :
    (emit c s).lastRxTs = s.lastRxTs := rfl

@[simp] theorem emit_lastRx (c : Command) (s : State) :
    (emit c s).lastRx = s.lastRx := rfl

@[simp] theorem emit_lastTx (c : Command) (s : State) :
    (emit c s).lastTx = s.lastTx := rfl

@[simp] theorem emit_lastDist (c : Command) (s : State) :
    (emit c s).lastDist = s.lastDist := rfl

@[simp] theorem emit_distValid (c : Command) (s : State) :
    (emit c s).distValid = s.distValid := rfl

@[simp] theorem emit_registry (c : Command) (s : State) :
    (emit c s).registry = s.registry := rfl

@[simp] theorem emit_rxrb (c : Command) (s : State) :
    (emit c s).rxrb = s.rxrb := rfl

@[simp] theorem emit_txrb (c : Command) (s : State) :
    (emit c s).txrb = s.txrb := rfl

@[simp] theorem emit_cnt (c : Command) (s : State) :
    (emit c s).cnt = s.cnt := rfl

@[simp] theorem emit_lastErr (c : Command) (s : State) :
    (emit c s).lastErr = s.lastErr := rfl

@[simp] theorem emit_started (c : Command) (s : State) :
    (emit c s).started = s.started := rfl

@[simp] theorem emit_envCfg (c : Command) (s : State) :
    (emit c s).envCfg = s.envCfg := rfl

@[simp] theorem emit_input (c : Command) (s : State) :
    (emit c s).input = s.input := rfl

@[simp] theorem emit_held (c : Command) (s : State) :
    (emit c s).held = s.held := rfl

@[simp] theorem emit_out (c : Command) (s : State) :
    (emit c s).out = s.out ++ [c] := rfl


-- count

@[simp] theorem count_cfg (e : Cause) (s : State) :
    (count e s).cfg = s.cfg := rfl

@[simp] theorem count_halted (e : Cause) (s : State) :
    (count e s).halted = s.halted := rfl

@[simp] theorem count_txBusy (e : Cause) (s : State) :
    (count e s).txBusy = s.txBusy := rfl

@[simp] theorem count_rxArmed (e : Cause) (s : State) :
    (count e s).rxArmed = s.rxArmed := rfl

@[simp] theorem count_seqCtr (e : Cause) (s : State) :
    (count e s).seqCtr = s.seqCtr := rfl

@[simp] theorem count_session (e : Cause) (s : State) :
    (count e s).session = s.session := rfl

@[simp] theorem count_lastRxTs (e : Cause) (s : State) :
    (count e s).lastRxTs = s.lastRxTs := rfl

@[simp] theorem count_lastRx (e : Cause) (s : State) :
    (count e s).lastRx = s.lastRx := rfl

@[simp] theorem count_lastTx (e : Cause) (s : State) :
    (count e s).lastTx = s.lastTx := rfl

@[simp] theorem count_lastDist (e : Cause) (s : State) :
    (count e s).lastDist = s.lastDist := rfl

@[simp] theorem count_distValid (e : Cause) (s : State) :
    (count e s).distValid = s.distValid := rfl

@[simp] theorem count_registry (e : Cause) (s : State) :
    (count e s).registry = s.registry := rfl

@[simp] theorem count_rxrb (e : Cause) (s : State) :
    (count e s).rxrb = s.rxrb := rfl

@[simp] theorem count_txrb (e : Cause) (s : State) :
    (count e s).txrb = s.txrb := rfl

@[simp] theorem count_cnt (e : Cause) (s : State) :
    (count e s).cnt = s.cnt.bump e := rfl

@[simp] theorem count_lastErr (e : Cause) (s : State) :
    (count e s).lastErr = e.code := rfl

@[simp] theorem count_started (e : Cause) (s : State) :
    (count e s).started = s.started := rfl

@[simp] theorem count_envCfg (e : Cause) (s : State) :
    (count e s).envCfg = s.envCfg := rfl

@[simp] theorem count_input (e : Cause) (s : State) :
    (count e s).input = s.input := rfl

@[simp] theorem count_held (e : Cause) (s : State) :
    (count e s).held = s.held := rfl

@[simp] theorem count_out (e : Cause) (s : State) :
    (count e s).out = s.out := rfl


-- haltFatal

@[simp] theorem haltFatal_cfg (s : State) :
    (haltFatal s).cfg = s.cfg := rfl

@[simp] theorem haltFatal_halted (s : State) :
    (haltFatal s).halted = true := rfl

@[simp] theorem haltFatal_txBusy (s : State) :
    (haltFatal s).txBusy = s.txBusy := rfl

@[simp] theorem haltFatal_rxArmed (s : State) :
    (haltFatal s).rxArmed = s.rxArmed := rfl

@[simp] theorem haltFatal_seqCtr (s : State) :
    (haltFatal s).seqCtr = s.seqCtr := rfl

@[simp] theorem haltFatal_session (s : State) :
    (haltFatal s).session = s.session := rfl

@[simp] theorem haltFatal_lastRxTs (s : State) :
    (haltFatal s).lastRxTs = s.lastRxTs := rfl

@[simp] theorem haltFatal_lastRx (s : State) :
    (haltFatal s).lastRx = s.lastRx := rfl

@[simp] theorem haltFatal_lastTx (s : State) :
    (haltFatal s).lastTx = s.lastTx := rfl

@[simp] theorem haltFatal_lastDist (s : State) :
    (haltFatal s).lastDist = s.lastDist := rfl

@[simp] theorem haltFatal_distValid (s : State) :
    (haltFatal s).distValid = s.distValid := rfl

@[simp] theorem haltFatal_registry (s : State) :
    (haltFatal s).registry = s.registry := rfl

@[simp] theorem haltFatal_rxrb (s : State) :
    (haltFatal s).rxrb = s.rxrb := rfl

@[simp] theorem haltFatal_txrb (s : State) :
    (haltFatal s).txrb = s.txrb := rfl

@[simp] theorem haltFatal_cnt (s : State) :
    (haltFatal s).cnt = s.cnt := rfl

@[simp] theorem haltFatal_lastErr (s : State) :
    (haltFatal s).lastErr = halInitFailCode := rfl

@[simp] theorem haltFatal_started (s : State) :
    (haltFatal s).started = s.started := rfl

@[simp] theorem haltFatal_envCfg (s : State) :
    (haltFatal s).envCfg = s.envCfg := rfl

@[simp] theorem haltFatal_input (s : State) :
    (haltFatal s).input = s.input := rfl

@[simp] theorem haltFatal_held (s : State) :
    (haltFatal s).held = s.held := rfl

@[simp] theorem haltFatal_out (s : State) :
    (haltFatal s).out = s.out := rfl


-- popRx

@[simp] theorem popRx_cfg (s : State) :
    (popRx s).cfg = s.cfg := rfl

@[simp] theorem popRx_halted (s : State) :
    (popRx s).halted = s.halted := rfl

@[simp] theorem popRx_txBusy (s : State) :
    (popRx s).txBusy = s.txBusy := rfl

@[simp] theorem popRx_rxArmed (s : State) :
    (popRx s).rxArmed = s.rxArmed := rfl

@[simp] theorem popRx_seqCtr (s : State) :
    (popRx s).seqCtr = s.seqCtr := rfl

@[simp] theorem popRx_session (s : State) :
    (popRx s).session = s.session := rfl

@[simp] theorem popRx_lastRxTs (s : State) :
    (popRx s).lastRxTs = s.lastRxTs := rfl

@[simp] theorem popRx_lastRx (s : State) :
    (popRx s).lastRx = s.lastRx := rfl

@[simp] theorem popRx_lastTx (s : State) :
    (popRx s).lastTx = s.lastTx := rfl

@[simp] theorem popRx_lastDist (s : State) :
    (popRx s).lastDist = s.lastDist := rfl

@[simp] theorem popRx_distValid (s : State) :
    (popRx s).distValid = s.distValid := rfl

@[simp] theorem popRx_registry (s : State) :
    (popRx s).registry = s.registry := rfl

@[simp] theorem popRx_rxrb (s : State) :
    (popRx s).rxrb = s.rxrb.drop1 := rfl

@[simp] theorem popRx_txrb (s : State) :
    (popRx s).txrb = s.txrb := rfl

@[simp] theorem popRx_cnt (s : State) :
    (popRx s).cnt = s.cnt := rfl

@[simp] theorem popRx_lastErr (s : State) :
    (popRx s).lastErr = s.lastErr := rfl

@[simp] theorem popRx_started (s : State) :
    (popRx s).started = s.started := rfl

@[simp] theorem popRx_envCfg (s : State) :
    (popRx s).envCfg = s.envCfg := rfl

@[simp] theorem popRx_input (s : State) :
    (popRx s).input = s.input := rfl

@[simp] theorem popRx_held (s : State) :
    (popRx s).held = s.held := rfl

@[simp] theorem popRx_out (s : State) :
    (popRx s).out = s.out := rfl


-- registrySet

@[simp] theorem registrySet_cfg (a : Byte) (s : State) :
    (registrySet a s).cfg = s.cfg := rfl

@[simp] theorem registrySet_halted (a : Byte) (s : State) :
    (registrySet a s).halted = s.halted := rfl

@[simp] theorem registrySet_txBusy (a : Byte) (s : State) :
    (registrySet a s).txBusy = s.txBusy := rfl

@[simp] theorem registrySet_rxArmed (a : Byte) (s : State) :
    (registrySet a s).rxArmed = s.rxArmed := rfl

@[simp] theorem registrySet_seqCtr (a : Byte) (s : State) :
    (registrySet a s).seqCtr = s.seqCtr := rfl

@[simp] theorem registrySet_session (a : Byte) (s : State) :
    (registrySet a s).session = s.session := rfl

@[simp] theorem registrySet_lastRxTs (a : Byte) (s : State) :
    (registrySet a s).lastRxTs = s.lastRxTs := rfl

@[simp] theorem registrySet_lastRx (a : Byte) (s : State) :
    (registrySet a s).lastRx = s.lastRx := rfl

@[simp] theorem registrySet_lastTx (a : Byte) (s : State) :
    (registrySet a s).lastTx = s.lastTx := rfl

@[simp] theorem registrySet_lastDist (a : Byte) (s : State) :
    (registrySet a s).lastDist = s.lastDist := rfl

@[simp] theorem registrySet_distValid (a : Byte) (s : State) :
    (registrySet a s).distValid = s.distValid := rfl

@[simp] theorem registrySet_registry (a : Byte) (s : State) :
    (registrySet a s).registry = registrySetBit s.cfg.registryMode s.registry a := rfl

@[simp] theorem registrySet_rxrb (a : Byte) (s : State) :
    (registrySet a s).rxrb = s.rxrb := rfl

@[simp] theorem registrySet_txrb (a : Byte) (s : State) :
    (registrySet a s).txrb = s.txrb := rfl

@[simp] theorem registrySet_cnt (a : Byte) (s : State) :
    (registrySet a s).cnt = s.cnt := rfl

@[simp] theorem registrySet_lastErr (a : Byte) (s : State) :
    (registrySet a s).lastErr = s.lastErr := rfl

@[simp] theorem registrySet_started (a : Byte) (s : State) :
    (registrySet a s).started = s.started := rfl

@[simp] theorem registrySet_envCfg (a : Byte) (s : State) :
    (registrySet a s).envCfg = s.envCfg := rfl

@[simp] theorem registrySet_input (a : Byte) (s : State) :
    (registrySet a s).input = s.input := rfl

@[simp] theorem registrySet_held (a : Byte) (s : State) :
    (registrySet a s).held = s.held := rfl

@[simp] theorem registrySet_out (a : Byte) (s : State) :
    (registrySet a s).out = s.out := rfl


-- transmit

@[simp] theorem transmit_cfg (f : List Byte) (b : FrameBuf) (s : State) :
    (transmit f b s).cfg = s.cfg := rfl

@[simp] theorem transmit_halted (f : List Byte) (b : FrameBuf) (s : State) :
    (transmit f b s).halted = s.halted := rfl

@[simp] theorem transmit_txBusy (f : List Byte) (b : FrameBuf) (s : State) :
    (transmit f b s).txBusy = true := rfl

@[simp] theorem transmit_rxArmed (f : List Byte) (b : FrameBuf) (s : State) :
    (transmit f b s).rxArmed = false := rfl

@[simp] theorem transmit_seqCtr (f : List Byte) (b : FrameBuf) (s : State) :
    (transmit f b s).seqCtr = s.seqCtr + 1 := rfl

@[simp] theorem transmit_session (f : List Byte) (b : FrameBuf) (s : State) :
    (transmit f b s).session = s.session := rfl

@[simp] theorem transmit_lastRxTs (f : List Byte) (b : FrameBuf) (s : State) :
    (transmit f b s).lastRxTs = s.lastRxTs := rfl

@[simp] theorem transmit_lastRx (f : List Byte) (b : FrameBuf) (s : State) :
    (transmit f b s).lastRx = s.lastRx := rfl

@[simp] theorem transmit_lastTx (f : List Byte) (b : FrameBuf) (s : State) :
    (transmit f b s).lastTx = b := rfl

@[simp] theorem transmit_lastDist (f : List Byte) (b : FrameBuf) (s : State) :
    (transmit f b s).lastDist = s.lastDist := rfl

@[simp] theorem transmit_distValid (f : List Byte) (b : FrameBuf) (s : State) :
    (transmit f b s).distValid = s.distValid := rfl

@[simp] theorem transmit_registry (f : List Byte) (b : FrameBuf) (s : State) :
    (transmit f b s).registry = s.registry := rfl

@[simp] theorem transmit_rxrb (f : List Byte) (b : FrameBuf) (s : State) :
    (transmit f b s).rxrb = s.rxrb := rfl

@[simp] theorem transmit_txrb (f : List Byte) (b : FrameBuf) (s : State) :
    (transmit f b s).txrb = s.txrb := rfl

@[simp] theorem transmit_cnt (f : List Byte) (b : FrameBuf) (s : State) :
    (transmit f b s).cnt = s.cnt := rfl

@[simp] theorem transmit_lastErr (f : List Byte) (b : FrameBuf) (s : State) :
    (transmit f b s).lastErr = s.lastErr := rfl

@[simp] theorem transmit_started (f : List Byte) (b : FrameBuf) (s : State) :
    (transmit f b s).started = s.started := rfl

@[simp] theorem transmit_envCfg (f : List Byte) (b : FrameBuf) (s : State) :
    (transmit f b s).envCfg = s.envCfg := rfl

@[simp] theorem transmit_input (f : List Byte) (b : FrameBuf) (s : State) :
    (transmit f b s).input = s.input := rfl

@[simp] theorem transmit_held (f : List Byte) (b : FrameBuf) (s : State) :
    (transmit f b s).held = s.held := rfl

@[simp] theorem transmit_out (f : List Byte) (b : FrameBuf) (s : State) :
    (transmit f b s).out = s.out ++ [.txFrame f] := rfl


-- captureFinal

@[simp] theorem captureFinal_cfg (s : State) :
    (captureFinal s).cfg = s.cfg := rfl

@[simp] theorem captureFinal_halted (s : State) :
    (captureFinal s).halted = s.halted := rfl

@[simp] theorem captureFinal_txBusy (s : State) :
    (captureFinal s).txBusy = s.txBusy := rfl

@[simp] theorem captureFinal_rxArmed (s : State) :
    (captureFinal s).rxArmed = s.rxArmed := rfl

@[simp] theorem captureFinal_seqCtr (s : State) :
    (captureFinal s).seqCtr = s.seqCtr := rfl

@[simp] theorem captureFinal_lastRxTs (s : State) :
    (captureFinal s).lastRxTs = s.lastRxTs := rfl

@[simp] theorem captureFinal_lastRx (s : State) :
    (captureFinal s).lastRx = s.lastRx := rfl

@[simp] theorem captureFinal_lastTx (s : State) :
    (captureFinal s).lastTx = s.lastTx := rfl

@[simp] theorem captureFinal_lastDist (s : State) :
    (captureFinal s).lastDist = s.lastDist := rfl

@[simp] theorem captureFinal_distValid (s : State) :
    (captureFinal s).distValid = s.distValid := rfl

@[simp] theorem captureFinal_registry (s : State) :
    (captureFinal s).registry = s.registry := rfl

@[simp] theorem captureFinal_rxrb (s : State) :
    (captureFinal s).rxrb = s.rxrb := rfl

@[simp] theorem captureFinal_txrb (s : State) :
    (captureFinal s).txrb = s.txrb := rfl

@[simp] theorem captureFinal_cnt (s : State) :
    (captureFinal s).cnt = s.cnt := rfl

@[simp] theorem captureFinal_lastErr (s : State) :
    (captureFinal s).lastErr = s.lastErr := rfl

@[simp] theorem captureFinal_started (s : State) :
    (captureFinal s).started = s.started := rfl

@[simp] theorem captureFinal_envCfg (s : State) :
    (captureFinal s).envCfg = s.envCfg := rfl

@[simp] theorem captureFinal_input (s : State) :
    (captureFinal s).input = s.input := rfl

@[simp] theorem captureFinal_held (s : State) :
    (captureFinal s).held = s.held := rfl

@[simp] theorem captureFinal_out (s : State) :
    (captureFinal s).out = s.out := rfl


-- captureTransfer

@[simp] theorem captureTransfer_cfg (p : List Byte) (s : State) :
    (captureTransfer p s).cfg = s.cfg := rfl

@[simp] theorem captureTransfer_halted (p : List Byte) (s : State) :
    (captureTransfer p s).halted = s.halted := rfl

@[simp] theorem captureTransfer_txBusy (p : List Byte) (s : State) :
    (captureTransfer p s).txBusy = s.txBusy := rfl

@[simp] theorem captureTransfer_rxArmed (p : List Byte) (s : State) :
    (captureTransfer p s).rxArmed = s.rxArmed := rfl

@[simp] theorem captureTransfer_seqCtr (p : List Byte) (s : State) :
    (captureTransfer p s).seqCtr = s.seqCtr := rfl

@[simp] theorem captureTransfer_lastRxTs (p : List Byte) (s : State) :
    (captureTransfer p s).lastRxTs = s.lastRxTs := rfl

@[simp] theorem captureTransfer_lastRx (p : List Byte) (s : State) :
    (captureTransfer p s).lastRx = s.lastRx := rfl

@[simp] theorem captureTransfer_lastTx (p : List Byte) (s : State) :
    (captureTransfer p s).lastTx = s.lastTx := rfl

@[simp] theorem captureTransfer_lastDist (p : List Byte) (s : State) :
    (captureTransfer p s).lastDist = s.lastDist := rfl

@[simp] theorem captureTransfer_distValid (p : List Byte) (s : State) :
    (captureTransfer p s).distValid = s.distValid := rfl

@[simp] theorem captureTransfer_registry (p : List Byte) (s : State) :
    (captureTransfer p s).registry = s.registry := rfl

@[simp] theorem captureTransfer_rxrb (p : List Byte) (s : State) :
    (captureTransfer p s).rxrb = s.rxrb := rfl

@[simp] theorem captureTransfer_txrb (p : List Byte) (s : State) :
    (captureTransfer p s).txrb = s.txrb := rfl

@[simp] theorem captureTransfer_cnt (p : List Byte) (s : State) :
    (captureTransfer p s).cnt = s.cnt := rfl

@[simp] theorem captureTransfer_lastErr (p : List Byte) (s : State) :
    (captureTransfer p s).lastErr = s.lastErr := rfl

@[simp] theorem captureTransfer_started (p : List Byte) (s : State) :
    (captureTransfer p s).started = s.started := rfl

@[simp] theorem captureTransfer_envCfg (p : List Byte) (s : State) :
    (captureTransfer p s).envCfg = s.envCfg := rfl

@[simp] theorem captureTransfer_input (p : List Byte) (s : State) :
    (captureTransfer p s).input = s.input := rfl

@[simp] theorem captureTransfer_held (p : List Byte) (s : State) :
    (captureTransfer p s).held = s.held := rfl

@[simp] theorem captureTransfer_out (p : List Byte) (s : State) :
    (captureTransfer p s).out = s.out := rfl


-- clearSession

@[simp] theorem clearSession_cfg (s : State) :
    (clearSession s).cfg = s.cfg := rfl

@[simp] theorem clearSession_halted (s : State) :
    (clearSession s).halted = s.halted := rfl

@[simp] theorem clearSession_txBusy (s : State) :
    (clearSession s).txBusy = s.txBusy := rfl

@[simp] theorem clearSession_rxArmed (s : State) :
    (clearSession s).rxArmed = s.rxArmed := rfl

@[simp] theorem clearSession_seqCtr (s : State) :
    (clearSession s).seqCtr = s.seqCtr := rfl

@[simp] theorem clearSession_session (s : State) :
    (clearSession s).session = Session.zero := rfl

@[simp] theorem clearSession_lastRxTs (s : State) :
    (clearSession s).lastRxTs = s.lastRxTs := rfl

@[simp] theorem clearSession_lastRx (s : State) :
    (clearSession s).lastRx = s.lastRx := rfl

@[simp] theorem clearSession_lastTx (s : State) :
    (clearSession s).lastTx = s.lastTx := rfl

@[simp] theorem clearSession_lastDist (s : State) :
    (clearSession s).lastDist = s.lastDist := rfl

@[simp] theorem clearSession_distValid (s : State) :
    (clearSession s).distValid = s.distValid := rfl

@[simp] theorem clearSession_registry (s : State) :
    (clearSession s).registry = s.registry := rfl

@[simp] theorem clearSession_rxrb (s : State) :
    (clearSession s).rxrb = s.rxrb := rfl

@[simp] theorem clearSession_txrb (s : State) :
    (clearSession s).txrb = s.txrb := rfl

@[simp] theorem clearSession_cnt (s : State) :
    (clearSession s).cnt = s.cnt := rfl

@[simp] theorem clearSession_lastErr (s : State) :
    (clearSession s).lastErr = s.lastErr := rfl

@[simp] theorem clearSession_started (s : State) :
    (clearSession s).started = s.started := rfl

@[simp] theorem clearSession_envCfg (s : State) :
    (clearSession s).envCfg = s.envCfg := rfl

@[simp] theorem clearSession_input (s : State) :
    (clearSession s).input = s.input := rfl

@[simp] theorem clearSession_held (s : State) :
    (clearSession s).held = s.held := rfl

@[simp] theorem clearSession_out (s : State) :
    (clearSession s).out = s.out := rfl


-- latchRx

@[simp] theorem latchRx_cfg (ts : Timestamp) (s : State) :
    (latchRx ts s).cfg = s.cfg := rfl

@[simp] theorem latchRx_halted (ts : Timestamp) (s : State) :
    (latchRx ts s).halted = s.halted := rfl

@[simp] theorem latchRx_txBusy (ts : Timestamp) (s : State) :
    (latchRx ts s).txBusy = s.txBusy := rfl

@[simp] theorem latchRx_rxArmed (ts : Timestamp) (s : State) :
    (latchRx ts s).rxArmed = false := rfl

@[simp] theorem latchRx_seqCtr (ts : Timestamp) (s : State) :
    (latchRx ts s).seqCtr = s.seqCtr := rfl

@[simp] theorem latchRx_session (ts : Timestamp) (s : State) :
    (latchRx ts s).session = s.session := rfl

@[simp] theorem latchRx_lastRxTs (ts : Timestamp) (s : State) :
    (latchRx ts s).lastRxTs = ts := rfl

@[simp] theorem latchRx_lastRx (ts : Timestamp) (s : State) :
    (latchRx ts s).lastRx = s.lastRx := rfl

@[simp] theorem latchRx_lastTx (ts : Timestamp) (s : State) :
    (latchRx ts s).lastTx = s.lastTx := rfl

@[simp] theorem latchRx_lastDist (ts : Timestamp) (s : State) :
    (latchRx ts s).lastDist = s.lastDist := rfl

@[simp] theorem latchRx_distValid (ts : Timestamp) (s : State) :
    (latchRx ts s).distValid = s.distValid := rfl

@[simp] theorem latchRx_registry (ts : Timestamp) (s : State) :
    (latchRx ts s).registry = s.registry := rfl

@[simp] theorem latchRx_rxrb (ts : Timestamp) (s : State) :
    (latchRx ts s).rxrb = s.rxrb := rfl

@[simp] theorem latchRx_txrb (ts : Timestamp) (s : State) :
    (latchRx ts s).txrb = s.txrb := rfl

@[simp] theorem latchRx_cnt (ts : Timestamp) (s : State) :
    (latchRx ts s).cnt = s.cnt := rfl

@[simp] theorem latchRx_lastErr (ts : Timestamp) (s : State) :
    (latchRx ts s).lastErr = s.lastErr := rfl

@[simp] theorem latchRx_started (ts : Timestamp) (s : State) :
    (latchRx ts s).started = s.started := rfl

@[simp] theorem latchRx_envCfg (ts : Timestamp) (s : State) :
    (latchRx ts s).envCfg = s.envCfg := rfl

@[simp] theorem latchRx_input (ts : Timestamp) (s : State) :
    (latchRx ts s).input = s.input := rfl

@[simp] theorem latchRx_held (ts : Timestamp) (s : State) :
    (latchRx ts s).held = s.held := rfl

@[simp] theorem latchRx_out (ts : Timestamp) (s : State) :
    (latchRx ts s).out = s.out := rfl


-- armRx

@[simp] theorem armRx_cfg (s : State) :
    (armRx s).cfg = s.cfg := by
  unfold armRx
  split <;> rfl

@[simp] theorem armRx_halted (s : State) :
    (armRx s).halted = s.halted := by
  unfold armRx
  split <;> rfl

@[simp] theorem armRx_txBusy (s : State) :
    (armRx s).txBusy = s.txBusy := by
  unfold armRx
  split <;> rfl

@[simp] theorem armRx_seqCtr (s : State) :
    (armRx s).seqCtr = s.seqCtr := by
  unfold armRx
  split <;> rfl

@[simp] theorem armRx_session (s : State) :
    (armRx s).session = s.session := by
  unfold armRx
  split <;> rfl

@[simp] theorem armRx_lastRxTs (s : State) :
    (armRx s).lastRxTs = s.lastRxTs := by
  unfold armRx
  split <;> rfl

@[simp] theorem armRx_lastRx (s : State) :
    (armRx s).lastRx = s.lastRx := by
  unfold armRx
  split <;> rfl

@[simp] theorem armRx_lastTx (s : State) :
    (armRx s).lastTx = s.lastTx := by
  unfold armRx
  split <;> rfl

@[simp] theorem armRx_lastDist (s : State) :
    (armRx s).lastDist = s.lastDist := by
  unfold armRx
  split <;> rfl

@[simp] theorem armRx_distValid (s : State) :
    (armRx s).distValid = s.distValid := by
  unfold armRx
  split <;> rfl

@[simp] theorem armRx_registry (s : State) :
    (armRx s).registry = s.registry := by
  unfold armRx
  split <;> rfl

@[simp] theorem armRx_rxrb (s : State) :
    (armRx s).rxrb = s.rxrb := by
  unfold armRx
  split <;> rfl

@[simp] theorem armRx_txrb (s : State) :
    (armRx s).txrb = s.txrb := by
  unfold armRx
  split <;> rfl

@[simp] theorem armRx_cnt (s : State) :
    (armRx s).cnt = s.cnt := by
  unfold armRx
  split <;> rfl

@[simp] theorem armRx_lastErr (s : State) :
    (armRx s).lastErr = s.lastErr := by
  unfold armRx
  split <;> rfl

@[simp] theorem armRx_started (s : State) :
    (armRx s).started = s.started := by
  unfold armRx
  split <;> rfl

@[simp] theorem armRx_envCfg (s : State) :
    (armRx s).envCfg = s.envCfg := by
  unfold armRx
  split <;> rfl

@[simp] theorem armRx_input (s : State) :
    (armRx s).input = s.input := by
  unfold armRx
  split <;> rfl

@[simp] theorem armRx_held (s : State) :
    (armRx s).held = s.held := by
  unfold armRx
  split <;> rfl


-- pushRx

@[simp] theorem pushRx_cfg (b : Byte) (s : State) :
    (pushRx b s).cfg = s.cfg := by
  unfold pushRx
  split <;> rfl

@[simp] theorem pushRx_halted (b : Byte) (s : State) :
    (pushRx b s).halted = s.halted := by
  unfold pushRx
  split <;> rfl

@[simp] theorem pushRx_txBusy (b : Byte) (s : State) :
    (pushRx b s).txBusy = s.txBusy := by
  unfold pushRx
  split <;> rfl

@[simp] theorem pushRx_rxArmed (b : Byte) (s : State) :
    (pushRx b s).rxArmed = s.rxArmed := by
  unfold pushRx
  split <;> rfl

@[simp] theorem pushRx_seqCtr (b : Byte) (s : State) :
    (pushRx b s).seqCtr = s.seqCtr := by
  unfold pushRx
  split <;> rfl

@[simp] theorem pushRx_session (b : Byte) (s : State) :
    (pushRx b s).session = s.session := by
  unfold pushRx
  split <;> rfl

@[simp] theorem pushRx_lastRxTs (b : Byte) (s : State) :
    (pushRx b s).lastRxTs = s.lastRxTs := by
  unfold pushRx
  split <;> rfl

@[simp] theorem pushRx_lastRx (b : Byte) (s : State) :
    (pushRx b s).lastRx = s.lastRx := by
  unfold pushRx
  split <;> rfl

@[simp] theorem pushRx_lastTx (b : Byte) (s : State) :
    (pushRx b s).lastTx = s.lastTx := by
  unfold pushRx
  split <;> rfl

@[simp] theorem pushRx_lastDist (b : Byte) (s : State) :
    (pushRx b s).lastDist = s.lastDist := by
  unfold pushRx
  split <;> rfl

@[simp] theorem pushRx_distValid (b : Byte) (s : State) :
    (pushRx b s).distValid = s.distValid := by
  unfold pushRx
  split <;> rfl

@[simp] theorem pushRx_registry (b : Byte) (s : State) :
    (pushRx b s).registry = s.registry := by
  unfold pushRx
  split <;> rfl

@[simp] theorem pushRx_txrb (b : Byte) (s : State) :
    (pushRx b s).txrb = s.txrb := by
  unfold pushRx
  split <;> rfl

@[simp] theorem pushRx_started (b : Byte) (s : State) :
    (pushRx b s).started = s.started := by
  unfold pushRx
  split <;> rfl

@[simp] theorem pushRx_envCfg (b : Byte) (s : State) :
    (pushRx b s).envCfg = s.envCfg := by
  unfold pushRx
  split <;> rfl

@[simp] theorem pushRx_input (b : Byte) (s : State) :
    (pushRx b s).input = s.input := by
  unfold pushRx
  split <;> rfl

@[simp] theorem pushRx_held (b : Byte) (s : State) :
    (pushRx b s).held = s.held := by
  unfold pushRx
  split <;> rfl

@[simp] theorem pushRx_out (b : Byte) (s : State) :
    (pushRx b s).out = s.out := by
  unfold pushRx
  split <;> rfl


-- pushTx

@[simp] theorem pushTx_cfg (b : Byte) (s : State) :
    (pushTx b s).cfg = s.cfg := by
  unfold pushTx
  split <;> rfl

@[simp] theorem pushTx_halted (b : Byte) (s : State) :
    (pushTx b s).halted = s.halted := by
  unfold pushTx
  split <;> rfl

@[simp] theorem pushTx_txBusy (b : Byte) (s : State) :
    (pushTx b s).txBusy = s.txBusy := by
  unfold pushTx
  split <;> rfl

@[simp] theorem pushTx_rxArmed (b : Byte) (s : State) :
    (pushTx b s).rxArmed = s.rxArmed := by
  unfold pushTx
  split <;> rfl

@[simp] theorem pushTx_seqCtr (b : Byte) (s : State) :
    (pushTx b s).seqCtr = s.seqCtr := by
  unfold pushTx
  split <;> rfl

@[simp] theorem pushTx_session (b : Byte) (s : State) :
    (pushTx b s).session = s.session := by
  unfold pushTx
  split <;> rfl

@[simp] theorem pushTx_lastRxTs (b : Byte) (s : State) :
    (pushTx b s).lastRxTs = s.lastRxTs := by
  unfold pushTx
  split <;> rfl

@[simp] theorem pushTx_lastRx (b : Byte) (s : State) :
    (pushTx b s).lastRx = s.lastRx := by
  unfold pushTx
  split <;> rfl

@[simp] theorem pushTx_lastTx (b : Byte) (s : State) :
    (pushTx b s).lastTx = s.lastTx := by
  unfold pushTx
  split <;> rfl

@[simp] theorem pushTx_lastDist (b : Byte) (s : State) :
    (pushTx b s).lastDist = s.lastDist := by
  unfold pushTx
  split <;> rfl

@[simp] theorem pushTx_distValid (b : Byte) (s : State) :
    (pushTx b s).distValid = s.distValid := by
  unfold pushTx
  split <;> rfl

@[simp] theorem pushTx_registry (b : Byte) (s : State) :
    (pushTx b s).registry = s.registry := by
  unfold pushTx
  split <;> rfl

@[simp] theorem pushTx_rxrb (b : Byte) (s : State) :
    (pushTx b s).rxrb = s.rxrb := by
  unfold pushTx
  split <;> rfl

@[simp] theorem pushTx_started (b : Byte) (s : State) :
    (pushTx b s).started = s.started := by
  unfold pushTx
  split <;> rfl

@[simp] theorem pushTx_envCfg (b : Byte) (s : State) :
    (pushTx b s).envCfg = s.envCfg := by
  unfold pushTx
  split <;> rfl

@[simp] theorem pushTx_input (b : Byte) (s : State) :
    (pushTx b s).input = s.input := by
  unfold pushTx
  split <;> rfl

@[simp] theorem pushTx_held (b : Byte) (s : State) :
    (pushTx b s).held = s.held := by
  unfold pushTx
  split <;> rfl

@[simp] theorem pushTx_out (b : Byte) (s : State) :
    (pushTx b s).out = s.out := by
  unfold pushTx
  split <;> rfl


-- pushTxAll

@[simp] theorem pushTxAll_cfg (bs : List Byte) : ∀ s : State,
    (pushTxAll bs s).cfg = s.cfg := by
  induction bs with
  | nil => intro s; rfl
  | cons b bs ih => intro s; rw [pushTxAll, ih, pushTx_cfg]

@[simp] theorem pushTxAll_halted (bs : List Byte) : ∀ s : State,
    (pushTxAll bs s).halted = s.halted := by
  induction bs with
  | nil => intro s; rfl
  | cons b bs ih => intro s; rw [pushTxAll, ih, pushTx_halted]

@[simp] theorem pushTxAll_txBusy (bs : List Byte) : ∀ s : State,
    (pushTxAll bs s).txBusy = s.txBusy := by
  induction bs with
  | nil => intro s; rfl
  | cons b bs ih => intro s; rw [pushTxAll, ih, pushTx_txBusy]

@[simp] theorem pushTxAll_rxArmed (bs : List Byte) : ∀ s : State,
    (pushTxAll bs s).rxArmed = s.rxArmed := by
  induction bs with
  | nil => intro s; rfl
  | cons b bs ih => intro s; rw [pushTxAll, ih, pushTx_rxArmed]

@[simp] theorem pushTxAll_seqCtr (bs : List Byte) : ∀ s : State,
    (pushTxAll bs s).seqCtr = s.seqCtr := by
  induction bs with
  | nil => intro s; rfl
  | cons b bs ih => intro s; rw [pushTxAll, ih, pushTx_seqCtr]

@[simp] theorem pushTxAll_session (bs : List Byte) : ∀ s : State,
    (pushTxAll bs s).session = s.session := by
  induction bs with
  | nil => intro s; rfl
  | cons b bs ih => intro s; rw [pushTxAll, ih, pushTx_session]

@[simp] theorem pushTxAll_lastRxTs (bs : List Byte) : ∀ s : State,
    (pushTxAll bs s).lastRxTs = s.lastRxTs := by
  induction bs with
  | nil => intro s; rfl
  | cons b bs ih => intro s; rw [pushTxAll, ih, pushTx_lastRxTs]

@[simp] theorem pushTxAll_lastRx (bs : List Byte) : ∀ s : State,
    (pushTxAll bs s).lastRx = s.lastRx := by
  induction bs with
  | nil => intro s; rfl
  | cons b bs ih => intro s; rw [pushTxAll, ih, pushTx_lastRx]

@[simp] theorem pushTxAll_lastTx (bs : List Byte) : ∀ s : State,
    (pushTxAll bs s).lastTx = s.lastTx := by
  induction bs with
  | nil => intro s; rfl
  | cons b bs ih => intro s; rw [pushTxAll, ih, pushTx_lastTx]

@[simp] theorem pushTxAll_lastDist (bs : List Byte) : ∀ s : State,
    (pushTxAll bs s).lastDist = s.lastDist := by
  induction bs with
  | nil => intro s; rfl
  | cons b bs ih => intro s; rw [pushTxAll, ih, pushTx_lastDist]

@[simp] theorem pushTxAll_distValid (bs : List Byte) : ∀ s : State,
    (pushTxAll bs s).distValid = s.distValid := by
  induction bs with
  | nil => intro s; rfl
  | cons b bs ih => intro s; rw [pushTxAll, ih, pushTx_distValid]

@[simp] theorem pushTxAll_registry (bs : List Byte) : ∀ s : State,
    (pushTxAll bs s).registry = s.registry := by
  induction bs with
  | nil => intro s; rfl
  | cons b bs ih => intro s; rw [pushTxAll, ih, pushTx_registry]

@[simp] theorem pushTxAll_rxrb (bs : List Byte) : ∀ s : State,
    (pushTxAll bs s).rxrb = s.rxrb := by
  induction bs with
  | nil => intro s; rfl
  | cons b bs ih => intro s; rw [pushTxAll, ih, pushTx_rxrb]

@[simp] theorem pushTxAll_started (bs : List Byte) : ∀ s : State,
    (pushTxAll bs s).started = s.started := by
  induction bs with
  | nil => intro s; rfl
  | cons b bs ih => intro s; rw [pushTxAll, ih, pushTx_started]

@[simp] theorem pushTxAll_envCfg (bs : List Byte) : ∀ s : State,
    (pushTxAll bs s).envCfg = s.envCfg := by
  induction bs with
  | nil => intro s; rfl
  | cons b bs ih => intro s; rw [pushTxAll, ih, pushTx_envCfg]

@[simp] theorem pushTxAll_input (bs : List Byte) : ∀ s : State,
    (pushTxAll bs s).input = s.input := by
  induction bs with
  | nil => intro s; rfl
  | cons b bs ih => intro s; rw [pushTxAll, ih, pushTx_input]

@[simp] theorem pushTxAll_held (bs : List Byte) : ∀ s : State,
    (pushTxAll bs s).held = s.held := by
  induction bs with
  | nil => intro s; rfl
  | cons b bs ih => intro s; rw [pushTxAll, ih, pushTx_held]

@[simp] theorem pushTxAll_out (bs : List Byte) : ∀ s : State,
    (pushTxAll bs s).out = s.out := by
  induction bs with
  | nil => intro s; rfl
  | cons b bs ih => intro s; rw [pushTxAll, ih, pushTx_out]


-- telemetry

@[simp] theorem telemetry_cfg (a d : Byte) (r : List Byte) (s : State) :
    (telemetry a d r s).cfg = s.cfg :=
  pushTxAll_cfg _ s

@[simp] theorem telemetry_halted (a d : Byte) (r : List Byte) (s : State) :
    (telemetry a d r s).halted = s.halted :=
  pushTxAll_halted _ s

@[simp] theorem telemetry_txBusy (a d : Byte) (r : List Byte) (s : State) :
    (telemetry a d r s).txBusy = s.txBusy :=
  pushTxAll_txBusy _ s

@[simp] theorem telemetry_rxArmed (a d : Byte) (r : List Byte) (s : State) :
    (telemetry a d r s).rxArmed = s.rxArmed :=
  pushTxAll_rxArmed _ s

@[simp] theorem telemetry_seqCtr (a d : Byte) (r : List Byte) (s : State) :
    (telemetry a d r s).seqCtr = s.seqCtr :=
  pushTxAll_seqCtr _ s

@[simp] theorem telemetry_session (a d : Byte) (r : List Byte) (s : State) :
    (telemetry a d r s).session = s.session :=
  pushTxAll_session _ s

@[simp] theorem telemetry_lastRxTs (a d : Byte) (r : List Byte) (s : State) :
    (telemetry a d r s).lastRxTs = s.lastRxTs :=
  pushTxAll_lastRxTs _ s

@[simp] theorem telemetry_lastRx (a d : Byte) (r : List Byte) (s : State) :
    (telemetry a d r s).lastRx = s.lastRx :=
  pushTxAll_lastRx _ s

@[simp] theorem telemetry_lastTx (a d : Byte) (r : List Byte) (s : State) :
    (telemetry a d r s).lastTx = s.lastTx :=
  pushTxAll_lastTx _ s

@[simp] theorem telemetry_lastDist (a d : Byte) (r : List Byte) (s : State) :
    (telemetry a d r s).lastDist = s.lastDist :=
  pushTxAll_lastDist _ s

@[simp] theorem telemetry_distValid (a d : Byte) (r : List Byte) (s : State) :
    (telemetry a d r s).distValid = s.distValid :=
  pushTxAll_distValid _ s

@[simp] theorem telemetry_registry (a d : Byte) (r : List Byte) (s : State) :
    (telemetry a d r s).registry = s.registry :=
  pushTxAll_registry _ s

@[simp] theorem telemetry_rxrb (a d : Byte) (r : List Byte) (s : State) :
    (telemetry a d r s).rxrb = s.rxrb :=
  pushTxAll_rxrb _ s

@[simp] theorem telemetry_started (a d : Byte) (r : List Byte) (s : State) :
    (telemetry a d r s).started = s.started :=
  pushTxAll_started _ s

@[simp] theorem telemetry_envCfg (a d : Byte) (r : List Byte) (s : State) :
    (telemetry a d r s).envCfg = s.envCfg :=
  pushTxAll_envCfg _ s

@[simp] theorem telemetry_input (a d : Byte) (r : List Byte) (s : State) :
    (telemetry a d r s).input = s.input :=
  pushTxAll_input _ s

@[simp] theorem telemetry_held (a d : Byte) (r : List Byte) (s : State) :
    (telemetry a d r s).held = s.held :=
  pushTxAll_held _ s

@[simp] theorem telemetry_out (a d : Byte) (r : List Byte) (s : State) :
    (telemetry a d r s).out = s.out :=
  pushTxAll_out _ s


-- hunt

@[simp] theorem hunt_cfg (n : Nat) : ∀ s : State, (hunt n s).cfg = s.cfg := by
  induction n with
  | zero => intro s; rfl
  | succ n ih =>
    intro s
    unfold hunt
    split
    · rfl
    · split
      · rfl
      · rw [ih]
        rfl

@[simp] theorem hunt_halted (n : Nat) : ∀ s : State, (hunt n s).halted = s.halted := by
  induction n with
  | zero => intro s; rfl
  | succ n ih =>
    intro s
    unfold hunt
    split
    · rfl
    · split
      · rfl
      · rw [ih]
        rfl

@[simp] theorem hunt_txBusy (n : Nat) : ∀ s : State, (hunt n s).txBusy = s.txBusy := by
  induction n with
  | zero => intro s; rfl
  | succ n ih =>
    intro s
    unfold hunt
    split
    · rfl
    · split
      · rfl
      · rw [ih]
        rfl

@[simp] theorem hunt_rxArmed (n : Nat) : ∀ s : State, (hunt n s).rxArmed = s.rxArmed := by
  induction n with
  | zero => intro s; rfl
  | succ n ih =>
    intro s
    unfold hunt
    split
    · rfl
    · split
      · rfl
      · rw [ih]
        rfl

@[simp] theorem hunt_seqCtr (n : Nat) : ∀ s : State, (hunt n s).seqCtr = s.seqCtr := by
  induction n with
  | zero => intro s; rfl
  | succ n ih =>
    intro s
    unfold hunt
    split
    · rfl
    · split
      · rfl
      · rw [ih]
        rfl

@[simp] theorem hunt_session (n : Nat) : ∀ s : State, (hunt n s).session = s.session := by
  induction n with
  | zero => intro s; rfl
  | succ n ih =>
    intro s
    unfold hunt
    split
    · rfl
    · split
      · rfl
      · rw [ih]
        rfl

@[simp] theorem hunt_lastRxTs (n : Nat) : ∀ s : State, (hunt n s).lastRxTs = s.lastRxTs := by
  induction n with
  | zero => intro s; rfl
  | succ n ih =>
    intro s
    unfold hunt
    split
    · rfl
    · split
      · rfl
      · rw [ih]
        rfl

@[simp] theorem hunt_lastRx (n : Nat) : ∀ s : State, (hunt n s).lastRx = s.lastRx := by
  induction n with
  | zero => intro s; rfl
  | succ n ih =>
    intro s
    unfold hunt
    split
    · rfl
    · split
      · rfl
      · rw [ih]
        rfl

@[simp] theorem hunt_lastTx (n : Nat) : ∀ s : State, (hunt n s).lastTx = s.lastTx := by
  induction n with
  | zero => intro s; rfl
  | succ n ih =>
    intro s
    unfold hunt
    split
    · rfl
    · split
      · rfl
      · rw [ih]
        rfl

@[simp] theorem hunt_lastDist (n : Nat) : ∀ s : State, (hunt n s).lastDist = s.lastDist := by
  induction n with
  | zero => intro s; rfl
  | succ n ih =>
    intro s
    unfold hunt
    split
    · rfl
    · split
      · rfl
      · rw [ih]
        rfl

@[simp] theorem hunt_distValid (n : Nat) : ∀ s : State, (hunt n s).distValid = s.distValid := by
  induction n with
  | zero => intro s; rfl
  | succ n ih =>
    intro s
    unfold hunt
    split
    · rfl
    · split
      · rfl
      · rw [ih]
        rfl

@[simp] theorem hunt_registry (n : Nat) : ∀ s : State, (hunt n s).registry = s.registry := by
  induction n with
  | zero => intro s; rfl
  | succ n ih =>
    intro s
    unfold hunt
    split
    · rfl
    · split
      · rfl
      · rw [ih]
        rfl

@[simp] theorem hunt_txrb (n : Nat) : ∀ s : State, (hunt n s).txrb = s.txrb := by
  induction n with
  | zero => intro s; rfl
  | succ n ih =>
    intro s
    unfold hunt
    split
    · rfl
    · split
      · rfl
      · rw [ih]
        rfl

@[simp] theorem hunt_started (n : Nat) : ∀ s : State, (hunt n s).started = s.started := by
  induction n with
  | zero => intro s; rfl
  | succ n ih =>
    intro s
    unfold hunt
    split
    · rfl
    · split
      · rfl
      · rw [ih]
        rfl

@[simp] theorem hunt_envCfg (n : Nat) : ∀ s : State, (hunt n s).envCfg = s.envCfg := by
  induction n with
  | zero => intro s; rfl
  | succ n ih =>
    intro s
    unfold hunt
    split
    · rfl
    · split
      · rfl
      · rw [ih]
        rfl

@[simp] theorem hunt_input (n : Nat) : ∀ s : State, (hunt n s).input = s.input := by
  induction n with
  | zero => intro s; rfl
  | succ n ih =>
    intro s
    unfold hunt
    split
    · rfl
    · split
      · rfl
      · rw [ih]
        rfl

@[simp] theorem hunt_held (n : Nat) : ∀ s : State, (hunt n s).held = s.held := by
  induction n with
  | zero => intro s; rfl
  | succ n ih =>
    intro s
    unfold hunt
    split
    · rfl
    · split
      · rfl
      · rw [ih]
        rfl

@[simp] theorem hunt_out (n : Nat) : ∀ s : State, (hunt n s).out = s.out := by
  induction n with
  | zero => intro s; rfl
  | succ n ih =>
    intro s
    unfold hunt
    split
    · rfl
    · split
      · rfl
      · rw [ih]
        rfl


-- captureTxDone

@[simp] theorem captureTxDone_cfg (ts : Timestamp) (s : State) :
    (captureTxDone ts s).cfg = s.cfg := by
  unfold captureTxDone
  split
  · rfl
  · split
    · rfl
    · split <;> rfl

@[simp] theorem captureTxDone_halted (ts : Timestamp) (s : State) :
    (captureTxDone ts s).halted = s.halted := by
  unfold captureTxDone
  split
  · rfl
  · split
    · rfl
    · split <;> rfl

@[simp] theorem captureTxDone_txBusy (ts : Timestamp) (s : State) :
    (captureTxDone ts s).txBusy = s.txBusy := by
  unfold captureTxDone
  split
  · rfl
  · split
    · rfl
    · split <;> rfl

@[simp] theorem captureTxDone_rxArmed (ts : Timestamp) (s : State) :
    (captureTxDone ts s).rxArmed = s.rxArmed := by
  unfold captureTxDone
  split
  · rfl
  · split
    · rfl
    · split <;> rfl

@[simp] theorem captureTxDone_seqCtr (ts : Timestamp) (s : State) :
    (captureTxDone ts s).seqCtr = s.seqCtr := by
  unfold captureTxDone
  split
  · rfl
  · split
    · rfl
    · split <;> rfl

@[simp] theorem captureTxDone_lastRxTs (ts : Timestamp) (s : State) :
    (captureTxDone ts s).lastRxTs = s.lastRxTs := by
  unfold captureTxDone
  split
  · rfl
  · split
    · rfl
    · split <;> rfl

@[simp] theorem captureTxDone_lastRx (ts : Timestamp) (s : State) :
    (captureTxDone ts s).lastRx = s.lastRx := by
  unfold captureTxDone
  split
  · rfl
  · split
    · rfl
    · split <;> rfl

@[simp] theorem captureTxDone_lastTx (ts : Timestamp) (s : State) :
    (captureTxDone ts s).lastTx = s.lastTx := by
  unfold captureTxDone
  split
  · rfl
  · split
    · rfl
    · split <;> rfl

@[simp] theorem captureTxDone_lastDist (ts : Timestamp) (s : State) :
    (captureTxDone ts s).lastDist = s.lastDist := by
  unfold captureTxDone
  split
  · rfl
  · split
    · rfl
    · split <;> rfl

@[simp] theorem captureTxDone_distValid (ts : Timestamp) (s : State) :
    (captureTxDone ts s).distValid = s.distValid := by
  unfold captureTxDone
  split
  · rfl
  · split
    · rfl
    · split <;> rfl

@[simp] theorem captureTxDone_registry (ts : Timestamp) (s : State) :
    (captureTxDone ts s).registry = s.registry := by
  unfold captureTxDone
  split
  · rfl
  · split
    · rfl
    · split <;> rfl

@[simp] theorem captureTxDone_rxrb (ts : Timestamp) (s : State) :
    (captureTxDone ts s).rxrb = s.rxrb := by
  unfold captureTxDone
  split
  · rfl
  · split
    · rfl
    · split <;> rfl

@[simp] theorem captureTxDone_txrb (ts : Timestamp) (s : State) :
    (captureTxDone ts s).txrb = s.txrb := by
  unfold captureTxDone
  split
  · rfl
  · split
    · rfl
    · split <;> rfl

@[simp] theorem captureTxDone_cnt (ts : Timestamp) (s : State) :
    (captureTxDone ts s).cnt = s.cnt := by
  unfold captureTxDone
  split
  · rfl
  · split
    · rfl
    · split <;> rfl

@[simp] theorem captureTxDone_lastErr (ts : Timestamp) (s : State) :
    (captureTxDone ts s).lastErr = s.lastErr := by
  unfold captureTxDone
  split
  · rfl
  · split
    · rfl
    · split <;> rfl

@[simp] theorem captureTxDone_started (ts : Timestamp) (s : State) :
    (captureTxDone ts s).started = s.started := by
  unfold captureTxDone
  split
  · rfl
  · split
    · rfl
    · split <;> rfl

@[simp] theorem captureTxDone_envCfg (ts : Timestamp) (s : State) :
    (captureTxDone ts s).envCfg = s.envCfg := by
  unfold captureTxDone
  split
  · rfl
  · split
    · rfl
    · split <;> rfl

@[simp] theorem captureTxDone_input (ts : Timestamp) (s : State) :
    (captureTxDone ts s).input = s.input := by
  unfold captureTxDone
  split
  · rfl
  · split
    · rfl
    · split <;> rfl

@[simp] theorem captureTxDone_held (ts : Timestamp) (s : State) :
    (captureTxDone ts s).held = s.held := by
  unfold captureTxDone
  split
  · rfl
  · split
    · rfl
    · split <;> rfl

@[simp] theorem captureTxDone_out (ts : Timestamp) (s : State) :
    (captureTxDone ts s).out = s.out := by
  unfold captureTxDone
  split
  · rfl
  · split
    · rfl
    · split <;> rfl


end Sys2Proof.Machine
end

