-- ==== Sys2Proof/Laws/Ops.lean ====
section
/-! SUPPORT. For each shared operation, one lemma that says all it can do. -/

namespace Sys2Proof.Machine

-- The guard

theorem operate_running {s : State} (h : Running s) (body : State → Result) :
    operate body s = body s := by simp [operate, h.1, h.2]

theorem operate_halted {s : State} (h : s.started = true) (hh : s.halted = true)
    (body : State → Result) : operate body s = .next s := by simp [operate, h, hh]

theorem operate_beforeReset {s : State} (h : s.started = false) (body : State → Result) :
    operate body s = .refused .beforeFirstReset := by simp [operate, h]

/-- Where a guarded operation answers a next state, it was ignored in the halted state or its body
answered it. -/
theorem operate_next {body : State → Result} {s t : State} (h : operate body s = .next t) :
    (s.started = true ∧ s.halted = true ∧ t = s) ∨ (Running s ∧ body s = .next t) := by
  unfold operate at h
  split at h
  · next hs =>
    split at h
    · next hh =>
      cases h
      exact .inl ⟨hs, hh, rfl⟩
    · next hh => exact .inr ⟨⟨hs, by simpa using hh⟩, h⟩
  · cases h

-- ArmRx and Send

theorem armRx_rearmed (s : State) : Rearmed s (armRx s) := by
  refine ⟨fun h => ?_, fun h => ?_⟩ <;> simp [armRx, emit, h]

theorem armRx_busy {s : State} (h : s.txBusy = true) : armRx s = s := (armRx_rearmed s).1 h

theorem armRx_idle {s : State} (h : s.txBusy = false) :
    armRx s = { s with rxArmed := true, out := s.out ++ [.armRx] } := (armRx_rearmed s).2 h

theorem rearmed_unique {s t : State} (h : Rearmed s t) : t = armRx s := by
  cases hb : s.txBusy
  · rw [h.2 hb, armRx_idle hb]
  · rw [h.1 hb, armRx_busy hb]

/-- `Send` while a transmission is in flight (R123). -/
theorem send_busy {s : State} (h : s.txBusy = true) (dest type : Byte) (payload : List Byte) :
    send dest type payload s = .next (count .txOverlap s) := by simp [send, h]

/-- `Send` with the transmitter free and a payload of at most 15 bytes (R123). -/
theorem send_idle {s : State} (h : s.txBusy = false) (dest type : Byte) {payload : List Byte}
    (hp : payload.length ≤ 15) :
    ∃ t, send dest type payload s = .next t ∧
      SentFrame s ([s.cfg.localAddr, dest, type, s.seqCtr] ++ payload) t := by
  refine ⟨_, ?_, ⟨⟨payload.length + 4, Memory.writeAll s.lastTx.b 0
    ([s.cfg.localAddr, dest, type, s.seqCtr] ++ payload)⟩, ⟨?_, ?_, ?_⟩, rfl⟩⟩
  · have hlen : (encodeFrame type ⟨s.cfg.localAddr, dest, s.seqCtr, payload⟩).length ≤ 19 := by
      simp [encodeFrame]
      omega
    rw [send, if_neg (by simp [h]), if_neg (by simpa [Config.maxPayload] using hp),
      FrameBuf.store_spec _ hlen]
    rfl
  · simp
  · simp only [FrameBuf.bytes]
    have := Memory.readAll_writeAll ([s.cfg.localAddr, dest, type, s.seqCtr] ++ payload) s.lastTx.b 0
    simpa using this
  · intro a ha
    rw [Memory.read_writeAll, if_neg (by omega)]

/-- All that `Send` answers for a payload of at most 15 bytes (R123). -/
theorem send_spec (s : State) (dest type : Byte) {payload : List Byte} (hp : payload.length ≤ 15) :
    ∃ t, send dest type payload s = .next t ∧
      ((s.txBusy = true ∧ t = count .txOverlap s) ∨
        (s.txBusy = false ∧
          SentFrame s ([s.cfg.localAddr, dest, type, s.seqCtr] ++ payload) t)) := by
  cases h : s.txBusy
  · obtain ⟨t, h1, h2⟩ := send_idle h dest type hp
    exact ⟨t, h1, .inr ⟨rfl, h2⟩⟩
  · exact ⟨_, send_busy h dest type payload, .inl ⟨rfl, rfl⟩⟩

/-- Where `Send` answers a next state, the transmitter was busy or the frame was sent. -/
theorem send_next {s t : State} {dest type : Byte} {payload : List Byte}
    (h : send dest type payload s = .next t) :
    (s.txBusy = true ∧ t = count .txOverlap s) ∨
      (s.txBusy = false ∧ SentFrame s ([s.cfg.localAddr, dest, type, s.seqCtr] ++ payload) t ∧
        payload.length ≤ 15) := by
  by_cases hp : payload.length ≤ 15
  · obtain ⟨t', h1, h2⟩ := send_spec s dest type hp
    rw [h] at h1
    cases h1
    rcases h2 with h2 | h2
    · exact .inl h2
    · exact .inr ⟨h2.1, h2.2, hp⟩
  · cases hb : s.txBusy
    · rw [send, if_neg (by simp [hb]), if_pos (by simpa [Config.maxPayload] using hp)] at h
      cases h
    · rw [send_busy hb] at h
      cases h
      exact .inl ⟨rfl, rfl⟩

/-- An accepted frame is a sent frame: its buffer holds the bytes, and nothing else changes (R123). -/
theorem transmit_sentFrame {s : State} {buf : FrameBuf} {f : List Byte} (hf : f.length ≤ 19)
    (h : s.lastTx.store f = some buf) : SentFrame s f (transmit f buf s) := by
  rw [FrameBuf.store_spec _ hf] at h
  cases h
  refine ⟨_, ⟨rfl, FrameBuf.bytes_store _ _, fun a ha => ?_⟩, rfl⟩
  rw [Memory.read_writeAll, if_neg (by omega)]

/-- Where `Send` answers a next state, with the buffer it stored. -/
theorem send_stored {s t : State} {dest type : Byte} {payload : List Byte}
    (h : send dest type payload s = .next t) :
    (s.txBusy = true ∧ t = count .txOverlap s) ∨
      (s.txBusy = false ∧ payload.length ≤ 15 ∧ ∃ buf,
        s.lastTx.store ([s.cfg.localAddr, dest, type, s.seqCtr] ++ payload) = some buf ∧
        t = transmit ([s.cfg.localAddr, dest, type, s.seqCtr] ++ payload) buf s) := by
  unfold send at h
  split at h
  · next hb =>
    cases h
    exact .inl ⟨hb, rfl⟩
  · next hb =>
    split at h
    · cases h
    · next hp =>
      split at h
      · next buf hs =>
        cases h
        exact .inr ⟨by simpa using hb, by simpa [Config.maxPayload] using hp, buf, hs, rfl⟩
      · cases h

-- Pushes

theorem RingBuf.appended_nil (r : RingBuf) : Appended r r [] := ⟨by simp, rfl, fun _ _ => rfl⟩

theorem RingBuf.appended_one (r : RingBuf) (b : Byte) (h : r.count < 256) : Appended r (r.append b) [b] := by
  refine ⟨RingBuf.content_append r b h, rfl, fun a ha => ?_⟩
  have := ha 0 (by simp)
  simp only [RingBuf.append, Config.rbCap]
  exact Memory.read_write_other _ _ (by simpa using this)

theorem RingBuf.appended_count {r r' : RingBuf} {bs : List Byte} (h : Appended r r' bs) :
    r'.count = r.count + bs.length := by
  have := congrArg List.length h.1
  simpa using this

theorem RingBuf.appended_trans {r r' r'' : RingBuf} {bs cs : List Byte} (h : Appended r r' bs)
    (h' : Appended r' r'' cs) : Appended r r'' (bs ++ cs) := by
  refine ⟨by rw [h'.1, h.1, List.append_assoc], by rw [h'.2.1, h.2.1], fun a ha => ?_⟩
  rw [h'.2.2, h.2.2]
  · intro k hk
    exact ha k (by simp; omega)
  · intro k hk
    rw [h.2.1, RingBuf.appended_count h]
    have := ha (bs.length + k) (by simp; omega)
    rwa [show r.rd.toNat + (r.count + bs.length) + k = r.rd.toNat + r.count + (bs.length + k) by omega]

/-- `Push(TXRB, b)` with room (R62). -/
theorem pushTx_room {s : State} (h : s.txrb.count < 256) (b : Byte) :
    pushTx b s = { s with txrb := s.txrb.append b } := by
  have : s.txrb.count ≠ Config.rbCap := by simp only [Config.rbCap]; omega
  simp [pushTx, this]

/-- `Push(TXRB, b)` into a full ring (R62). -/
theorem pushTx_full {s : State} (h : s.txrb.count = 256) (b : Byte) :
    pushTx b s = count .txrbOverflow s := by simp [pushTx, h, Config.rbCap]

/-- The state after pushes into TXRB that left the ring `r` and dropped n bytes (R62). -/
def pushed (r : RingBuf) (n : Nat) (s : State) : State :=
  { s with
    txrb := r
    cnt := { s.cnt with txrbDrop := s.cnt.txrbDrop + BitVec.ofNat 32 n }
    lastErr := if n = 0 then s.lastErr else 0x07 }

@[simp] theorem pushed_zero (r : RingBuf) (s : State) : pushed r 0 s = { s with txrb := r } := by
  simp [pushed]

theorem ofNat32_succ_add (c : Counter) (n : Nat) :
    c + 1#32 + BitVec.ofNat 32 n = c + BitVec.ofNat 32 (n + 1) := by
  apply BitVec.eq_of_toNat_eq
  simp [BitVec.toNat_add, BitVec.toNat_ofNat]
  omega

theorem pushTxAll_full (bs : List Byte) : ∀ {s : State}, s.txrb.count = 256 →
    pushTxAll bs s = pushed s.txrb bs.length s := by
  induction bs with
  | nil => intro s _; simp [pushTxAll]
  | cons b bs ih =>
    intro s h
    rw [pushTxAll, pushTx_full h, ih (by simpa using h)]
    simp [pushed, count, Counters.bump, Cause.code, ofNat32_succ_add]

/-- A multi-byte enqueue (R62): the bytes that fit are appended in order; each other byte is dropped and
counted. -/
theorem pushTxAll_spec (bs : List Byte) : ∀ {s : State}, s.txrb.count ≤ 256 →
    ∃ r, Appended s.txrb r (bs.take (256 - s.txrb.count)) ∧
      pushTxAll bs s = pushed r (bs.length - (256 - s.txrb.count)) s := by
  induction bs with
  | nil =>
    intro s _
    exact ⟨s.txrb, by simpa using RingBuf.appended_nil _, by simp [pushTxAll]⟩
  | cons b bs ih =>
    intro s h
    by_cases hlt : s.txrb.count < 256
    · obtain ⟨r, h1, h2⟩ := ih (s := pushed (s.txrb.append b) 0 s) (by simp; omega)
      refine ⟨r, ?_, ?_⟩
      · have := RingBuf.appended_trans (RingBuf.appended_one s.txrb b hlt)
          (by simpa only [pushed_zero] using h1)
        rw [show 256 - s.txrb.count = (256 - (s.txrb.count + 1)) + 1 by omega, List.take_succ_cons]
        simpa using this
      · have e : (b :: bs).length - (256 - s.txrb.count)
            = bs.length - (256 - (pushed (s.txrb.append b) 0 s).txrb.count) := by
          simp
          omega
        rw [pushTxAll, pushTx_room hlt, ← pushed_zero, h2, e]
        simp [pushed]
    · have heq : s.txrb.count = 256 := by omega
      refine ⟨s.txrb, by simpa [heq] using RingBuf.appended_nil s.txrb, ?_⟩
      rw [pushTxAll_full _ heq, heq]
      rfl

/-- A multi-byte enqueue that fits. -/
theorem pushTxAll_fits (bs : List Byte) {s : State} (h : s.txrb.count + bs.length ≤ 256) :
    ∃ r, Appended s.txrb r bs ∧ pushTxAll bs s = { s with txrb := r } := by
  obtain ⟨r, h1, h2⟩ := pushTxAll_spec bs (s := s) (by omega)
  refine ⟨r, by rwa [List.take_of_length_le (by omega)] at h1, ?_⟩
  rw [h2, show bs.length - (256 - s.txrb.count) = 0 by omega, pushed_zero]

/-- The push of a 16-byte message (R152, R62): what fits is appended, the rest dropped and counted. -/
theorem pushTxAll_message {bs : List Byte} (h16 : bs.length = 16) {s : State} (h : s.txrb.count ≤ 256) :
    ∃ r, Appended s.txrb r (bs.take (256 - s.txrb.count)) ∧
      pushTxAll bs s = { s with
        txrb := r
        cnt := { s.cnt with
          txrbDrop := s.cnt.txrbDrop + BitVec.ofNat 32 (16 - (256 - s.txrb.count)) }
        lastErr := if s.txrb.count ≤ 240 then s.lastErr else 0x07 } := by
  obtain ⟨r, h1, h2⟩ := pushTxAll_spec bs h
  refine ⟨r, h1, ?_⟩
  have e : (16 - (256 - s.txrb.count) = 0) = (s.txrb.count ≤ 240) := by
    rw [eq_iff_iff]
    omega
  rw [h2, pushed, h16]
  simp only [e]

/-- The telemetry message that `Telemetry` pushes (R152). -/
theorem pushReport_spec (sender msgId src dest : Byte) {range : List Byte} (h8 : range.length = 8)
    {s : State} (h : s.txrb.count ≤ 256) :
    ∃ r, Appended s.txrb r
        ((pprzEncode ([sender, msgId, src, dest] ++ range)).take (256 - s.txrb.count)) ∧
      pushReport sender msgId src dest range s = { s with
        txrb := r
        cnt := { s.cnt with
          txrbDrop := s.cnt.txrbDrop + BitVec.ofNat 32 (16 - (256 - s.txrb.count)) }
        lastErr := if s.txrb.count ≤ 240 then s.lastErr else 0x07 } :=
  pushTxAll_message (by simp [h8]) h

-- The parser

theorem consumed_dropN (r : RingBuf) (n : Nat) : Consumed r (r.dropN n) n := by
  refine ⟨RingBuf.content_dropN n r, ?_, RingBuf.dropN_count n r, RingBuf.dropN_mem n r⟩
  induction n generalizing r with
  | zero => simp [RingBuf.dropN]
  | succ n ih =>
    rw [RingBuf.dropN, ih]
    simp only [RingBuf.drop1]
    apply BitVec.eq_of_toNat_eq
    have h1 : BitVec.toNat (1 : Byte) = 1 := rfl
    simp only [BitVec.toNat_add, BitVec.toNat_ofNat, h1]
    omega

theorem RingBuf.dropN_add (r : RingBuf) (m n : Nat) : (r.dropN m).dropN n = r.dropN (m + n) := by
  induction m generalizing r with
  | zero => simp [RingBuf.dropN]
  | succ m ih => rw [RingBuf.dropN, ih, show m + 1 + n = (m + n) + 1 by omega, RingBuf.dropN]

theorem RingBuf.drop1_eq_dropN (r : RingBuf) : r.drop1 = r.dropN 1 := rfl

/-- The state after n bytes that are not 0x99 are discarded (R142). -/
def discarded (n : Nat) (s : State) : State :=
  { s with
    rxrb := s.rxrb.dropN n
    cnt := { s.cnt with pprzDiscard := s.cnt.pprzDiscard + BitVec.ofNat 32 n }
    lastErr := if n = 0 then s.lastErr else 0x08 }

/-- Step 1 on a content split at its first 0x99, if any (R142). -/
theorem hunt_spec (junk tail : List Byte) (hj : ∀ b ∈ junk, b ≠ Config.pprzStx)
    (ht : ∀ b, tail.head? = some b → b = Config.pprzStx) :
    ∀ (fuel : Nat) (s : State), s.rxrb.content = junk ++ tail → junk.length ≤ fuel →
      hunt fuel s = discarded junk.length s := by
  induction junk with
  | nil =>
    intro fuel s hc _
    have h0 : discarded 0 s = s := by simp [discarded, RingBuf.dropN]
    rw [List.length_nil, h0]
    cases fuel with
    | zero => rfl
    | succ fuel =>
      unfold hunt
      split
      · rfl
      · next hne =>
        rw [if_pos]
        have hpos : 0 < s.rxrb.count := by omega
        have hcc := RingBuf.content_cons s.rxrb hpos
        rw [hc, List.nil_append] at hcc
        exact ht _ (by rw [hcc]; rfl)
  | cons b junk ih =>
    intro fuel s hc hf
    have hcount : s.rxrb.count = junk.length + 1 + tail.length := by
      rw [← RingBuf.length_content, hc]
      simp
      omega
    have hcc := RingBuf.content_cons s.rxrb (by omega)
    rw [hc, List.cons_append, List.cons.injEq] at hcc
    cases fuel with
    | zero => simp at hf
    | succ fuel =>
      unfold hunt
      rw [if_neg (by omega), if_neg (by rw [← hcc.1]; exact hj b (by simp)),
        ih (fun c hc => hj c (by simp [hc])) fuel _ (by simpa using hcc.2.symm)
          (by simpa using hf)]
      simp [discarded, count, popRx, Counters.bump, Cause.code, ofNat32_succ_add, RingBuf.dropN]

/-- Every content splits at its first 0x99. -/
theorem split_at_stx (c : List Byte) : ∃ junk tail, c = junk ++ tail ∧
    (∀ b ∈ junk, b ≠ Config.pprzStx) ∧ (∀ b, tail.head? = some b → b = Config.pprzStx) := by
  induction c with
  | nil => exact ⟨[], [], by simp⟩
  | cons b c ih =>
    by_cases hb : b = Config.pprzStx
    · exact ⟨[], b :: c, by simp, by simp, by simp [hb]⟩
    · obtain ⟨junk, tail, h1, h2, h3⟩ := ih
      exact ⟨b :: junk, tail, by simp [h1], by simpa [hb] using h2, h3⟩

/-- `Parse` on a content split at its first 0x99: step 1 discards what is before it, steps 2 to 6 look at
the rest (R142 to R147). -/
theorem parse_spec {s : State} {junk tail : List Byte} (hc : s.rxrb.content = junk ++ tail)
    (hj : ∀ b ∈ junk, b ≠ Config.pprzStx) (ht : ∀ b, tail.head? = some b → b = Config.pprzStx) :
    parse s = parseHead (discarded junk.length s) ∧
      (discarded junk.length s).rxrb.content = tail := by
  have hcount : s.rxrb.count = junk.length + tail.length := by
    rw [← RingBuf.length_content, hc]
    simp
  refine ⟨by rw [parse, hunt_spec junk tail hj ht _ s hc (by omega)], ?_⟩
  simp [discarded, RingBuf.content_dropN, hc]

/-- Steps 2 to 6 (R143 to R147) by the content: fewer than 5 bytes; a LEN of 5 or less; a LEN that
promises more than is held; a bad checksum; a packet. -/
theorem parseHead_spec {s : State} {c : List Byte} (hc : s.rxrb.content = c) :
    (c.length < 5 ∧ parseHead s = (none, s)) ∨
    (5 ≤ c.length ∧ (c.getD 1 0).toNat < 6 ∧ parseHead s = (none, count .pprzBadLen (popRx s))) ∨
    (5 ≤ c.length ∧ 6 ≤ (c.getD 1 0).toNat ∧ c.length < (c.getD 1 0).toNat ∧
      parseHead s = (none, s)) ∨
    (5 ≤ c.length ∧ 6 ≤ (c.getD 1 0).toNat ∧ (c.getD 1 0).toNat ≤ c.length ∧
      validPacketAt (c.take (c.getD 1 0).toNat) (c.getD 1 0).toNat = false ∧
      parseHead s = (none, count .pprzBadCksum (popRx s))) ∨
    (5 ≤ c.length ∧ 6 ≤ (c.getD 1 0).toNat ∧ (c.getD 1 0).toNat ≤ c.length ∧
      validPacketAt (c.take (c.getD 1 0).toNat) (c.getD 1 0).toNat = true ∧
      parseHead s = (some (c.take (c.getD 1 0).toNat),
        { s with rxrb := s.rxrb.dropN (c.getD 1 0).toNat })) := by
  have hlen : s.rxrb.count = c.length := by rw [← hc, RingBuf.length_content]
  subst hc
  by_cases h5 : s.rxrb.content.length < 5
  · exact .inl ⟨h5, by simp only [parseHead]; rw [if_pos (by omega)]⟩
  have hl : headLen s = (s.rxrb.content.getD 1 0).toNat := by
    rw [headLen, RingBuf.peek_eq_getD _ (by omega)]
  rw [← hl]
  by_cases h6 : headLen s < 6
  · refine .inr (.inl ⟨by omega, h6, ?_⟩)
    rw [parseHead, if_neg (by omega), if_pos (by simpa [Config.pprzMinLen] using h6)]
  by_cases hw : s.rxrb.content.length < headLen s
  · refine .inr (.inr (.inl ⟨by omega, by omega, hw, ?_⟩))
    rw [parseHead, if_neg (by omega), if_neg (by simpa [Config.pprzMinLen] using h6),
      if_pos (by omega)]
  have htake := RingBuf.peekAll_eq_take s.rxrb (n := headLen s) (by omega)
  cases hv : validPacketAt (s.rxrb.content.take (headLen s)) (headLen s)
  · refine .inr (.inr (.inr (.inl ⟨by omega, by omega, by omega, rfl, ?_⟩)))
    rw [parseHead, if_neg (by omega), if_neg (by simpa [Config.pprzMinLen] using h6),
      if_neg (by omega), htake, if_neg (by simp [hv])]
  · refine .inr (.inr (.inr (.inr ⟨by omega, by omega, by omega, rfl, ?_⟩)))
    rw [parseHead, if_neg (by omega), if_neg (by simpa [Config.pprzMinLen] using h6),
      if_neg (by omega), htake, if_pos hv]

-- The router

theorem routeOf_own {l : Byte} {f : FrameBody} (h : f.src ≠ l) (h' : f.dest = l) :
    routeOf l f = .own := by simp [routeOf, h, h']

theorem routeOf_ownSrc {l : Byte} {f : FrameBody} (h : f.src = l) : routeOf l f = .ownSrc := by
  simp [routeOf, h]

theorem routeOf_broadcast {l : Byte} {f : FrameBody} (h : f.src ≠ l) (h' : f.dest ≠ l)
    (hb : f.dest = 0 ∨ f.dest = 255) : routeOf l f = .broadcast := by
  rw [routeOf, if_neg h, if_neg h', if_pos hb]

theorem routeOf_foreign {l : Byte} {f : FrameBody} (h : f.src ≠ l) (h' : f.dest ≠ l)
    (h0 : f.dest ≠ 0) (h1 : f.dest ≠ 255) : routeOf l f = .foreign := by
  rw [routeOf, if_neg h, if_neg h', if_neg (by rintro (hd | hd) <;> contradiction)]

/-- RADIO_RX and the frame's own instruction are one dispatch (R183, R192). -/
theorem execFrame_eq_exec (type : Byte) (f : FrameBody) (s : State) :
    execFrame type f s = exec (frameInstr type f) s := by
  unfold execFrame frameInstr
  repeat' split
  all_goals rfl

-- Reset memory is canonical

theorem reset_memory_wf :
    Memory.wf 256 State.reset.rxrb.mem = true ∧ Memory.wf 256 State.reset.txrb.mem = true ∧
      Memory.wf 32 State.reset.registry = true ∧ Memory.wf 19 State.reset.lastRx.b = true ∧
      Memory.wf 19 State.reset.lastTx.b = true := by decide

/-- The registry index is inside the registry (R60). -/
theorem registryIndex_lt (mode : RegistryMode) (a : Byte) : registryIndex mode a < 32 := by
  cases mode <;> simp only [registryIndex, BitVec.toNat_ushiftRight, Nat.shiftRight_eq_div_pow] <;>
    have := a.isLt <;> omega

/-- `RegistrySet` keeps the registry's canonical form (R68). -/
theorem registrySetBit_wf {mode : RegistryMode} {reg : Memory} (a : Byte)
    (h : Memory.wf 32 reg = true) : Memory.wf 32 (registrySetBit mode reg a) = true :=
  Memory.wf_write _ (registryIndex_lt mode a) h

end Sys2Proof.Machine
end

