-- ==== Sys2Proof/Laws/Exec.lean ====
section
/-! SUPPORT. What an instruction can do, said once: every instruction but RESET is guarded, and its next
state is reached by moves of a few kinds, of which each instruction makes only some. -/

namespace Sys2Proof.Machine

/-- Every instruction but RESET begins with the guard (R293, R295). -/
theorem exec_guarded (i : Instr) (hn : notReset i = true) :
    ∃ body, ∀ s, exec i s = operate body s := by
  cases i <;> first | (simp [notReset] at hn; done) | exact ⟨_, fun _ => rfl⟩

/-- The kinds of move. -/
inductive Kind where
  | anomaly | rearm | transmit | enqueue | storeRx | consume | emitUart | register | session
  | latch | frame | success | distance | hold | complete
deriving DecidableEq, Repr

/-- One move of a kind. -/
inductive Move : Kind → State → State → Prop where
  | anomaly (e : Cause) (s : State) : Move .anomaly s (count e s)
  | rearm (s : State) : Move .rearm s (armRx s)
  | transmit {s : State} {buf : FrameBuf} (dest type : Byte) (payload : List Byte)
      (idle : s.txBusy = false) (short : payload.length ≤ 15)
      (stored : s.lastTx.store ([s.cfg.localAddr, dest, type, s.seqCtr] ++ payload) = some buf) :
      Move .transmit s (transmit ([s.cfg.localAddr, dest, type, s.seqCtr] ++ payload) buf s)
  | enqueue (b : Byte) (s : State) : Move .enqueue s (pushTx b s)
  | storeRx (b : Byte) (s : State) : Move .storeRx s (pushRx b s)
  | consume (n : Nat) (s : State) : Move .consume s { s with rxrb := s.rxrb.dropN n }
  | emitUart (s : State) :
      Move .emitUart s (emit (.uartTxByte (s.txrb.peek 0)) { s with txrb := s.txrb.drop1 })
  | register (a : Byte) (s : State) : Move .register s (registrySet a s)
  | session (x : Session) (s : State) : Move .session s { s with session := x }
  | latch (ts : Timestamp) (s : State) : Move .latch s (latchRx ts s)
  | frame {s : State} {buf : FrameBuf} {d : List Byte} (four : 4 ≤ d.length) (short : d.length ≤ 19)
      (stored : s.lastRx.store d = some buf) : Move .frame s { s with lastRx := buf }
  | success (s : State) :
      Move .success s { s with cnt := { s.cnt with pprzOk := s.cnt.pprzOk + 1 } }
  | distance (d : F64) (s : State) : Move .distance s { s with lastDist := d, distValid := true }
  | hold (s : State) : Move .hold s { s with held := s.held + 1 }
  | complete {s : State} (busy : s.txBusy = true) :
      Move .complete s { s with
        txBusy := false, rxArmed := true, out := s.out ++ [.armRx] }

/-- Moves of the kinds allowed, one after the other. -/
inductive Moves (P : Kind → Prop) : State → State → Prop where
  | done (s : State) : Moves P s s
  | step {k : Kind} {s u t : State} (allowed : P k) (move : Move k s u) (rest : Moves P u t) :
      Moves P s t

variable {P : Kind → Prop}

theorem Moves.one {k : Kind} {s t : State} (h : P k) (m : Move k s t) : Moves P s t :=
  .step h m (.done t)

theorem Moves.mono {Q : Kind → Prop} (hPQ : ∀ k, P k → Q k) {s t : State} (h : Moves P s t) :
    Moves Q s t := by
  induction h with
  | done => exact .done _
  | step a m _ ih => exact .step (hPQ _ a) m ih

theorem Moves.trans {s u t : State} (h : Moves P s u) (h' : Moves P u t) : Moves P s t := by
  induction h with
  | done => exact h'
  | step a m _ ih => exact .step a m (ih h')

/-- A relation that holds across each allowed move, is reflexive and transitive, holds across the moves. -/
theorem Moves.relation {R : State → State → Prop} (refl : ∀ s, R s s)
    (trans : ∀ s u t, R s u → R u t → R s t)
    (move : ∀ k s t, P k → Move k s t → R s t) {s t : State} (h : Moves P s t) : R s t := by
  induction h with
  | done s => exact refl s
  | step a m _ ih => exact trans _ _ _ (move _ _ _ a m) ih

-- The shared operations as moves

theorem moves_pushTxAll (h : P .enqueue) (bs : List Byte) : ∀ s, Moves P s (pushTxAll bs s) := by
  induction bs with
  | nil => exact Moves.done
  | cons b bs ih => exact fun s => .step h (.enqueue b s) (ih _)

theorem moves_send (ht : P .transmit) (ha : P .anomaly) {s t : State} {dest type : Byte}
    {payload : List Byte} (h : send dest type payload s = .next t) : Moves P s t := by
  rcases send_stored h with ⟨_, rfl⟩ | ⟨hb, hp, buf, hs, rfl⟩
  · exact .one ha (.anomaly _ s)
  · exact .one ht (.transmit dest type payload hb hp hs)

theorem moves_anomalyRearm (ha : P .anomaly) (hr : P .rearm) (e : Cause) (s : State) :
    Moves P s (armRx (count e s)) := .step ha (.anomaly e s) (.one hr (.rearm _))

theorem moves_byRoute (ha : P .anomaly) (hr : P .rearm) {f : FrameBody}
    {own broadcast foreign : State → Result} {s t : State}
    (h : byRoute f own broadcast foreign s = .next t)
    (h1 : own s = .next t → Moves P s t) (h2 : broadcast s = .next t → Moves P s t)
    (h3 : foreign s = .next t → Moves P s t) : Moves P s t := by
  unfold byRoute at h
  split at h
  · cases h
    exact moves_anomalyRearm ha hr _ s
  · exact h1 h
  · exact h2 h
  · exact h3 h

theorem moves_onUnknown (ha : P .anomaly) (hr : P .rearm) {s t : State}
    (h : onUnknown s = .next t) : Moves P s t := by
  cases h
  exact moves_anomalyRearm ha hr _ s

theorem moves_onIgnored (hr : P .rearm) {s t : State} (h : onIgnored s = .next t) : Moves P s t := by
  cases h
  exact .one hr (.rearm s)

theorem moves_operate {body : State → Result} {s t : State} (h : operate body s = .next t)
    (hb : body s = .next t → Moves P s t) : Moves P s t := by
  rcases operate_next h with ⟨_, _, rfl⟩ | ⟨_, h⟩
  · exact .done _
  · exact hb h

theorem moves_acceptPacket (hs : P .success) (ht : P .transmit) (ha : P .anomaly) {p : List Byte}
    {s t : State} (h : acceptPacket p s = .next t) : Moves P s t := by
  refine .step hs (.success s) ?_
  unfold acceptPacket relay at h
  split at h
  · cases h
    exact .one ha (.anomaly _ _)
  · exact moves_send ht ha h

theorem moves_onReport (he : P .enqueue) (ha : P .anomaly) (hr : P .rearm) {f : FrameBody}
    {s t : State} (h : onReport f s = .next t) : Moves P s t := by
  unfold onReport at h
  split at h
  · cases h
    exact moves_anomalyRearm ha hr _ s
  · cases h
    exact (moves_pushTxAll he _ s).trans (.one hr (.rearm _))

theorem moves_onTransfer (he : P .enqueue) (ha : P .anomaly) (hr : P .rearm) (ht : P .transmit)
    (hs : P .session) (hd : P .distance) {f : FrameBody} {s t : State}
    (h : onTransfer f s = .next t) : Moves P s t := by
  unfold onTransfer computeAndReport report at h
  split at h
  · cases h
    exact moves_anomalyRearm ha hr _ s
  · refine .step hs (.session (captureTransfer f.payload s).session s) ?_
    split at h
    · cases h
      exact moves_anomalyRearm ha hr _ _
    · exact .step hd (.distance _ _) ((moves_pushTxAll he _ _).trans (moves_send ht ha h))

theorem moves_hunt (ha : P .anomaly) (hc : P .consume) (n : Nat) : ∀ s, Moves P s (hunt n s) := by
  induction n with
  | zero => exact Moves.done
  | succ n ih =>
    intro s
    unfold hunt
    split
    · exact .done s
    · split
      · exact .done s
      · exact .step hc (.consume 1 s) (.step ha (.anomaly _ _) (ih _))

theorem moves_parseStepBody (ha : P .anomaly) (hc : P .consume) (hs : P .success)
    (ht : P .transmit) {s t : State} (h : parseStepBody s = .next t) : Moves P s t := by
  refine (moves_hunt ha hc s.rxrb.count s).trans ?_
  unfold parseStepBody parse parseHead at h
  split at h
  · next s' heq =>
    cases h
    split at heq
    · cases heq
      exact .done _
    · split at heq
      · cases heq
        exact .step hc (.consume 1 _) (.one ha (.anomaly _ _))
      · split at heq
        · cases heq
          exact .done _
        · split at heq
          · cases heq
          · cases heq
            exact .step hc (.consume 1 _) (.one ha (.anomaly _ _))
  · next p s' heq =>
    split at heq
    · cases heq
    · split at heq
      · cases heq
      · split at heq
        · cases heq
        · split at heq
          · cases heq
            exact .step hc (.consume _ _) (moves_acceptPacket hs ht ha h)
          · cases heq

/-- The kinds of move a received frame of a type can make (R192). -/
def frameKind (type : Byte) (k : Kind) : Bool :=
  k = .anomaly ∨ k = .rearm ∨
    (k = .transmit ∧ (type = 0 ∨ type = 1 ∨ type = 2 ∨ type = 3 ∨ type = 254)) ∨
    (k = .session ∧ (type = 2 ∨ type = 3)) ∨
    (k = .distance ∧ type = 3) ∨
    (k = .enqueue ∧ (type = 3 ∨ type = 5 ∨ type = 42)) ∨
    (k = .register ∧ type = 255)

/-- The kinds of move an instruction other than RESET can make. -/
def canMake (i : Instr) (k : Kind) : Bool :=
  match i with
  | .reset _ => false
  | .uartRxByte _ => k = .storeRx
  | .parseStep => k = .hold ∨ k = .anomaly ∨ k = .consume ∨ k = .success ∨ k = .transmit
  | .txrbPop => k = .emitUart
  | .pollTick => k = .anomaly ∨ k = .session ∨ k = .transmit
  | .radioRx _ data => k = .latch ∨ k = .frame ∨ frameKind (data.getD 2 0) k
  | .radioTxDone _ => k = .session ∨ k = .complete ∨ k = .anomaly
  | .illegalOp _ => k = .anomaly
  | .rangePoll _ => frameKind 0 k
  | .rangeResponse _ => frameKind 1 k
  | .rangeFinal _ => frameKind 2 k
  | .rangeTransfer _ => frameKind 3 k
  | .rangeReport _ => frameKind 5 k
  | .rangeRequest _ => frameKind 6 k
  | .dataRelay _ => frameKind 42 k
  | .ping _ => frameKind 254 k
  | .pong _ => frameKind 255 k
  | .unassignedType _ _ => frameKind 4 k
  | .pprzPacket _ => k = .success ∨ k = .transmit ∨ k = .anomaly
  | .pprzRangeReport _ _ _ _ _ => k = .enqueue

/-- What a received frame of a type can do (R192). -/
theorem execFrame_moves {type : Byte} {f : FrameBody} {s t : State}
    (h : execFrame type f s = .next t) : Moves (fun k => frameKind type k = true) s t := by
  unfold execFrame at h
  have ha : frameKind type .anomaly = true := by simp [frameKind]
  have hr : frameKind type .rearm = true := by simp [frameKind]
  have route {f : FrameBody} {own broadcast foreign : State → Result}
      (h : operate (byRoute f own broadcast foreign) s = .next t)
      (h1 : own s = .next t → Moves (fun k => frameKind type k = true) s t)
      (h2 : broadcast s = .next t → Moves (fun k => frameKind type k = true) s t)
      (h3 : foreign s = .next t → Moves (fun k => frameKind type k = true) s t) :
      Moves (fun k => frameKind type k = true) s t :=
    moves_operate h fun h => moves_byRoute ha hr h h1 h2 h3
  split at h
  · next e =>
    subst e
    exact route h (moves_send (by decide) ha) (moves_onUnknown ha hr) (moves_onIgnored hr)
  split at h
  · next e =>
    subst e
    exact route h (moves_send (by decide) ha) (moves_onUnknown ha hr) (moves_onIgnored hr)
  split at h
  · next e =>
    subst e
    exact route h (fun h => .step (by decide) (.session _ s) (moves_send (by decide) ha h))
      (moves_onUnknown ha hr) (moves_onIgnored hr)
  split at h
  · next e =>
    subst e
    exact route h
      (moves_onTransfer (by decide) ha hr (by decide) (by decide) (by decide))
      (moves_onUnknown ha hr) (moves_onIgnored hr)
  split at h
  · next e =>
    subst e
    exact route h (moves_onReport (by decide) ha hr) (moves_onUnknown ha hr)
      (moves_onReport (by decide) ha hr)
  split at h
  · exact route h (moves_onUnknown ha hr) (moves_onUnknown ha hr) (moves_onIgnored hr)
  split at h
  · next e =>
    subst e
    have hrelay : onRelay f s = .next t → Moves (fun k => frameKind 42 k = true) s t := fun h => by
      cases h
      exact (moves_pushTxAll (by decide) _ s).trans (.one hr (.rearm _))
    exact route h hrelay hrelay (moves_onIgnored hr)
  split at h
  · next e =>
    subst e
    exact route h (moves_send (by decide) ha) (moves_send (by decide) ha) (moves_onIgnored hr)
  split at h
  · next e =>
    subst e
    have hpong : onPong f s = .next t → Moves (fun k => frameKind 255 k = true) s t := fun h => by
      cases h
      exact .step (by decide) (.register _ s) (.one hr (.rearm _))
    exact route h hpong hpong (moves_onIgnored hr)
  · exact route h (moves_onUnknown ha hr) (moves_onUnknown ha hr) (moves_onIgnored hr)

/-- The captures of a transmit completion are a session write (R225 to R228). -/
theorem captureTxDone_eq (ts : Timestamp) (s : State) :
    ∃ x, captureTxDone ts s = { s with session := x } := by
  unfold captureTxDone
  split
  · exact ⟨_, rfl⟩
  · split
    · exact ⟨_, rfl⟩
    · split
      · exact ⟨_, rfl⟩
      · exact ⟨s.session, rfl⟩

/-- All that RADIO_RX can do (R180). -/
theorem receive_moves {d : List Byte} {s t : State} (h : receive d s = .next t) :
    Moves (fun k => k = .frame ∨ frameKind (d.getD 2 0) k = true) s t := by
  unfold receive at h
  split at h
  · cases h
    exact moves_anomalyRearm (.inr (by simp [frameKind])) (.inr (by simp [frameKind])) _ s
  · next type f hd =>
    obtain ⟨hdec, -, h4, h19⟩ := decodeFrameFields_some hd
    split at h
    · next buf hbuf =>
      refine .step (.inl rfl) (.frame h4 h19 hbuf) ?_
      have ht : d.getD 2 0 = type := by rw [← hdec]; rfl
      rw [ht]
      exact (execFrame_moves h).mono fun k hk => .inr hk
    · cases h

/-- What an instruction other than RESET can do: where it answers a next state, that state is reached by
moves of the kinds the instruction can make. -/
theorem exec_moves {i : Instr} {s t : State} (hn : notReset i = true) (h : exec i s = .next t) :
    Moves (fun k => canMake i k = true) s t := by
  cases i with
  | reset => simp [notReset] at hn
  | uartRxByte b =>
    unfold exec execUartRxByte at h
    refine moves_operate h fun h => ?_
    cases h
    exact .one (by simp [canMake]) (.storeRx b s)
  | parseStep =>
    unfold exec execParseStep at h
    refine moves_operate h fun h => ?_
    split at h
    · cases h
      exact .one (by simp [canMake]) (.hold s)
    · exact moves_parseStepBody (by simp [canMake]) (by simp [canMake]) (by simp [canMake])
        (by simp [canMake]) h
  | txrbPop =>
    unfold exec execTxrbPop at h
    refine moves_operate h fun h => ?_
    split at h
    · cases h
      exact .done _
    · cases h
      exact .one (by simp [canMake]) (.emitUart s)
  | pollTick =>
    unfold exec execPollTick at h
    refine moves_operate h fun h => ?_
    split at h
    · cases h
      exact .done _
    · split at h
      · cases h
        exact .one (by simp [canMake]) (.anomaly _ s)
      · exact .step (by simp [canMake]) (.session Session.zero s) (moves_send (by simp [canMake]) (by simp [canMake]) h)
  | radioRx ts data =>
    unfold exec execRadioRx at h
    refine moves_operate h fun h => .step (by simp [canMake]) (.latch ts s) ?_
    refine (receive_moves h).mono fun k hk => ?_
    have : (receivedBytes data).getD 2 0 = data.getD 2 0 := by
      simp [receivedBytes, Config.maxFrame, List.getD_eq_getElem?_getD]
    rw [this] at hk
    rcases hk with rfl | hk
    · simp [canMake]
    · exact decide_eq_true (.inr (.inr hk))
  | radioTxDone ts =>
    unfold exec execRadioTxDone at h
    refine moves_operate h fun h => ?_
    split at h
    · next hb =>
      obtain ⟨x, hx⟩ := captureTxDone_eq ts s
      rw [hx, armRx_idle rfl] at h
      cases h
      exact .step (by simp [canMake]) (.session x s)
        (.one (by simp [canMake]) (.complete (s := { s with session := x }) hb))
    · cases h
      exact .one (by simp [canMake]) (.anomaly _ s)
  | illegalOp op =>
    unfold exec execIllegalOp at h
    refine moves_operate h fun h => ?_
    cases h
    exact .one (by simp [canMake]) (.anomaly _ s)
  | rangePoll f => exact execFrame_moves (type := 0) (f := f) h
  | rangeResponse f => exact execFrame_moves (type := 1) (f := f) h
  | rangeFinal f => exact execFrame_moves (type := 2) (f := f) h
  | rangeTransfer f => exact execFrame_moves (type := 3) (f := f) h
  | rangeReport f => exact execFrame_moves (type := 5) (f := f) h
  | rangeRequest f => exact execFrame_moves (type := 6) (f := f) h
  | dataRelay f => exact execFrame_moves (type := 42) (f := f) h
  | ping f => exact execFrame_moves (type := 254) (f := f) h
  | pong f => exact execFrame_moves (type := 255) (f := f) h
  | unassignedType ty f => exact execFrame_moves (type := 4) (f := f) h
  | pprzPacket data =>
    unfold exec execPprzPacket at h
    exact moves_operate h fun h =>
      moves_acceptPacket (by simp [canMake]) (by simp [canMake]) (by simp [canMake]) h
  | pprzRangeReport a b c d r =>
    unfold exec execPprzRangeReport at h
    refine moves_operate h fun h => ?_
    rw [← Host.Outcome.next.inj h, pushReport]
    exact moves_pushTxAll (by simp [canMake]) _ s

end Sys2Proof.Machine
end

