-- ==== Sys2Proof/Laws/PerInstr.lean ====
section
/-! SUPPORT. The family EncodeLength: every well-formed instruction is 1 to 262 bytes long (spec/30_encoding.md
R94, R97, R106), said for each instruction. -/

namespace Sys2Proof.Laws

/-- The encoding of a well-formed instruction has at least one byte and at most as many as the longest
RADIO_RX. -/
def EncodeLength.Statement (i : Instr) : Prop :=
  WellFormed i → 1 ≤ (encode i).length ∧ (encode i).length ≤ Config.maxOpBytes

theorem length_encodeFrame (type : Byte) (f : FrameBody) :
    (encodeFrame type f).length = 4 + f.payload.length := by
  simp [encodeFrame]
  omega

theorem EncodeLength.frame (type : Byte) {f : FrameBody} (h : f.wellFormed = true) :
    1 ≤ (encodeFrame type f).length ∧ (encodeFrame type f).length ≤ Config.maxOpBytes := by
  have : f.payload.length ≤ Config.maxPayload := of_decide_eq_true h
  rw [length_encodeFrame]
  simp only [Config.maxPayload, Config.maxOpBytes] at *
  omega

theorem EncodeLength.reset (flags : Byte) : EncodeLength.Statement (.reset flags) :=
  fun _ => by simp [encode, Config.maxOpBytes]

theorem EncodeLength.uartRxByte (b : Byte) : EncodeLength.Statement (.uartRxByte b) :=
  fun _ => by simp [encode, Config.maxOpBytes]

theorem EncodeLength.parseStep : EncodeLength.Statement .parseStep :=
  fun _ => by simp [encode, Config.maxOpBytes]

theorem EncodeLength.txrbPop : EncodeLength.Statement .txrbPop :=
  fun _ => by simp [encode, Config.maxOpBytes]

theorem EncodeLength.pollTick : EncodeLength.Statement .pollTick :=
  fun _ => by simp [encode, Config.maxOpBytes]

theorem EncodeLength.radioRx (rxTs : Timestamp) (data : List Byte) :
    EncodeLength.Statement (.radioRx rxTs data) := by
  intro h
  have : data.length ≤ 255 := of_decide_eq_true h
  simp only [encode, List.length_cons, List.length_append, length_leBytes, Config.maxOpBytes]
  omega

theorem EncodeLength.radioTxDone (txTs : Timestamp) : EncodeLength.Statement (.radioTxDone txTs) :=
  fun _ => by simp [encode, Config.maxOpBytes]

theorem EncodeLength.illegalOp (opcode : Byte) : EncodeLength.Statement (.illegalOp opcode) :=
  fun _ => by simp [encode, Config.maxOpBytes]

theorem EncodeLength.rangePoll (f : FrameBody) : EncodeLength.Statement (.rangePoll f) :=
  fun h => EncodeLength.frame _ h

theorem EncodeLength.rangeResponse (f : FrameBody) : EncodeLength.Statement (.rangeResponse f) :=
  fun h => EncodeLength.frame _ h

theorem EncodeLength.rangeFinal (f : FrameBody) : EncodeLength.Statement (.rangeFinal f) :=
  fun h => EncodeLength.frame _ h

theorem EncodeLength.rangeTransfer (f : FrameBody) : EncodeLength.Statement (.rangeTransfer f) :=
  fun h => EncodeLength.frame _ h

theorem EncodeLength.rangeReport (f : FrameBody) : EncodeLength.Statement (.rangeReport f) :=
  fun h => EncodeLength.frame _ h

theorem EncodeLength.rangeRequest (f : FrameBody) : EncodeLength.Statement (.rangeRequest f) :=
  fun h => EncodeLength.frame _ h

theorem EncodeLength.dataRelay (f : FrameBody) : EncodeLength.Statement (.dataRelay f) :=
  fun h => EncodeLength.frame _ h

theorem EncodeLength.ping (f : FrameBody) : EncodeLength.Statement (.ping f) :=
  fun h => EncodeLength.frame _ h

theorem EncodeLength.pong (f : FrameBody) : EncodeLength.Statement (.pong f) :=
  fun h => EncodeLength.frame _ h

theorem EncodeLength.unassignedType (type : Byte) (f : FrameBody) :
    EncodeLength.Statement (.unassignedType type f) := by
  intro h
  simp only [WellFormed, Instr.wellFormed, Bool.and_eq_true] at h
  exact EncodeLength.frame type h.2

theorem EncodeLength.pprzPacket (data : List Byte) : EncodeLength.Statement (.pprzPacket data) := by
  intro h
  have := of_decide_eq_true h
  simp only [encode, length_pprzEncode, Config.maxOpBytes]
  omega

theorem EncodeLength.pprzRangeReport (sender msgId src dest : Byte) (range : F64) :
    EncodeLength.Statement (.pprzRangeReport sender msgId src dest range) :=
  fun _ => by simp [encode, Config.maxOpBytes]

end Sys2Proof.Laws
end

