-- ==== Sys2Proof/Machine/Mesh.lean ====
section
/-! DEFINITION. A mesh of FRC nodes joined by the radio medium (spec/60_exceptions.md R276, R274, R268):
what the medium and each node's environment may do. Which nodes hear a frame, and when, is open (I26, I27),
so the mesh is a relation (assumption 15). -/

namespace Sys2Proof.Machine

/-- A frame that a node has transmitted, as the medium holds it: what may still be presented of it. -/
structure OnAir where
  /-- The sender's place in the mesh. -/
  sender : Nat
  /-- The bytes of its TX_FRAME command. -/
  bytes : List Byte
  /-- The nodes it has been presented to. -/
  heardBy : List Nat
  /-- Its sender has been told that the transmission is complete. -/
  told : Bool
deriving DecidableEq, Repr

/-- The nodes of a mesh, one FRC each, which share no state, and the frames they have transmitted. -/
structure Mesh where
  nodes : List State
  air : List OnAir
deriving DecidableEq, Repr

/-- Distinct LOCAL_ADDR values and one shared ANCHOR_ADDR (R276, R294). -/
def Mesh.wf (m : Mesh) : Bool :=
  decide ((m.nodes.map (fun s => s.cfg.localAddr)).Nodup) &&
  m.nodes.all (fun s => m.nodes.all (fun t => decide (s.cfg.anchorAddr = t.cfg.anchorAddr)))

/-- An operation presented to a node, after those already presented (R76). -/
def present (i : Instr) (s : State) : State := { s with input := s.input ++ encode i }

/-- An operation presented to the k-th node. -/
def Mesh.presentTo (m : Mesh) (k : Nat) (i : Instr) : Mesh :=
  { m with nodes := m.nodes.modify k (present i) }

/-- The frames among the commands that node k emitted, not yet presented to anyone. -/
def launched (k : Nat) (cmds : List Command) : List OnAir :=
  cmds.filterMap (fun c =>
    match c with
    | .txFrame bytes => some ⟨k, bytes, [], false⟩
    | .armRx => none
    | .uartTxByte _ => none
    | .halReset => none
    | .halConfigure _ _ _ => none)

/-- Node k has moved from s to t: the frames it emitted are on the air. -/
def Mesh.moveNode (m : Mesh) (k : Nat) (s t : State) : Mesh :=
  ⟨m.nodes.set k t, m.air ++ launched k (t.out.drop s.out.length)⟩

/-- The operations that are not radio events: a node's UART, main loop, timer and host present them at any
time (R266, R76). -/
def notRadioEvent (i : Instr) : Bool :=
  match i with
  | .radioRx _ _ => false
  | .radioTxDone _ => false
  | _ => decide (i.format = .inputOp)

/-- What can happen next in a mesh. R276 says which events a TX_FRAME raises and is silent on their order:
DESIGN CHOICE (assumption 15), none is imposed. Each hearing of a frame and its completion at the sender are
moves of their own, so hearers come before or after the sender's RADIO_TX_DONE, in any order among
themselves, with any steps of any node between; a reply may be presented to the sender before its own
RADIO_TX_DONE. -/
inductive Mesh.Next : Mesh → Mesh → Prop where
  /-- A node takes a step. -/
  | node {m : Mesh} {k : Nat} {s t : State} (at_k : m.nodes[k]? = some s) (moved : step s = .next t) :
      Mesh.Next m (m.moveNode k s t)
  /-- A node's own environment presents an operation. -/
  | operation {m : Mesh} {k : Nat} {i : Instr} (wf : i.wellFormed = true)
      (own : notRadioEvent i = true) : Mesh.Next m (m.presentTo k i)
  /-- Another node hears a frame, at a timestamp of its own, once (R276, R274); a frame lost to a node is one
  for which this move is never made. -/
  | heard {m : Mesh} {j k : Nat} {f : OnAir} {rxTs : Timestamp} (at_j : m.air[j]? = some f)
      (isNode : k < m.nodes.length) (other : k ≠ f.sender) (once : k ∉ f.heardBy) :
      Mesh.Next m { (m.presentTo k (.radioRx rxTs f.bytes)) with
        air := m.air.set j { f with heardBy := k :: f.heardBy } }
  /-- The sender is told, once, that the transmission is complete (R276, R274). -/
  | completed {m : Mesh} {j : Nat} {f : OnAir} {txTs : Timestamp} (at_j : m.air[j]? = some f)
      (once : f.told = false) :
      Mesh.Next m { (m.presentTo f.sender (.radioTxDone txTs)) with
        air := m.air.set j { f with told := true } }

end Sys2Proof.Machine
end

