-- ==== Sys2Proof/Tests/Slice0.lean ====
section
/-! SUPPORT. The model's own tests. Expected values come from spec/95_test_vectors.md (the vector is named in
each comment) or are written out from the spec's encodings; the witnesses show that no obligation's hypotheses
are empty. -/

namespace Sys2Proof.Tests

open Sys2Proof.Machine

-- Helpers

/-- A running node of the vectors' configuration (section 0) with an address. -/
def node (l : Byte) : State :=
  { State.reset with
    cfg := { exampleCfg with localAddr := l }
    envCfg := { exampleCfg with localAddr := l } }

/-- Node A, the initiator. -/
def nodeA : State := node 2

/-- Node B, the anchor. -/
def nodeB : State := node 1

/-- A ring with an offset and a content. -/
def ring (rd : Byte) (content : List Byte) : RingBuf :=
  content.foldl RingBuf.append ⟨[], rd, 0⟩

/-- A ring that holds n bytes 0x00. -/
def zeros (n : Nat) : RingBuf := ⟨[], 0, n⟩

/-- A node whose RXRB holds the bytes. -/
def fed (s : State) (bytes : List Byte) : State := { s with rxrb := ring 0 bytes }

/-- A node with a frame in flight. -/
def sending (s : State) (type : Byte) : State :=
  { s with
    txBusy := true
    rxArmed := false
    lastTx := ⟨4, Memory.writeAll [] 0 [s.cfg.localAddr, 9, type, 0]⟩
    out := s.out ++ [.txFrame [s.cfg.localAddr, 9, type, 0]] }

/-- A node that halted. -/
def haltedNode : State := { nodeA with halted := true, rxArmed := false, lastErr := 0x10 }

/-- The outcome is a next state that passes a check. -/
def answers (r : Result) (p : State → Bool) : Bool :=
  match r with
  | .next t => p t
  | .fault _ => false
  | .refused _ => false

/-- The outcome is a refusal with this reason. -/
def refuses (r : Result) (e : Refusal) : Bool :=
  match r with
  | .next _ => false
  | .fault _ => false
  | .refused e' => decide (e = e')

/-- RADIO_RX of a frame at 0x100 (section 2.10). -/
def heard (s : State) (bytes : List Byte) : Result := exec (.radioRx 0x100 bytes) s

/-- The bytes r of section 0. -/
def r : List Byte := [0x7E, 0xC9, 0xE9, 0x54, 0x3D, 0x85, 0xF6, 0x3F]

/-- A frame to node B from node A, for the frame instructions. -/
def toB (payload : List Byte) : FrameBody := ⟨2, 1, 0, payload⟩

/-- REF of four intervals, as the bytes sent (section 2.5). -/
def fm (round1 reply1 round2 reply2 : Nat) (cal : F64) : List Byte :=
  distBytes (refNumerics ((round1 : Int) * round2 - (reply1 : Int) * reply2)
    (round1 + reply1 + round2 + reply2) cal)

-- WellFormed: one ill-formed term for each check, which the check refuses

theorem test_wf_radioRx_too_long : ¬ WellFormed (.radioRx 0 (List.replicate 256 0)) := by decide +kernel
theorem test_wf_illegalOp_assigned : ¬ WellFormed (.illegalOp 6) := by decide
theorem test_wf_rangePoll_long : ¬ WellFormed (.rangePoll (toB (List.replicate 16 0))) := by decide
theorem test_wf_rangeResponse_long : ¬ WellFormed (.rangeResponse (toB (List.replicate 16 0))) := by
  decide
theorem test_wf_rangeFinal_long : ¬ WellFormed (.rangeFinal (toB (List.replicate 16 0))) := by decide
theorem test_wf_rangeTransfer_long : ¬ WellFormed (.rangeTransfer (toB (List.replicate 16 0))) := by
  decide
theorem test_wf_rangeReport_long : ¬ WellFormed (.rangeReport (toB (List.replicate 16 0))) := by decide
theorem test_wf_rangeRequest_long : ¬ WellFormed (.rangeRequest (toB (List.replicate 16 0))) := by decide
theorem test_wf_dataRelay_long : ¬ WellFormed (.dataRelay (toB (List.replicate 16 0))) := by decide
theorem test_wf_ping_long : ¬ WellFormed (.ping (toB (List.replicate 16 0))) := by decide
theorem test_wf_pong_long : ¬ WellFormed (.pong (toB (List.replicate 16 0))) := by decide
theorem test_wf_unassignedType_long : ¬ WellFormed (.unassignedType 4 (toB (List.replicate 16 0))) := by
  decide
theorem test_wf_unassignedType_assigned :
    ∀ t ∈ assignedTypes, ¬ WellFormed (.unassignedType t (toB [])) := by decide
theorem test_wf_pprzPacket_short : ¬ WellFormed (.pprzPacket [1]) := by decide
theorem test_wf_pprzPacket_long : ¬ WellFormed (.pprzPacket (List.replicate 252 0)) := by decide +kernel

theorem test_cfg_local_zero : { exampleCfg with localAddr := 0 }.valid = false := by decide
theorem test_cfg_local_broadcast : { exampleCfg with localAddr := 255 }.valid = false := by decide
theorem test_cfg_anchor_zero : { exampleCfg with anchorAddr := 0 }.valid = false := by decide
theorem test_cfg_anchor_broadcast : { exampleCfg with anchorAddr := 255 }.valid = false := by decide
theorem test_cfg_cal_not_finite :
    { exampleCfg with calOffset := 0x7FF0000000000000 }.valid = false ∧
      { exampleCfg with calOffset := 0xFFF8000000000000 }.valid = false := by decide

-- Decoding: words written out from the spec's encodings (R91, R97, R100, R106, R110)

/-- EN-1 to EN-3. -/
theorem test_decode_reset :
    decodeOp [0x00, 0x01] = .ok (.reset 1, []) ∧ decodeOp [0x00, 0xFE] = .ok (.reset 0xFE, []) ∧
      initOk 0xFE = false ∧ initOk 0x03 = true := by decide
/-- EN-4. -/
theorem test_decode_uartRxByte : decodeOp [0x01, 0x99] = .ok (.uartRxByte 0x99, []) := by decide
/-- EN-10: a stream of four operations. -/
theorem test_decode_stream :
    decodeOp [0x04, 0x02, 0x00, 0x01, 0x03] = .ok (.pollTick, [0x02, 0x00, 0x01, 0x03]) ∧
      decodeOp [0x02, 0x00, 0x01, 0x03] = .ok (.parseStep, [0x00, 0x01, 0x03]) ∧
      decodeOp [0x00, 0x01, 0x03] = .ok (.reset 1, [0x03]) ∧
      decodeOp [0x03] = .ok (.txrbPop, []) := by decide
/-- EN-6 and EN-7. -/
theorem test_decode_radioRx :
    decodeOp [0x05, 0x00, 0x50, 0x00, 0x00, 0x00, 0x04, 0x02, 0x01, 0x00, 0x00] =
        .ok (.radioRx 0x0000005000 [0x02, 0x01, 0x00, 0x00], []) ∧
      decodeOp [0x05, 0x38, 0xFF, 0xFF, 0xFF, 0xFF, 0x00] = .ok (.radioRx 0xFFFFFFFF38 [], []) := by
  decide
/-- EN-8. -/
theorem test_decode_radioTxDone :
    decodeOp [0x06, 0xC8, 0x00, 0x00, 0x00, 0x00] = .ok (.radioTxDone 0xC8, []) := by decide
/-- EN-9. -/
theorem test_decode_illegalOp :
    decodeOp [0x07] = .ok (.illegalOp 0x07, []) ∧ decodeOp [0x80] = .ok (.illegalOp 0x80, []) ∧
      decodeOp [0xFF] = .ok (.illegalOp 0xFF, []) := by decide
theorem test_decode_truncated :
    decodeOp [0x06, 0xC8] = .error .truncatedOperation ∧ decodeOp [] = .error .noOperation := by decide
/-- CD-1, CD-3 and the type tags of R100 and R101. -/
theorem test_decode_rangePoll : decodeFrame [2, 1, 0x00, 7] = .ok (.rangePoll ⟨2, 1, 7, []⟩) := by decide
theorem test_decode_rangeResponse :
    decodeFrame [1, 2, 0x01, 0] = .ok (.rangeResponse ⟨1, 2, 0, []⟩) := by decide
theorem test_decode_rangeFinal : decodeFrame [2, 1, 0x02, 1] = .ok (.rangeFinal ⟨2, 1, 1, []⟩) := by
  decide
/-- CD-2. -/
theorem test_decode_rangeTransfer :
    decodeFrame [1, 2, 3, 1, 0x00, 0x50, 0, 0, 0, 0x90, 0x51, 0, 0, 0, 0x78, 0x55, 0, 0, 0] =
      .ok (.rangeTransfer
        ⟨1, 2, 1, [0x00, 0x50, 0, 0, 0, 0x90, 0x51, 0, 0, 0, 0x78, 0x55, 0, 0, 0]⟩) := by decide
theorem test_decode_rangeReport :
    decodeFrame [2, 1, 0x05, 2, 0x7E, 0xC9, 0xE9, 0x54, 0x3D, 0x85, 0xF6, 0x3F] =
      .ok (.rangeReport ⟨2, 1, 2, r⟩) := by decide
theorem test_decode_rangeRequest :
    decodeFrame [2, 1, 0x06, 0] = .ok (.rangeRequest ⟨2, 1, 0, []⟩) := by decide
theorem test_decode_dataRelay :
    decodeFrame [2, 255, 0x2A, 0, 0xAA] = .ok (.dataRelay ⟨2, 255, 0, [0xAA]⟩) := by decide
theorem test_decode_ping : decodeFrame [0x2B, 0, 0xFE, 9] = .ok (.ping ⟨0x2B, 0, 9, []⟩) := by decide
theorem test_decode_pong : decodeFrame [0x2B, 1, 0xFF, 10] = .ok (.pong ⟨0x2B, 1, 10, []⟩) := by decide
/-- CD-4, and a type at each end of R101's ranges. -/
theorem test_decode_unassignedType :
    decodeFrame [5, 5, 0x80, 0xFF, 0xAA] = .ok (.unassignedType 0x80 ⟨5, 5, 0xFF, [0xAA]⟩) ∧
      decodeFrame [5, 5, 4, 0] = .ok (.unassignedType 4 ⟨5, 5, 0, []⟩) ∧
      decodeFrame [5, 5, 41, 0] = .ok (.unassignedType 41 ⟨5, 5, 0, []⟩) ∧
      decodeFrame [5, 5, 253, 0] = .ok (.unassignedType 253 ⟨5, 5, 0, []⟩) := by decide
theorem test_decode_not_a_frame :
    decodeFrame [2, 1, 0] = .error .notAFrame ∧
      decodeFrame (List.replicate 20 0) = .error .notAFrame := by decide
/-- PZ-1 and PZ-4, with bytes behind. -/
theorem test_decode_pprzPacket :
    decodePprz [0x99, 0x06, 0x01, 0x02, 0x09, 0x16, 0xAA] = .ok (.pprzPacket [1, 2], [0xAA]) ∧
      decodePprz [0x99, 0x06, 0x99, 0x99, 0x38, 0xDD] = .ok (.pprzPacket [0x99, 0x99], []) ∧
      decodePprz [0x99, 0x06, 0x01, 0x02, 0x09, 0x17] = .error .notAPacket := by decide
/-- PZ-7. -/
theorem test_decode_pprzRangeReport :
    decodeReport [0x99, 0x10, 2, 0x40, 2, 1, 0x7E, 0xC9, 0xE9, 0x54, 0x3D, 0x85, 0xF6, 0x3F, 0xD0, 0xFC] =
      .ok (.pprzRangeReport 2 0x40 2 1 0x3FF6853D54E9C97E, []) := by decide
theorem test_decode_not_a_report :
    decodeReport [0x99, 0x06, 0x01, 0x02, 0x09, 0x16] = .error .notAReport := by decide
/-- PZ-2, PZ-3 and PZ-5. -/
theorem test_pprzEncode :
    pprzEncode [0, 0] = [0x99, 0x06, 0x00, 0x00, 0x06, 0x12] ∧
      pprzEncode [0xFF, 0xFF] = [0x99, 0x06, 0xFF, 0xFF, 0x04, 0x0F] ∧
      pprzEncode [1, 2, 3, 4, 5, 6, 7, 8, 9, 10, 11] =
        [0x99, 0x0F, 1, 2, 3, 4, 5, 6, 7, 8, 9, 10, 11, 0x51, 0xD2] := by decide
/-- PZ-6: LEN 0xFF, CKA 0xFF, CKB 0x04. -/
theorem test_pprzEncode_longest :
    (pprzEncode (List.replicate 251 0)).getD 1 0 = 0xFF ∧
      (pprzEncode (List.replicate 251 0)).drop 253 = [0xFF, 0x04] := by decide +kernel
/-- Table words are read as operations (assumption 2). -/
theorem test_tableWord :
    decodeTableWord 8 0x02 = some .parseStep ∧ decodeTableWord 8 0x05 = some (.radioRx 0 []) ∧
      decodeTableWord 8 0x07 = some (.illegalOp 7) := by decide +kernel
theorem test_step_runs_table_word :
    answers (step (State.reset.withFetchWord 8 0x07)) (fun t => decide (t.cnt.illegalOp = 1)) = true ∧
      answers (step (State.reset.withFetchWord 8 0x05)) (fun t => decide (t.cnt.shortFrame = 1)) = true := by
  decide +kernel

-- Instructions

/-- RS-1: three commands in order; the counters and RXRB are cleared. -/
theorem test_reset_ok :
    answers (exec (.reset 1) { sending (fed nodeA [1, 2]) 0 with cnt := { Counters.zero with ownSrc := 3 } })
      (fun t => decide (t.out.drop 1 = [.halReset, .halConfigure 0 0 0, .armRx] ∧ t.cnt = Counters.zero ∧
        t.rxrb.content = [] ∧ t.txBusy = false ∧ t.rxArmed = true ∧ t.halted = false)) = true := by decide
/-- RS-2. -/
theorem test_reset_fail :
    answers (exec (.reset 0) nodeA)
      (fun t => decide (t.out = [.halReset, .halConfigure 0 0 0] ∧ t.halted = true ∧ t.rxArmed = false ∧
        t.lastErr = 0x10)) = true := by decide
/-- RS-7. -/
theorem test_reset_refused :
    refuses (exec (.reset 1) { nodeA with envCfg := { exampleCfg with localAddr := 255 } })
      .badConfiguration = true := by decide
/-- RB-2: the write position wraps. -/
theorem test_uartRxByte_wraps :
    answers (exec (.uartRxByte 0x07) { nodeA with rxrb := ring 250 [0, 1, 2, 3, 4, 5, 6] })
      (fun t => decide (Memory.read t.rxrb.mem 1 = 7 ∧ t.rxrb.content = [0, 1, 2, 3, 4, 5, 6, 7] ∧
        t.rxrb.rd = 250 ∧ t.rxrb.count = 8)) = true := by decide
/-- RB-1. -/
theorem test_uartRxByte_full :
    answers (exec (.uartRxByte 0x5A) { nodeA with rxrb := zeros 256 })
      (fun t => decide (t.rxrb = zeros 256 ∧ t.cnt.rxrbDrop = 1 ∧ t.lastErr = 0x06)) = true := by decide
/-- PZ-12: the second PARSE_STEP of PZ-12b. -/
theorem test_parseStep_resync :
    answers (exec .parseStep (fed nodeA [0x06, 1, 2, 9, 0x17, 0x99, 0x06, 1, 2, 9, 0x16]))
      (fun t => decide (t.out = [.txFrame [2, 0xFF, 0x2A, 0, 0x99, 0x06, 1, 2, 9, 0x16]] ∧
        t.rxrb.content = [] ∧ t.cnt.pprzDiscard = 5 ∧ t.cnt.pprzOk = 1 ∧ t.lastErr = 0x08)) = true := by
  decide +kernel
/-- PZ-10, PZ-11, PZ-15: a bad LEN drops one byte; a LEN not yet filled waits. -/
theorem test_parseStep_len :
    answers (exec .parseStep (fed nodeA [0x99, 0x05, 0x99, 0x07, 0x00]))
        (fun t => decide (t.rxrb.content = [0x05, 0x99, 0x07, 0x00] ∧ t.cnt.pprzBadLen = 1)) = true ∧
      exec .parseStep (fed nodeA [0x99, 0x10, 2, 3, 4]) = .next (fed nodeA [0x99, 0x10, 2, 3, 4]) ∧
      exec .parseStep (fed nodeA [0x99, 0x99, 0, 0, 0]) = .next (fed nodeA [0x99, 0x99, 0, 0, 0]) := by
  refine ⟨by decide +kernel, rfl, rfl⟩
/-- RB-5. -/
theorem test_txrbPop :
    answers (exec .txrbPop { nodeA with txrb := ring 255 [0x99, 0x06] })
        (fun t => decide (t.out = [.uartTxByte 0x99] ∧ t.txrb.content = [0x06] ∧ t.txrb.rd = 0)) = true ∧
      exec .txrbPop nodeA = .next nodeA := ⟨by decide, rfl⟩
/-- PT-2 and PT-4: the session is cleared; the sequence number wraps. -/
theorem test_pollTick_polls :
    answers (exec .pollTick { nodeA with session := ⟨1, 2, 3, 4, 5, 6⟩, seqCtr := 255 })
      (fun t => decide (t.out = [.txFrame [2, 1, 0, 0xFF]] ∧ t.session = Session.zero ∧ t.seqCtr = 0 ∧
        t.txBusy = true ∧ t.rxArmed = false)) = true := by decide
/-- PT-1 and PT-3. -/
theorem test_pollTick_does_not_poll :
    exec .pollTick nodeB = .next nodeB ∧
      answers (exec .pollTick { sending nodeA 0 with session := ⟨1, 2, 3, 4, 5, 6⟩ })
        (fun t => decide (t.session = ⟨1, 2, 3, 4, 5, 6⟩ ∧ t.cnt.pollSkipped = 1 ∧ t.lastErr = 0x0D)) =
        true := ⟨rfl, by decide⟩
/-- RT-29: a short frame latches the timestamp, not the frame. -/
theorem test_radioRx_short :
    answers (heard nodeB [2, 1, 0])
      (fun t => decide (t.out = [.armRx] ∧ t.lastRxTs = 0x100 ∧ t.lastRx = FrameBuf.empty ∧
        t.cnt.shortFrame = 1 ∧ t.lastErr = 0x04)) = true := by decide
/-- RT-31: 21 bytes are truncated to 19. -/
theorem test_radioRx_truncates :
    answers (heard nodeB ([2, 1, 0x2A, 0] ++ [1, 2, 3, 4, 5, 6, 7, 8, 9, 10, 11, 12, 13, 14, 15, 16, 17]))
      (fun t => decide (t.txrb.content = [1, 2, 3, 4, 5, 6, 7, 8, 9, 10, 11, 12, 13, 14, 15] ∧
        t.lastRx.len = 19)) = true := by decide +kernel
/-- TD-2. -/
theorem test_radioTxDone_response :
    answers (exec (.radioTxDone 0x5190) { sending nodeB 1 with lastRxTs := 0x5000, out := [] })
      (fun t => decide (t.session = ⟨0, 0x5000, 0x5190, 0, 0, 0⟩ ∧ t.out = [.armRx] ∧
        t.txBusy = false ∧ t.rxArmed = true)) = true := by decide
/-- TD-1, TD-3, TD-4. -/
theorem test_radioTxDone_others :
    answers (exec (.radioTxDone 0x1000) (sending nodeA 0))
        (fun t => decide (t.session = ⟨0x1000, 0, 0, 0, 0, 0⟩)) = true ∧
      answers (exec (.radioTxDone 0x1578) { sending nodeA 2 with lastRxTs := 0x13E8 })
        (fun t => decide (t.session = ⟨0, 0, 0, 0, 0x13E8, 0x1578⟩)) = true ∧
      answers (exec (.radioTxDone 0x1578) (sending nodeA 3))
        (fun t => decide (t.session = Session.zero ∧ t.txBusy = false)) = true := by decide
/-- RS-5, RS-3. -/
theorem test_illegalOp :
    answers (exec (.illegalOp 7) nodeA)
        (fun t => decide (t = { nodeA with cnt := { Counters.zero with illegalOp := 1 }, lastErr := 0x0F })) =
        true ∧
      exec (.illegalOp 7) haltedNode = .next haltedNode := ⟨by decide, rfl⟩
/-- RT-3. -/
theorem test_rangePoll :
    answers (heard nodeB [2, 1, 0, 0])
      (fun t => decide (t.out = [.txFrame [1, 2, 1, 0]] ∧ t.seqCtr = 1 ∧ t.txBusy = true)) = true := by decide
/-- RT-5. -/
theorem test_rangeResponse :
    answers (heard nodeB [2, 1, 1, 0]) (fun t => decide (t.out = [.txFrame [1, 2, 2, 0]])) = true := by decide
/-- RT-6. -/
theorem test_rangeFinal :
    answers (heard nodeB [2, 1, 2, 0])
      (fun t => decide (t.out =
          [.txFrame [1, 2, 3, 0, 0, 0, 0, 0, 0, 0, 0, 0, 0, 0, 0, 1, 0, 0, 0]] ∧
        t.session.tEndRound2 = 0x100)) = true := by decide +kernel
/-- P1 line 15: the distance of FM-1, sent, recorded and pushed. -/
theorem test_rangeTransfer_computes :
    answers (heard { nodeA with session := ⟨0x1000, 0, 0, 0, 0x13E8, 0x1578⟩, seqCtr := 2 }
        [1, 2, 3, 1, 0, 0x50, 0, 0, 0, 0x90, 0x51, 0, 0, 0, 0x78, 0x55, 0, 0, 0])
      (fun t => decide (t.out = [.txFrame ([2, 1, 5, 2] ++ r)] ∧ t.lastDist = 0x3FF6853D54E9C97E ∧
        t.distValid = true ∧
        t.txrb.content = [0x99, 0x10, 2, 0x40, 2, 1] ++ r ++ [0xD0, 0xFC])) = true := by decide +kernel
/-- RT-7 and RT-8. -/
theorem test_rangeTransfer_anomalies :
    answers (heard nodeB ([2, 1, 3, 0] ++ List.replicate 15 0))
        (fun t => decide (t.out = [.armRx] ∧ t.cnt.degenerate = 1 ∧ t.lastErr = 0x03)) = true ∧
      answers (heard nodeB [2, 1, 3, 0, 1, 2, 3])
        (fun t => decide (t.session = Session.zero ∧ t.cnt.shortPayload = 1 ∧ t.lastErr = 0x05)) = true := by
  decide +kernel
/-- RT-22: a foreign report is delivered. -/
theorem test_rangeReport_foreign :
    answers (heard nodeB ([2, 3, 5, 0] ++ r))
      (fun t => decide (t.out = [.armRx] ∧
        t.txrb.content = [0x99, 0x10, 1, 0x40, 2, 3] ++ r ++ [0xD1, 0x02])) = true := by decide +kernel
/-- RB-4: TXRB fills part-way. -/
theorem test_rangeReport_overflow :
    answers (heard { nodeB with txrb := zeros 250 } ([2, 3, 5, 0] ++ r))
      (fun t => decide (t.txrb.content.drop 250 = [0x99, 0x10, 1, 0x40, 2, 3] ∧ t.cnt.txrbDrop = 10 ∧
        t.lastErr = 0x07)) = true := by decide +kernel
/-- RT-11. -/
theorem test_rangeRequest :
    answers (heard nodeB [2, 1, 6, 0])
      (fun t => decide (t.out = [.armRx] ∧ t.cnt.unknownType = 1 ∧ t.lastErr = 0x02)) = true := by decide
/-- RT-13 and RT-24. -/
theorem test_dataRelay :
    answers (heard nodeB [2, 1, 0x2A, 0, 0xAA, 0xBB])
        (fun t => decide (t.out = [.armRx] ∧ t.txrb.content = [0xAA, 0xBB])) = true ∧
      answers (heard nodeB [2, 3, 0x2A, 0, 0xAA])
        (fun t => decide (t.out = [.armRx] ∧ t.txrb.content = [])) = true := by decide
/-- RT-28 and RT-2: a PING from 0 is answered; one from this node's own address is not. -/
theorem test_ping :
    answers (heard nodeB [0, 1, 0xFE, 0]) (fun t => decide (t.out = [.txFrame [1, 0, 0xFF, 0]])) = true ∧
      answers (heard nodeB [1, 0xFF, 0xFE, 0])
        (fun t => decide (t.out = [.armRx] ∧ t.cnt.ownSrc = 1)) = true := by decide
/-- RG-2. -/
theorem test_pong_exact :
    answers (heard nodeB [0x2B, 1, 0xFF, 0])
      (fun t => decide (t.registry = [(5, 0x08)] ∧ hostRegistryKnown t 0x2B = true ∧
        hostRegistryKnown t 0x23 = false ∧ hostRegistryKnown t 0x4B = false)) = true := by decide
/-- RG-3 and RG-4. -/
theorem test_pong_legacy :
    answers (heard { nodeB with cfg := { exampleCfg with registryMode := .legacyAlias } } [0x2B, 1, 0xFF, 0])
      (fun t => decide (t.registry = [(1, 0x08)] ∧ hostRegistryKnown t 0x3B = true ∧
        hostRegistryKnown t 0x2C = false ∧ hostRegistryKnown t 0x4B = false ∧
        hostRegistryKnown t 0x0B = false)) = true := by decide
/-- RT-21 and RT-27. -/
theorem test_unassignedType :
    answers (heard nodeB [2, 255, 0x80, 0]) (fun t => decide (t.cnt.unknownType = 1)) = true ∧
      answers (heard nodeB [2, 3, 7, 0])
        (fun t => decide (t.out = [.armRx] ∧ t.cnt = Counters.zero)) = true := by decide
/-- PZ-14: the largest and the too large packet. -/
theorem test_pprzPacket :
    answers (exec (.pprzPacket [1, 2, 3, 4, 5, 6, 7, 8, 9, 10, 11]) nodeA)
        (fun t => decide (t.out = [.txFrame
          [2, 0xFF, 0x2A, 0, 0x99, 0x0F, 1, 2, 3, 4, 5, 6, 7, 8, 9, 10, 11, 0x51, 0xD2]])) = true ∧
      answers (exec (.pprzPacket (List.replicate 12 0)) nodeA)
        (fun t => decide (t.cnt.relayOversize = 1 ∧ t.cnt.pprzOk = 1 ∧ t.lastErr = 0x0B)) = true := by
  decide +kernel
/-- PZ-7. -/
theorem test_pprzRangeReport :
    answers (exec (.pprzRangeReport 2 0x40 2 1 0x3FF6853D54E9C97E) nodeA)
      (fun t => decide (t.txrb.content = [0x99, 0x10, 2, 0x40, 2, 1] ++ r ++ [0xD0, 0xFC])) = true := by
  decide +kernel

-- Shared arithmetic

/-- DT-1, DT-3, DT-4, DT-5. -/
theorem test_delta40 :
    delta40 0xFFFFFFFFF6 5 = 15 ∧ delta40 10 5 = 1099511627771 ∧
      delta40 0 0xFFFFFFFFFF = 1099511627775 ∧ delta40 0xFFFFFFFFFF 0 = 1 := by decide
/-- FM-1 to FM-4. -/
theorem test_ref_small :
    fm 1000 400 1000 400 0 = r ∧
      fm 1000 400 1000 400 0x3FE0000000000000 = [0xFC, 0x92, 0xD3, 0xA9, 0x7A, 0x0A, 0xED, 0x3F] ∧
      fm 1000 400 1000 400 0x3FF8000000000000 = [0x22, 0x68, 0x63, 0xB1, 0x2A, 0xAC, 0xB7, 0xBF] ∧
      fm 100 400 100 400 0 = [0x7E, 0xC9, 0xE9, 0x54, 0x3D, 0x85, 0xE6, 0xBF] := by decide +kernel
/-- FM-6, FM-7, FM-8 and FM-10. -/
theorem test_ref_extremes :
    fm 1099511627775 1099511627775 1099511627775 1099511627775 0 = List.replicate 8 0 ∧
      fm 1099511627775 0 1099511627775 0 0 = [0x26, 0x39, 0x94, 0xCD, 0xAB, 0x37, 0xE3, 0x41] ∧
      fm 5000 1000 7000 2000 0 = [0x09, 0x4E, 0xD6, 0x8D, 0xCD, 0xA4, 0x24, 0x40] ∧
      fm 0 1 0 1 0 = [0x5E, 0x4C, 0x94, 0xCD, 0xAB, 0x37, 0x63, 0xBF] := by decide +kernel
/-- R155 on PZ-8's remainder, and on a whole packet. -/
theorem test_headView :
    headView nodeA = .hunting ∧ headView (fed nodeA [0x99, 0x06]) = .short ∧
      headView (fed nodeA [0x99, 0x05, 0, 0, 0]) = .badLen ∧
      headView (fed nodeA [0x99, 0x06, 0, 0, 0]) = .waiting ∧
      headView (fed nodeA [0x99, 0x06, 0, 0, 0, 0]) = .checking := by decide
/-- R40: what the host reads after RESET fails. -/
theorem test_hostRead :
    hostRead haltedNode .halted = 1 ∧ hostRead haltedNode .lastErr = 0x10 ∧
      hostRead nodeA (.counter 0x0F) = 0 ∧ hostRead nodeA .localAddr = 2 := by decide
/-- R276: the nodes of program P1 are a mesh; two nodes of one address are not. -/
theorem test_mesh_wf :
    (⟨[nodeA, nodeB, node 3], []⟩ : Mesh).wf = true ∧ (⟨[nodeA, nodeA], []⟩ : Mesh).wf = false := by decide
/-- P1 lines 4 and 6 (R276): node B hears A's poll while A has not yet been told that it is sent. -/
theorem test_mesh_heard_before_told :
    ∃ m u : Mesh, Mesh.Next ⟨[{ nodeA with input := [0x04] }, nodeB], []⟩ m ∧ Mesh.Next m u ∧
      m.air = [⟨0, [2, 1, 0, 0], [], false⟩] ∧ u.air = [⟨0, [2, 1, 0, 0], [1], false⟩] ∧
      u.nodes.map (fun s => s.input) = [[], [0x05, 0x00, 0x50, 0, 0, 0, 0x04, 0x02, 0x01, 0x00, 0x00]] :=
  ⟨_, _, .node (k := 0) rfl rfl,
    .heard (j := 0) (k := 1) (rxTs := 0x5000) rfl (by decide) (by decide) (by decide), by decide, by decide,
    by decide⟩

-- Witnesses: concrete states and operands that meet an obligation's hypotheses, at the ends of their ranges

/-- A packet of 2 data bytes and one of 11 (PZ-1, PZ-5). -/
def smallData : List Byte := [1, 2]
/-- The DATA of PZ-5. -/
def largeData : List Byte := [1, 2, 3, 4, 5, 6, 7, 8, 9, 10, 11]

theorem witness_StepRunsDecodedOperation :
    (¬ (0 < nodeA.held ∧ nodeA.txBusy = false) ∧
      decodeOp { nodeA with input := [0x02, 0x03] }.input = .ok (.parseStep, [0x03]) ∧
      WellFormed .parseStep) ∧
    ¬ (0 < { sending nodeA 0 with held := 1 }.held ∧ { sending nodeA 0 with held := 1 }.txBusy = false) := by
  decide
theorem witness_StepWithoutFetchedOperation :
    (0 < { nodeA with held := 1 }.held ∧ { nodeA with held := 1 }.txBusy = false) ∧
    (nodeA.input = [] ∧ ¬ (0 < nodeA.held ∧ nodeA.txBusy = false)) ∧
    ((sending nodeA 0).input = [] ∧
      ¬ (0 < { sending nodeA 0 with held := 1 }.held ∧ { sending nodeA 0 with held := 1 }.txBusy = false)) := by
  decide
theorem witness_DecodeUndoesEncode :
    WellFormed (.radioRx 0xFFFFFFFFFF (List.replicate 255 0xAA)) ∧ WellFormed (.radioRx 0 []) ∧
      WellFormed (.illegalOp 7) ∧ WellFormed (.illegalOp 255) ∧
      WellFormed (.dataRelay (toB (List.replicate 15 1))) ∧ WellFormed (.unassignedType 253 (toB [])) ∧
      WellFormed (.pprzPacket smallData) ∧ WellFormed (.pprzPacket (List.replicate 251 0)) := by
  decide +kernel
theorem witness_OperationDecodesBeforeAnyRest :
    WellFormed (.radioRx 0xFFFFFFFFFF (List.replicate 255 0xAA)) ∧
      (Instr.radioRx 0xFFFFFFFFFF (List.replicate 255 0xAA)).format = .inputOp := by decide +kernel
theorem witness_EncodeUndoesOperationDecode :
    decodeOp [0x07, 0x01] = .ok (.illegalOp 7, [0x01]) ∧
      decodeOp [0x05, 0, 0, 0, 0, 0, 1, 0xAA, 0x02] = .ok (.radioRx 0 [0xAA], [0x02]) := by decide
theorem witness_FrameCodecRoundTrip :
    (List.replicate 15 (0 : Byte)).length ≤ 15 ∧ 4 ≤ ([0, 0, 0, 0] : List Byte).length ∧
      (List.replicate 19 (0 : Byte)).length ≤ 19 := by decide
theorem witness_StepKeepsInvariant :
    StateInv { nodeA with input := [0x04] } ∧
      answers (step { nodeA with input := [0x04] }) (fun t => t.txBusy) = true ∧
      StateInv { haltedNode with input := [0x04] } ∧
      step { haltedNode with input := [0x04] } = .next haltedNode :=
  ⟨by decide, by decide, by decide, rfl⟩
theorem witness_ResetSucceeds : nodeA.envCfg.valid = true ∧ (0x03 : Byte).getLsbD 0 = true := by decide
theorem witness_ResetFailureHalts : nodeA.envCfg.valid = true ∧ (0xFE : Byte).getLsbD 0 = false := by decide
theorem witness_HaltedIgnoresAllButReset :
    (haltedNode.started = true ∧ haltedNode.halted = true ∧ notReset .pollTick = true) ∧
      answers (exec (.reset 1) haltedNode) (fun t => !t.halted) = true := by decide
theorem witness_RunMustBeginWithReset :
    { nodeA with started := false }.started = false ∧ notReset .pollTick = true := by decide
theorem witness_OnlyResetWritesConfiguration :
    notReset .pollTick = true ∧ answers (exec .pollTick nodeA) (fun t => t.txBusy) = true := by decide
theorem witness_UartByteAppendedOrDropped :
    (Running { nodeA with rxrb := zeros 255 } ∧ { nodeA with rxrb := zeros 255 }.rxrb.count < 256) ∧
      (Running nodeA ∧ nodeA.rxrb.count < 256) ∧
      (Running { nodeA with rxrb := zeros 256 } ∧ { nodeA with rxrb := zeros 256 }.rxrb.count = 256) := by
  decide
theorem witness_TxrbPopEmitsOldestByte :
    (Running { nodeA with txrb := ring 255 [9, 8] } ∧
      { nodeA with txrb := ring 255 [9, 8] }.txrb.content = 9 :: [8]) ∧
      (Running { nodeA with txrb := ring 7 [9] } ∧
        { nodeA with txrb := ring 7 [9] }.txrb.content = 9 :: []) ∧
      (Running nodeA ∧ nodeA.txrb.content = []) := by decide
theorem witness_ParseStepHeldWhileTransmitting :
    Running (sending nodeA 0) ∧ (sending nodeA 0).txBusy = true := by decide
/-- PZ-8, and the empty ring of PZ-17b. -/
theorem witness_ParseDiscardsToStxAndWaits :
    (Running (fed nodeA [0x00, 0x11, 0x99, 0x06]) ∧ (fed nodeA [0x00, 0x11, 0x99, 0x06]).txBusy = false ∧
      (fed nodeA [0x00, 0x11, 0x99, 0x06]).rxrb.content = [0x00, 0x11] ++ [0x99, 0x06] ∧
      (∀ b ∈ ([0x00, 0x11] : List Byte), b ≠ 0x99) ∧
      (([0x99, 0x06] : List Byte).head? = some 0x99) ∧ ([0x99, 0x06] : List Byte).length < 5) ∧
      (nodeA.rxrb.content = [] ++ [] ∧ ([] : List Byte).head? = none) := by decide
/-- PZ-10, with the largest bad LEN and the fewest bytes. -/
theorem witness_ParseRejectsShortLen :
    Running (fed nodeA [0x00, 0x99, 0x05, 0x99, 0x07, 0x00]) ∧
      (fed nodeA [0x00, 0x99, 0x05, 0x99, 0x07, 0x00]).txBusy = false ∧
      (fed nodeA [0x00, 0x99, 0x05, 0x99, 0x07, 0x00]).rxrb.content =
        [0x00] ++ 0x99 :: 0x05 :: [0x99, 0x07, 0x00] ∧
      (∀ b ∈ ([0x00] : List Byte), b ≠ 0x99) ∧ 3 ≤ ([0x99, 0x07, 0x00] : List Byte).length ∧
      (0x05 : Byte).toNat ≤ 5 := by decide
/-- One byte short of the smallest LEN. -/
theorem witness_ParseWaitsForWholePacket :
    Running (fed nodeA [0x00, 0x99, 0x06, 1, 2, 9]) ∧ (fed nodeA [0x00, 0x99, 0x06, 1, 2, 9]).txBusy = false ∧
      (fed nodeA [0x00, 0x99, 0x06, 1, 2, 9]).rxrb.content = [0x00] ++ 0x99 :: 0x06 :: [1, 2, 9] ∧
      (∀ b ∈ ([0x00] : List Byte), b ≠ 0x99) ∧ 3 ≤ ([1, 2, 9] : List Byte).length ∧
      6 ≤ (0x06 : Byte).toNat ∧ ([1, 2, 9] : List Byte).length + 2 < (0x06 : Byte).toNat := by decide
/-- PZ-12 with a byte ahead. -/
theorem witness_ParseRejectsBadChecksum :
    Running (fed nodeA [0x00, 0x99, 0x06, 1, 2, 9, 0x17, 0x99]) ∧
      (fed nodeA [0x00, 0x99, 0x06, 1, 2, 9, 0x17, 0x99]).txBusy = false ∧
      2 ≤ smallData.length ∧ smallData.length ≤ 251 ∧
      (fed nodeA [0x00, 0x99, 0x06, 1, 2, 9, 0x17, 0x99]).rxrb.content =
        [0x00] ++ (0x99 :: BitVec.ofNat 8 (smallData.length + 4) :: smallData) ++ [9, 0x17] ++ [0x99] ∧
      (∀ b ∈ ([0x00] : List Byte), b ≠ 0x99) ∧
      cks (0x99 :: BitVec.ofNat 8 (smallData.length + 4) :: smallData) (smallData.length + 4) ≠
        (9, 0x17) := by decide
/-- PZ-13 and PZ-5: the smallest and the largest packet that is relayed. -/
theorem witness_ParseRelaysValidPacket :
    (Running (fed nodeA [0x00, 0x99, 0x06, 1, 2, 9, 0x16, 0xAA]) ∧
      (fed nodeA [0x00, 0x99, 0x06, 1, 2, 9, 0x16, 0xAA]).txBusy = false ∧
      2 ≤ smallData.length ∧ smallData.length ≤ 11 ∧
      (fed nodeA [0x00, 0x99, 0x06, 1, 2, 9, 0x16, 0xAA]).rxrb.content =
        [0x00] ++ pprzEncode smallData ++ [0xAA] ∧ (∀ b ∈ ([0x00] : List Byte), b ≠ 0x99)) ∧
    (largeData.length ≤ 11 ∧
      (fed nodeA (pprzEncode largeData)).rxrb.content = [] ++ pprzEncode largeData ++ []) := by
  decide +kernel
/-- PZ-14, and the smallest packet too large. -/
theorem witness_ParseDropsOversizePacket :
    (Running (fed nodeA (pprzEncode (List.replicate 12 0))) ∧
      (fed nodeA (pprzEncode (List.replicate 12 0))).txBusy = false ∧
      12 ≤ (List.replicate 12 (0 : Byte)).length ∧ (List.replicate 12 (0 : Byte)).length ≤ 251 ∧
      (fed nodeA (pprzEncode (List.replicate 12 0))).rxrb.content =
        [] ++ pprzEncode (List.replicate 12 0) ++ []) := by decide +kernel
theorem witness_ParserMakesProgress :
    Running (fed nodeA [0x00, 0x99]) ∧ (fed nodeA [0x00, 0x99]).txBusy = false ∧
      answers (exec .parseStep (fed nodeA [0x00, 0x99])) (fun t => decide (t.rxrb.content = [0x99])) = true ∧
      answers (exec .parseStep (fed nodeA [0x99])) (fun t => decide (t.rxrb.content = [0x99])) = true := by
  decide
/-- PZ-12. -/
theorem witness_ResyncAfterCorruptedPacket :
    Running (fed nodeA [0x99, 0x06, 1, 2, 9, 0x17, 0x99, 0x06, 1, 2, 9, 0x16]) ∧
      (fed nodeA [0x99, 0x06, 1, 2, 9, 0x17, 0x99, 0x06, 1, 2, 9, 0x16]).txBusy = false ∧
      2 ≤ smallData.length ∧ smallData.length ≤ 11 ∧
      ([0x06, 1, 2, 9, 0x17] : List Byte) =
        (BitVec.ofNat 8 (smallData.length + 4) :: smallData) ++ [9, 0x17] ∧
      cks (0x99 :: BitVec.ofNat 8 (smallData.length + 4) :: smallData) (smallData.length + 4) ≠
        (9, 0x17) ∧
      (∀ b ∈ ([0x06, 1, 2, 9, 0x17] : List Byte), b ≠ 0x99) ∧
      (fed nodeA [0x99, 0x06, 1, 2, 9, 0x17, 0x99, 0x06, 1, 2, 9, 0x16]).rxrb.content =
        0x99 :: [0x06, 1, 2, 9, 0x17] ++ pprzEncode smallData ++ [] := by decide
theorem witness_ExtractedPacketEffect :
    Running nodeA ∧ largeData.length ≤ 11 ∧ nodeA.txBusy = false ∧ Running (sending nodeA 0) ∧
      (sending nodeA 0).txBusy = true ∧ 12 ≤ (List.replicate 12 (0 : Byte)).length := by decide
theorem witness_RangeReportMessagePushed :
    (Running nodeA ∧ nodeA.txrb.count ≤ 256) ∧
      (Running { nodeA with txrb := zeros 256 } ∧ { nodeA with txrb := zeros 256 }.txrb.count ≤ 256) := by
  decide
theorem witness_OwnSourceFrameDropped :
    Running nodeB ∧ (⟨1, 255, 0, []⟩ : FrameBody).src = nodeB.cfg.localAddr := by decide
theorem witness_ForeignFrameIgnored :
    Running nodeB ∧ (⟨2, 3, 0, []⟩ : FrameBody).src ≠ nodeB.cfg.localAddr ∧
      (⟨2, 3, 0, []⟩ : FrameBody).dest ≠ nodeB.cfg.localAddr ∧ (⟨2, 3, 0, []⟩ : FrameBody).dest ≠ 0 ∧
      (⟨2, 3, 0, []⟩ : FrameBody).dest ≠ 255 ∧ (42 : Byte) ≠ 5 := by decide
theorem witness_UnknownTypeCounted :
    (Running nodeB ∧ (⟨2, 255, 0, []⟩ : FrameBody).src ≠ nodeB.cfg.localAddr ∧
      (5 : Byte) ≠ 42 ∧ (5 : Byte) ≠ 254 ∧ (5 : Byte) ≠ 255 ∧
      ((⟨2, 255, 0, []⟩ : FrameBody).dest ≠ nodeB.cfg.localAddr ∧ (⟨2, 255, 0, []⟩ : FrameBody).dest = 255)) ∧
    ((⟨2, 1, 0, []⟩ : FrameBody).dest = nodeB.cfg.localAddr ∧ (4 : Byte) ≠ 0 ∧ (4 : Byte) ≠ 1 ∧
      (4 : Byte) ≠ 2 ∧ (4 : Byte) ≠ 3 ∧ (4 : Byte) ≠ 5 ∧ (4 : Byte) ≠ 42 ∧ (4 : Byte) ≠ 254 ∧
      (4 : Byte) ≠ 255) := by decide
theorem witness_OwnNonRangingAsBroadcast :
    (toB []).src ≠ nodeB.cfg.localAddr ∧ (toB []).dest = nodeB.cfg.localAddr ∧ nodeB.cfg.localAddr ≠ 0 ∧
      nodeB.cfg.localAddr ≠ 255 ∧ (254 : Byte) ≠ 0 ∧ (254 : Byte) ≠ 1 ∧ (254 : Byte) ≠ 2 ∧
      (254 : Byte) ≠ 3 ∧ (254 : Byte) ≠ 5 := by decide
theorem witness_DataRelayEnqueuesPayload :
    (Running { nodeB with txrb := zeros 255 } ∧ { nodeB with txrb := zeros 255 }.txrb.count ≤ 256 ∧
      (toB [1, 2]).src ≠ nodeB.cfg.localAddr ∧ (toB [1, 2]).dest = nodeB.cfg.localAddr) ∧
    ({ nodeB with txrb := zeros 256 }.txrb.count ≤ 256 ∧ (⟨2, 0, 0, [1]⟩ : FrameBody).dest = 0) := by decide
theorem witness_PingAnsweredByPong :
    Running nodeB ∧ (toB []).src ≠ nodeB.cfg.localAddr ∧ (toB []).dest = nodeB.cfg.localAddr ∧
      nodeB.txBusy = false ∧ Running (sending nodeB 0) ∧ (sending nodeB 0).txBusy = true := by decide
theorem witness_PongRegistersSender :
    Running nodeB ∧ (⟨0xFF, 0, 0, []⟩ : FrameBody).src ≠ nodeB.cfg.localAddr ∧
      (⟨0xFF, 0, 0, []⟩ : FrameBody).dest = 0 ∧
      Running { nodeB with cfg := { exampleCfg with registryMode := .legacyAlias } } := by decide
theorem witness_RefRoundsOnceToNearestEven :
    ((0 : Int) < 1 ∧ (1 : Int) < 2 ^ 42 ∧ -(2 ^ 80 : Int) < 2 ^ 80 - 1 ∧ (2 ^ 80 - 1 : Int) < 2 ^ 80 ∧
      f64Finite 0x7FEFFFFFFFFFFFFF) ∧ f64Finite 0x8000000000000001 ∧ f64Finite 0 := by decide +kernel
theorem witness_PollAnsweredByResponse :
    Running nodeB ∧ (toB [1]).src ≠ nodeB.cfg.localAddr ∧ (toB [1]).dest = nodeB.cfg.localAddr ∧
      nodeB.txBusy = false ∧ (sending nodeB 0).txBusy = true := by decide
theorem witness_ResponseAnsweredByFinal :
    Running nodeB ∧ (toB []).src ≠ nodeB.cfg.localAddr ∧ (toB []).dest = nodeB.cfg.localAddr ∧
      nodeB.txBusy = false ∧ (sending nodeB 1).txBusy = true := by decide
theorem witness_FinalAnsweredByTransfer :
    Running nodeB ∧ (toB []).src ≠ nodeB.cfg.localAddr ∧ (toB []).dest = nodeB.cfg.localAddr ∧
      nodeB.txBusy = false ∧ (sending nodeB 2).txBusy = true := by decide
/-- P1 line 15, with the fullest TXRB that takes the message, and with a full one during a transmission. -/
theorem witness_TransferComputesAndReports :
    Running { nodeA with session := ⟨0x1000, 0, 0, 0, 0x13E8, 0x1578⟩, txrb := zeros 240 } ∧
      (⟨1, 2, 1, [0, 0x50, 0, 0, 0, 0x90, 0x51, 0, 0, 0, 0x78, 0x55, 0, 0, 0]⟩ : FrameBody).src ≠
        nodeA.cfg.localAddr ∧
      (⟨1, 2, 1, []⟩ : FrameBody).dest = nodeA.cfg.localAddr ∧
      ([0, 0x50, 0, 0, 0, 0x90, 0x51, 0, 0, 0, 0x78, 0x55, 0, 0, 0] : List Byte) =
        leBytes 5 (0x5000 : Timestamp).toNat ++ leBytes 5 (0x5190 : Timestamp).toNat ++
          leBytes 5 (0x5578 : Timestamp).toNat ∧
      0 < termD ⟨0x1000, 0x5000, 0x5190, 0x5578, 0x13E8, 0x1578⟩ ∧ (zeros 240).count ≤ 256 ∧
      nodeA.txBusy = false ∧
      (Running { sending nodeA 0 with txrb := zeros 256 } ∧ (zeros 256).count ≤ 256 ∧
        (sending nodeA 0).txBusy = true) := by decide
theorem witness_TransferShortOrDegenerate :
    Running nodeB ∧ (toB (List.replicate 14 0)).src ≠ nodeB.cfg.localAddr ∧
      (toB (List.replicate 14 0)).dest = nodeB.cfg.localAddr ∧
      (toB (List.replicate 14 0)).payload.length < 15 ∧
      (toB (List.replicate 15 0)).payload =
        leBytes 5 (0 : Timestamp).toNat ++ leBytes 5 (0 : Timestamp).toNat ++
          leBytes 5 (0 : Timestamp).toNat ∧
      Session.zero = { nodeB.session with tStartReply1 := 0, tEndReply1 := 0, tEndRound2 := 0 } ∧
      tRound1 Session.zero = 0 ∧ tReply1 Session.zero = 0 ∧ tRound2 Session.zero = 0 ∧
      tReply2 Session.zero = 0 := by decide
theorem witness_ReportDeliveredToTelemetry :
    (Running nodeB ∧ (⟨2, 3, 0, r⟩ : FrameBody).src ≠ nodeB.cfg.localAddr ∧
      (⟨2, 3, 0, r⟩ : FrameBody).dest ≠ 0 ∧ (⟨2, 3, 0, r⟩ : FrameBody).dest ≠ 255 ∧ 8 ≤ r.length ∧
      { nodeB with txrb := zeros 250 }.txrb.count ≤ 256) ∧
    ((toB [1, 2, 3, 4, 5, 6, 7]).dest = nodeB.cfg.localAddr ∧
      (toB [1, 2, 3, 4, 5, 6, 7]).payload.length < 8) := by decide
theorem witness_PollTickPollsTheAnchor :
    (Running nodeB ∧ nodeB.cfg.localAddr = nodeB.cfg.anchorAddr) ∧
      (Running nodeA ∧ nodeA.cfg.localAddr ≠ nodeA.cfg.anchorAddr ∧ nodeA.txBusy = false) ∧
      (Running (sending nodeA 0) ∧ (sending nodeA 0).cfg.localAddr ≠ (sending nodeA 0).cfg.anchorAddr ∧
        (sending nodeA 0).txBusy = true) := by decide
theorem witness_TransmitDoneCapturesAndRearms :
    (Running (sending nodeA 0) ∧ (sending nodeA 0).txBusy = true) ∧ Running nodeA ∧ nodeA.txBusy = false := by
  decide
theorem witness_RadioRxRunsTheFrame :
    Running nodeB ∧ ([2, 1, 0] : List Byte).length < 4 ∧
      ([2, 1, 0, 7] : List Byte).take 19 =
        [(⟨2, 1, 7, []⟩ : FrameBody).src, (⟨2, 1, 7, []⟩ : FrameBody).dest, 0,
          (⟨2, 1, 7, []⟩ : FrameBody).seq] ++ (⟨2, 1, 7, []⟩ : FrameBody).payload ∧
      ([2, 1, 0x2A, 0] ++ List.replicate 17 (9 : Byte)).take 19 =
        [2, 1, 0x2A, 0] ++ List.replicate 15 9 := by decide
theorem witness_ReservedOpcodeCounted : Running nodeA := by decide
theorem witness_RunningOperationsComplete : Running nodeA ∧ notReset .pollTick = true := by decide
theorem witness_SequenceCountsTransmittedFrames :
    notReset .pollTick = true ∧
      answers (exec .pollTick nodeA) (fun t => decide (txFrames t.out = 1 ∧ t.seqCtr = 1)) = true := by decide
theorem witness_RadioEventArmsOrTransmits :
    (Running nodeB ∧ answers (exec (.radioRx 0 [2, 1, 0, 0]) nodeB) (fun t => t.txBusy) = true) ∧
      (Running (sending nodeA 0) ∧ (sending nodeA 0).txBusy = true ∧
        answers (exec (.radioTxDone 0) (sending nodeA 0)) (fun t => t.rxArmed) = true) := by decide
theorem witness_RegistryNeverRead :
    answers (exec (.pong (toB [])) nodeB) (fun t => decide (t.registry ≠ [])) = true := by decide
theorem witness_RegistryWrittenOnlyByPong :
    notReset (.pong (toB [])) = true ∧
      answers (exec (.pong (toB [])) nodeB) (fun t => decide (t.registry ≠ nodeB.registry)) = true := by decide
theorem witness_ReceiverFlagGatesNothing :
    answers (exec (.ping (toB [])) { nodeB with rxArmed := false }) (fun t => t.txBusy) = true := by decide
theorem witness_LostCompletionHangs :
    Running (sending nodeA 0) ∧ (sending nodeA 0).txBusy = true ∧ notReset .pollTick = true ∧
      (∀ ts, Instr.pollTick ≠ .radioTxDone ts) ∧
      answers (exec .pollTick (sending nodeA 0)) (fun t => t.txBusy) = true :=
  ⟨by decide, by decide, by decide, by simp, by decide⟩
theorem witness_SessionWriters :
    notReset .pollTick = true ∧
      answers (exec .pollTick { nodeA with session := ⟨1, 2, 3, 4, 5, 6⟩ })
        (fun t => decide (t.session ≠ ⟨1, 2, 3, 4, 5, 6⟩)) = true := by decide

end Sys2Proof.Tests
end

section
/-! The step of the machine, said once for each of its branches (spec/00_scope.md R5). -/

namespace Sys2Proof.Machine

/-- The test of the step for a held PARSE_STEP, in the words of the obligations. -/
theorem parseReady_iff (s : State) : parseReady s = true ↔ 0 < s.held ∧ s.txBusy = false := by
  simp [parseReady]

/-- Where no held PARSE_STEP can run, a fetched operation runs on the state past its bytes. -/
theorem step_of_fetch_ok {s : State} {i : Instr} {rest : List Byte}
    (waits : parseReady s = false) (fetched : fetch s = .ok (i, rest)) :
    step s = exec i { s with input := rest } := by
  simp [step, waits, fetched]

/-- Settles O1: the branch of `step` that fetches. What the fetch reads is `decodeOp` of the bytes
presented, by definition; well-formedness is not needed, since `exec` is applied to any instruction. -/
theorem stepRunsDecodedOperation : Obligations.StepRunsDecodedOperation := by
  intro s i rest notReady decoded _
  have waits : parseReady s = false := by
    rwa [← parseReady_iff, Bool.not_eq_true] at notReady
  exact step_of_fetch_ok waits decoded

end Sys2Proof.Machine
end

section
/-! The invariant of a run, at reset (spec/10_state.md R43). -/

namespace Sys2Proof.Machine

/-- Settles O9: the state after reset is a closed term, so the check of the invariant evaluates. -/
theorem resetStateMeetsInvariant : Obligations.ResetStateMeetsInvariant := by
  unfold Obligations.ResetStateMeetsInvariant
  decide

end Sys2Proof.Machine
end

section
/-! The invariant of a running FRC in the words of a proof, and what each move does to it. The receiver's
flag stands apart: RADIO_RX clears it before the frame is handled (spec/42_router.md R180), so between two
moves of one operation the receiver may be neither armed nor behind a transmission. -/

namespace Sys2Proof.Machine

/-- The invariant of a running FRC, but for what it says of `rxArmed` (R21 to R35, R60, R61, R66). -/
structure RunInv (s : State) : Prop where
  registry : Memory.wf 32 s.registry = true
  rxrb : s.rxrb.wf = true
  txrb : s.txrb.wf = true
  lastRx : s.lastRx.wf = true
  lastTx : s.lastTx.wf = true
  cfg : s.cfg.valid = true
  lastErr : s.lastErr.toNat ≤ 0x0F
  inFlight : s.txBusy = false ∨ 4 ≤ s.lastTx.len
  ownAddress : s.lastTx.len = 0 ∨ Memory.read s.lastTx.b 0 = s.cfg.localAddr
  distance : s.distValid = true ∨ s.lastDist = 0
  noError : s.lastErr ≠ 0 ∨ s.cnt.noAnomaly = true
  legacy : s.cfg.registryMode = .exact ∨ Memory.wf 8 s.registry = true

/-- The receiver is armed exactly where no transmission is in flight (R24, R126). -/
abbrev ArmedUnlessBusy (s : State) : Prop := s.rxArmed = !s.txBusy

/-- In a running FRC the model's invariant is `RunInv` with the receiver's flag. -/
theorem stateInv_iff_runInv {s : State} (running : Running s) :
    StateInv s ↔ RunInv s ∧ ArmedUnlessBusy s := by
  obtain ⟨hstarted, hhalted⟩ := running
  simp only [StateInv, State.inv, State.invStarted, hstarted, hhalted, Bool.not_true, Bool.false_or,
    Bool.false_eq_true, if_false, Bool.and_eq_true, Bool.or_eq_true, Bool.not_eq_true',
    decide_eq_true_eq]
  constructor
  · rintro ⟨⟨⟨⟨⟨hreg, hrxrb⟩, htxrb⟩, hrx⟩, htx⟩,
      ⟨⟨⟨⟨⟨hcfg, harm, herr⟩, hfl⟩, hown⟩, hdist⟩, hno⟩, hleg⟩
    exact ⟨⟨hreg, hrxrb, htxrb, hrx, htx, hcfg, herr, hfl, hown, hdist, hno, hleg⟩, harm⟩
  · rintro ⟨⟨hreg, hrxrb, htxrb, hrx, htx, hcfg, herr, hfl, hown, hdist, hno, hleg⟩, harm⟩
    exact ⟨⟨⟨⟨⟨hreg, hrxrb⟩, htxrb⟩, hrx⟩, htx⟩,
      ⟨⟨⟨⟨⟨hcfg, harm, herr⟩, hfl⟩, hown⟩, hdist⟩, hno⟩, hleg⟩

-- The byte arrays

theorem RingBuf.wf_iff (r : RingBuf) :
    r.wf = true ↔ Memory.wf 256 r.mem = true ∧ r.count ≤ 256 := by
  simp [RingBuf.wf]

/-- A ring that is not full stays well-formed under `Push` (R62). -/
theorem RingBuf.wf_append {r : RingBuf} (b : Byte) (room : r.count ≠ Config.rbCap)
    (h : r.wf = true) : (r.append b).wf = true := by
  rw [RingBuf.wf_iff] at h ⊢
  obtain ⟨hmem, hcount⟩ := h
  refine ⟨RingBuf.append_mem_wf r b hmem, ?_⟩
  simp only [Config.rbCap] at room
  rw [RingBuf.append_count]
  omega

/-- A ring stays well-formed under `Pop`s (R63). -/
theorem RingBuf.wf_dropN {r : RingBuf} (n : Nat) (h : r.wf = true) : (r.dropN n).wf = true := by
  rw [RingBuf.wf_iff] at h ⊢
  obtain ⟨hmem, hcount⟩ := h
  rw [RingBuf.dropN_mem, RingBuf.dropN_count]
  exact ⟨hmem, by omega⟩

theorem FrameBuf.wf_iff (f : FrameBuf) :
    f.wf = true ↔ Memory.wf 19 f.b = true ∧ (f.len = 0 ∨ 4 ≤ f.len ∧ f.len ≤ 19) := by
  simp [FrameBuf.wf]

/-- What a frame of 4 to 19 bytes leaves in a well-formed frame buffer (R29, R30). -/
theorem FrameBuf.wf_store {old new : FrameBuf} {d : List Byte} (four : 4 ≤ d.length)
    (short : d.length ≤ 19) (h : old.wf = true) (stored : old.store d = some new) :
    new.wf = true ∧ new.len = d.length ∧ Memory.read new.b 0 = d.getD 0 0 := by
  rw [FrameBuf.store_spec old short, Option.some.injEq] at stored
  subst stored
  rw [FrameBuf.wf_iff] at h ⊢
  obtain ⟨hmem, -⟩ := h
  refine ⟨⟨Memory.wf_writeAll d (by omega) hmem, .inr ⟨four, short⟩⟩, rfl, ?_⟩
  rw [Memory.read_writeAll, if_pos (by omega)]

/-- Under LEGACY_ALIAS `RegistrySet` stays inside the first 8 bytes (R66). -/
theorem registrySetBit_wf_legacyAlias {reg : Memory} (a : Byte) (h : Memory.wf 8 reg = true) :
    Memory.wf 8 (registrySetBit .legacyAlias reg a) = true := by
  have index_lt : registryIndex .legacyAlias a < 8 := by
    have := a.isLt
    simp only [registryIndex, BitVec.toNat_ushiftRight, Nat.shiftRight_eq_div_pow]
    omega
  exact Memory.wf_write _ index_lt h

-- The shared operations

/-- Every cause that is counted has a code from 0x01 to 0x0F (R261). -/
theorem Cause.code_range (e : Cause) : e.code ≠ 0 ∧ e.code.toNat ≤ 0x0F := by
  cases e <;> decide

theorem RunInv.count {s : State} (h : RunInv s) (e : Cause) : RunInv (count e s) where
  __ := h
  lastErr := e.code_range.2
  noError := .inl e.code_range.1

theorem RunInv.armRx {s : State} (h : RunInv s) : RunInv (armRx s) := by
  cases busy : s.txBusy
  · rw [armRx_idle busy]
    exact { h with }
  · rwa [armRx_busy busy]

theorem RunInv.pushTx {s : State} (h : RunInv s) (b : Byte) : RunInv (pushTx b s) := by
  unfold Machine.pushTx
  split
  · exact h.count _
  · next room => exact { h with txrb := RingBuf.wf_append b room h.txrb }

theorem RunInv.pushRx {s : State} (h : RunInv s) (b : Byte) : RunInv (pushRx b s) := by
  unfold Machine.pushRx
  split
  · exact h.count _
  · next room => exact { h with rxrb := RingBuf.wf_append b room h.rxrb }

theorem RunInv.registrySet {s : State} (h : RunInv s) (a : Byte) : RunInv (registrySet a s) where
  __ := h
  registry := registrySetBit_wf a h.registry
  legacy := by
    cases mode : s.cfg.registryMode with
    | exact => exact .inl mode
    | legacyAlias =>
      refine .inr ?_
      have low := h.legacy.resolve_left (by simp [mode])
      simpa only [Machine.registrySet, mode] using registrySetBit_wf_legacyAlias a low

/-- An accepted frame carries this node's address at offset 0 (R123, R124). -/
theorem RunInv.transmit {s : State} (h : RunInv s) {dest type : Byte} {payload : List Byte}
    {buf : FrameBuf} (short : payload.length ≤ 15)
    (stored : s.lastTx.store ([s.cfg.localAddr, dest, type, s.seqCtr] ++ payload) = some buf) :
    RunInv (transmit ([s.cfg.localAddr, dest, type, s.seqCtr] ++ payload) buf s) := by
  have four : 4 ≤ ([s.cfg.localAddr, dest, type, s.seqCtr] ++ payload).length := by simp
  obtain ⟨hwf, hlen, hread⟩ := FrameBuf.wf_store four (by simp; omega) h.lastTx stored
  exact { h with lastTx := hwf, inFlight := .inr (hlen ▸ four), ownAddress := .inr hread }

/-- Every move keeps the invariant of a running FRC. -/
theorem Move.runInv {k : Kind} {s t : State} (move : Move k s t) (h : RunInv s) : RunInv t := by
  cases move with
  | anomaly e => exact h.count e
  | rearm => exact h.armRx
  | transmit _ _ _ _ short stored => exact h.transmit short stored
  | enqueue b => exact h.pushTx b
  | storeRx b => exact h.pushRx b
  | consume n => exact { h with rxrb := RingBuf.wf_dropN n h.rxrb }
  | emitUart => exact { h with txrb := RingBuf.wf_dropN 1 h.txrb }
  | register a => exact h.registrySet a
  | session x => exact { h with }
  | latch ts => exact { h with }
  | frame four short stored =>
    exact { h with lastRx := (FrameBuf.wf_store four short h.lastRx stored).1 }
  | success => exact { h with }
  | distance d => exact { h with distance := .inl rfl }
  | hold => exact { h with }
  | complete busy => exact { h with inFlight := .inl rfl }

/-- A re-arm arms the receiver unless the FRC transmits, whether it was armed before or not (R125). -/
theorem armRx_armedUnlessBusy {s : State} (neverBoth : s.txBusy = true → s.rxArmed = false) :
    ArmedUnlessBusy (armRx s) := by
  cases busy : s.txBusy
  · rw [armRx_idle busy]
    simp [ArmedUnlessBusy, busy]
  · rw [armRx_busy busy]
    simp [ArmedUnlessBusy, busy, neverBoth busy]

/-- Every move but the latch of a received frame keeps the receiver armed unless the FRC transmits (R126). -/
theorem Move.armedUnlessBusy {k : Kind} {s t : State} (move : Move k s t) (notLatch : k ≠ .latch)
    (h : ArmedUnlessBusy s) : ArmedUnlessBusy t := by
  cases move with
  | rearm => exact armRx_armedUnlessBusy fun busy => by simpa [ArmedUnlessBusy, busy] using h
  | transmit => rfl
  | enqueue b => simpa only [ArmedUnlessBusy, pushTx_rxArmed, pushTx_txBusy] using h
  | storeRx b => simpa only [ArmedUnlessBusy, pushRx_rxArmed, pushRx_txBusy] using h
  | latch ts => exact absurd rfl notLatch
  | complete busy => rfl
  | _ => exact h

end Sys2Proof.Machine
end

section
/-! What no instruction but RESET changes: each field has a kind of move that writes it, and each instruction
makes only some kinds. -/

namespace Sys2Proof.Machine

/-- The fields that only a RESET, or the environment, writes: `cfg`, `halted` and the model's own `started`,
`envCfg` and `input` (R21, R22, assumptions 6 to 8). -/
def ResetOnlyFieldsKept (s t : State) : Prop :=
  t.cfg = s.cfg ∧ t.halted = s.halted ∧ t.started = s.started ∧ t.envCfg = s.envCfg ∧ t.input = s.input

theorem Move.resetOnlyFieldsKept {k : Kind} {s t : State} (move : Move k s t) :
    ResetOnlyFieldsKept s t := by
  cases move with
  | rearm => exact ⟨armRx_cfg s, armRx_halted s, armRx_started s, armRx_envCfg s, armRx_input s⟩
  | enqueue b =>
    exact ⟨pushTx_cfg b s, pushTx_halted b s, pushTx_started b s, pushTx_envCfg b s, pushTx_input b s⟩
  | storeRx b =>
    exact ⟨pushRx_cfg b s, pushRx_halted b s, pushRx_started b s, pushRx_envCfg b s, pushRx_input b s⟩
  | _ => exact ⟨rfl, rfl, rfl, rfl, rfl⟩

theorem Moves.resetOnlyFieldsKept {P : Kind → Prop} {s t : State} (moves : Moves P s t) :
    ResetOnlyFieldsKept s t := by
  refine moves.relation (fun _ => ⟨rfl, rfl, rfl, rfl, rfl⟩) ?_ fun _ _ _ _ move => move.resetOnlyFieldsKept
  rintro s u t ⟨hcfg, hhalted, hstarted, henv, hinput⟩ ⟨hcfg', hhalted', hstarted', henv', hinput'⟩
  exact ⟨hcfg'.trans hcfg, hhalted'.trans hhalted, hstarted'.trans hstarted, henv'.trans henv,
    hinput'.trans hinput⟩

theorem Moves.running {P : Kind → Prop} {s t : State} (moves : Moves P s t) (running : Running s) :
    Running t := by
  obtain ⟨-, hhalted, hstarted, -, -⟩ := moves.resetOnlyFieldsKept
  exact ⟨hstarted.trans running.1, hhalted.trans running.2⟩

/-- Settles O16: no kind of move writes one of the fields. -/
theorem onlyResetWritesConfiguration : Obligations.OnlyResetWritesConfiguration :=
  fun _ _ _ notRst next => (exec_moves notRst next).resetOnlyFieldsKept

/-- A field that each allowed move keeps is kept by the moves. -/
theorem Moves.keep_field {α : Type} (field : State → α) {P : Kind → Prop}
    (keep : ∀ k s t, P k → Move k s t → field t = field s) {s t : State} (moves : Moves P s t) :
    field t = field s :=
  moves.relation (R := fun s t => field t = field s) (fun _ => rfl)
    (fun _ _ _ first second => second.trans first) keep

/-- Only `RegistrySet` writes the registry (R68). -/
theorem Move.registry_kept {k : Kind} {s t : State} (move : Move k s t) (other : k ≠ .register) :
    t.registry = s.registry := by
  cases move with
  | rearm => exact armRx_registry s
  | enqueue b => exact pushTx_registry b s
  | storeRx b => exact pushRx_registry b s
  | register a => exact absurd rfl other
  | _ => rfl

/-- Only a session write changes the session (R26). -/
theorem Move.session_kept {k : Kind} {s t : State} (move : Move k s t) (other : k ≠ .session) :
    t.session = s.session := by
  cases move with
  | rearm => exact armRx_session s
  | enqueue b => exact pushTx_session b s
  | storeRx b => exact pushRx_session b s
  | session x => exact absurd rfl other
  | _ => rfl

/-- A field that one kind of move alone writes is changed only by an instruction that makes that kind. -/
theorem canMake_of_field_changed {α : Type} (field : State → α) {writer : Kind}
    (keep : ∀ {k s t}, Move k s t → k ≠ writer → field t = field s)
    {i : Instr} {s t : State} (notRst : notReset i = true) (next : exec i s = .next t)
    (changed : field t ≠ field s) : canMake i writer = true := by
  by_contra never
  refine changed ((exec_moves notRst next).keep_field field fun k _ _ allowed move => keep move ?_)
  rintro rfl
  exact never allowed

/-- The instructions that can set a bit of the registry (R32, R196). -/
theorem canMake_register {i : Instr} (h : canMake i .register = true) :
    (∃ f, i = .pong f) ∨ (∃ ts data, i = .radioRx ts data ∧ data.getD 2 0 = 255) := by
  cases i with
  | pong f => exact .inl ⟨f, rfl⟩
  | radioRx ts data => exact .inr ⟨ts, data, rfl, by simpa [canMake, frameKind] using h⟩
  | _ => simp [canMake, frameKind] at h

/-- The instructions that can write the session (R26). -/
theorem canMake_session {i : Instr} (h : canMake i .session = true) :
    i = .pollTick ∨ (∃ ts, i = .radioTxDone ts) ∨ (∃ f, i = .rangeFinal f) ∨
      (∃ f, i = .rangeTransfer f) ∨
      (∃ ts data, i = .radioRx ts data ∧ (data.getD 2 0 = 2 ∨ data.getD 2 0 = 3)) := by
  cases i with
  | pollTick => exact .inl rfl
  | radioTxDone ts => exact .inr (.inl ⟨ts, rfl⟩)
  | rangeFinal f => exact .inr (.inr (.inl ⟨f, rfl⟩))
  | rangeTransfer f => exact .inr (.inr (.inr (.inl ⟨f, rfl⟩)))
  | radioRx ts data =>
    exact .inr (.inr (.inr (.inr ⟨ts, data, rfl, by simpa [canMake, frameKind] using h⟩)))
  | _ => simp [canMake, frameKind] at h

/-- The one instruction that latches a received frame is RADIO_RX (R180). -/
theorem canMake_latch {i : Instr} (h : canMake i .latch = true) : ∃ ts data, i = .radioRx ts data := by
  cases i with
  | radioRx ts data => exact ⟨ts, data, rfl⟩
  | _ => simp [canMake, frameKind] at h

/-- Settles O56: the registry's one writer is the kind `register`, which only a PONG makes. -/
theorem registryWrittenOnlyByPong : Obligations.RegistryWrittenOnlyByPong :=
  fun _ _ _ notRst next changed =>
    canMake_register (canMake_of_field_changed State.registry Move.registry_kept notRst next changed)

/-- Settles O60: the session's one writer is the kind `session`, and five instructions make it. -/
theorem sessionWriters : Obligations.SessionWriters :=
  fun _ _ _ notRst next changed =>
    canMake_session (canMake_of_field_changed State.session Move.session_kept notRst next changed)

end Sys2Proof.Machine
end

section
/-! What every step keeps: the moves of an operation, and the last of them for RADIO_RX, which alone clears the
receiver's flag before it handles the frame. -/

namespace Sys2Proof.Machine

-- Every handler of a received frame ends in a `Send` or a re-arm (R125, R180)

/-- From a state with the receiver off where the FRC transmits, a body leaves it armed unless the FRC
transmits. -/
def SettlesReceiver (body : State → Result) : Prop :=
  ∀ s t : State, (s.txBusy = true → s.rxArmed = false) → body s = .next t → ArmedUnlessBusy t

theorem settlesReceiver_send (dest type : Byte) (payload : List Byte) :
    SettlesReceiver (send dest type payload) := by
  intro s t neverBoth next
  rcases send_next next with ⟨busy, rfl⟩ | ⟨-, ⟨buf, -, rfl⟩, -⟩
  · simp [ArmedUnlessBusy, busy, neverBoth busy]
  · rfl

/-- A body that keeps both flags and then re-arms. -/
theorem settlesReceiver_armRx {g : State → State} (busyKept : ∀ s, (g s).txBusy = s.txBusy)
    (armedKept : ∀ s, (g s).rxArmed = s.rxArmed) : SettlesReceiver fun s => .next (armRx (g s)) := by
  intro s t neverBoth next
  cases next
  exact armRx_armedUnlessBusy (by rwa [busyKept, armedKept])

theorem settlesReceiver_countArmRx (e : Cause) : SettlesReceiver fun s => .next (armRx (count e s)) :=
  settlesReceiver_armRx (g := count e) (fun _ => rfl) (fun _ => rfl)

theorem settlesReceiver_onUnknown : SettlesReceiver onUnknown := settlesReceiver_countArmRx .unknownType

theorem settlesReceiver_onIgnored : SettlesReceiver onIgnored :=
  settlesReceiver_armRx (g := id) (fun _ => rfl) (fun _ => rfl)

theorem settlesReceiver_onRelay (f : FrameBody) : SettlesReceiver (onRelay f) :=
  settlesReceiver_armRx (pushTxAll_txBusy _) (pushTxAll_rxArmed _)

theorem settlesReceiver_onPong (f : FrameBody) : SettlesReceiver (onPong f) :=
  settlesReceiver_armRx (g := registrySet f.src) (fun _ => rfl) (fun _ => rfl)

theorem settlesReceiver_onFinal (f : FrameBody) : SettlesReceiver (onFinal f) :=
  fun s t neverBoth next => settlesReceiver_send _ _ _ (captureFinal s) t neverBoth next

theorem settlesReceiver_onReport (f : FrameBody) : SettlesReceiver (onReport f) := by
  intro s t neverBoth next
  unfold onReport at next
  split at next
  · exact settlesReceiver_countArmRx _ _ _ neverBoth next
  · exact settlesReceiver_armRx (telemetry_txBusy _ _ _) (telemetry_rxArmed _ _ _) _ _ neverBoth next

theorem settlesReceiver_onTransfer (f : FrameBody) : SettlesReceiver (onTransfer f) := by
  intro s t neverBoth next
  unfold onTransfer computeAndReport report at next
  split at next
  · exact settlesReceiver_countArmRx _ _ _ neverBoth next
  · split at next
    · exact settlesReceiver_countArmRx _ (captureTransfer f.payload s) t neverBoth next
    · refine settlesReceiver_send _ _ _ _ _ ?_ next
      simpa using neverBoth

theorem settlesReceiver_byRoute (f : FrameBody) {own broadcast foreign : State → Result}
    (hown : SettlesReceiver own) (hbroadcast : SettlesReceiver broadcast)
    (hforeign : SettlesReceiver foreign) : SettlesReceiver (byRoute f own broadcast foreign) := by
  intro s t neverBoth next
  unfold byRoute at next
  split at next
  · exact settlesReceiver_countArmRx _ _ _ neverBoth next
  · exact hown s t neverBoth next
  · exact hbroadcast s t neverBoth next
  · exact hforeign s t neverBoth next

/-- The frame's handling in a running FRC, whatever its type (R183 to R192). -/
theorem execFrame_armedUnlessBusy {type : Byte} {f : FrameBody} {s t : State} (running : Running s)
    (neverBoth : s.txBusy = true → s.rxArmed = false) (next : execFrame type f s = .next t) :
    ArmedUnlessBusy t := by
  have route {own broadcast foreign : State → Result} (hown : SettlesReceiver own)
      (hbroadcast : SettlesReceiver broadcast) (hforeign : SettlesReceiver foreign)
      (next : operate (byRoute f own broadcast foreign) s = .next t) : ArmedUnlessBusy t := by
    rw [operate_running running] at next
    exact settlesReceiver_byRoute f hown hbroadcast hforeign s t neverBoth next
  have unknown := settlesReceiver_onUnknown
  have ignored := settlesReceiver_onIgnored
  unfold execFrame at next
  split at next
  · exact route (settlesReceiver_send _ _ _) unknown ignored next
  split at next
  · exact route (settlesReceiver_send _ _ _) unknown ignored next
  split at next
  · exact route (settlesReceiver_onFinal f) unknown ignored next
  split at next
  · exact route (settlesReceiver_onTransfer f) unknown ignored next
  split at next
  · exact route (settlesReceiver_onReport f) unknown (settlesReceiver_onReport f) next
  split at next
  · exact route unknown unknown ignored next
  split at next
  · exact route (settlesReceiver_onRelay f) (settlesReceiver_onRelay f) ignored next
  split at next
  · exact route (settlesReceiver_send _ _ _) (settlesReceiver_send _ _ _) ignored next
  split at next
  · exact route (settlesReceiver_onPong f) (settlesReceiver_onPong f) ignored next
  · exact route unknown unknown ignored next

/-- RADIO_RX leaves the receiver armed unless the FRC transmits: the latch turned it off, so whatever the
flag was before (R24, R180). -/
theorem execRadioRx_armedUnlessBusy {ts : Timestamp} {data : List Byte} {s t : State}
    (running : Running s) (next : exec (.radioRx ts data) s = .next t) : ArmedUnlessBusy t := by
  have received : receive (receivedBytes data) (latchRx ts s) = .next t := by
    rwa [exec, execRadioRx, operate_running running] at next
  unfold receive at received
  split at received
  · exact settlesReceiver_countArmRx _ (latchRx ts s) t (fun _ => rfl) received
  · split at received
    · next buf _ =>
      exact execFrame_armedUnlessBusy (s := { latchRx ts s with lastRx := buf }) running (fun _ => rfl) received
    · cases received

-- Instructions and steps

theorem Moves.runInv {P : Kind → Prop} {s t : State} (moves : Moves P s t) (h : RunInv s) : RunInv t :=
  moves.relation (R := fun s t => RunInv s → RunInv t) (fun _ => id) (fun _ _ _ first second => second ∘ first)
    (fun _ _ _ _ move => move.runInv) h

theorem Moves.armedUnlessBusy {P : Kind → Prop} (noLatch : ¬ P .latch) {s t : State} (moves : Moves P s t)
    (h : ArmedUnlessBusy s) : ArmedUnlessBusy t :=
  moves.relation (R := fun s t => ArmedUnlessBusy s → ArmedUnlessBusy t) (fun _ => id)
    (fun _ _ _ first second => second ∘ first)
    (fun _ _ _ allowed move => move.armedUnlessBusy fun latch => noLatch (latch ▸ allowed)) h

/-- In a running FRC an instruction other than RESET keeps the invariant. -/
theorem exec_keeps_inv_running {i : Instr} {s t : State} (notRst : notReset i = true) (running : Running s)
    (inv : StateInv s) (next : exec i s = .next t) : StateInv t := by
  obtain ⟨runInv, armed⟩ := (stateInv_iff_runInv running).1 inv
  have moves := exec_moves notRst next
  refine (stateInv_iff_runInv (moves.running running)).2 ⟨moves.runInv runInv, ?_⟩
  by_cases latches : canMake i .latch = true
  · obtain ⟨ts, data, rfl⟩ := canMake_latch latches
    exact execRadioRx_armedUnlessBusy running next
  · exact moves.armedUnlessBusy latches armed

/-- A RESET that is not refused establishes the invariant, halted or not (R290 to R292). -/
theorem execReset_inv {flags : Byte} {s t : State} (next : execReset flags s = .next t) : StateInv t := by
  unfold execReset at next
  split at next
  · next valid =>
    split at next
    · cases next
      rw [armRx_idle rfl]
      refine (stateInv_iff_runInv ⟨rfl, rfl⟩).2 ⟨?_, rfl⟩
      exact ⟨rfl, rfl, rfl, rfl, rfl, valid, Nat.zero_le _, .inl rfl, .inl rfl, .inr rfl, .inr rfl, .inr rfl⟩
    · cases next
      -- halted, every component is a literal but the configuration, which `valid` speaks of
      simp [StateInv, State.inv, State.invStarted, haltFatal, emitReset, cleared, emit, valid,
        RingBuf.wf, FrameBuf.wf, RingBuf.empty, FrameBuf.empty, Memory.wf, Memory.wfFrom, halInitFailCode]
  · cases next

/-- Every instruction keeps the invariant. -/
theorem exec_keeps_inv {i : Instr} {s t : State} (inv : StateInv s) (next : exec i s = .next t) :
    StateInv t := by
  cases notRst : notReset i
  · cases i with
    | reset flags => exact execReset_inv next
    | _ => cases notRst
  · obtain ⟨body, guarded⟩ := exec_guarded i notRst
    rcases operate_next (guarded s ▸ next) with ⟨-, -, rfl⟩ | ⟨running, -⟩
    · exact inv
    · exact exec_keeps_inv_running notRst running inv next

/-- Settles O10: a step is an instruction run on a state that differs in `held` or `input` alone, of which the
invariant says nothing, or keeps the state. -/
theorem stepKeepsInvariant : Obligations.StepKeepsInvariant := by
  intro s t inv next
  unfold step at next
  split at next
  · exact exec_keeps_inv (s := { s with held := s.held - 1 }) inv next
  · split at next
    · next i rest _ => exact exec_keeps_inv (s := { s with input := rest }) inv next
    · next e _ =>
      cases e with
      | noOperation =>
        cases next
        exact inv
      | _ => cases next

end Sys2Proof.Machine
end

section
/-! What no instruction reads: the seq of a received frame (spec/40_codec.md R124), and the receiver's flag
(spec/10_state.md R24). -/

namespace Sys2Proof.Machine

-- The seq of a received frame

/-- The routing tests look at `src` and `dest` (R181). -/
theorem routeOf_seq (l : Byte) (f : FrameBody) (q : Byte) : routeOf l { f with seq := q } = routeOf l f :=
  rfl

theorem byRoute_seq (f : FrameBody) (q : Byte) (own broadcast foreign : State → Result) :
    byRoute { f with seq := q } own broadcast foreign = byRoute f own broadcast foreign := by
  funext s
  rw [byRoute, routeOf_seq, byRoute]

/-- Settles O58: the routing does not look at `seq`, and each handler takes only `src`, `dest` and the payload
from the frame. -/
theorem receivedSeqNeverRead : Obligations.ReceivedSeqNeverRead := by
  intro type f q s
  rw [← execFrame_eq_exec, ← execFrame_eq_exec]
  simp only [execFrame, execRangePoll, execRangeResponse, execRangeFinal, execRangeTransfer, execRangeReport,
    execRangeRequest, execDataRelay, execPing, execPong, execUnassignedType, byRoute_seq]
  rfl

-- The receiver's flag

/-- A state with the receiver's flag set otherwise. -/
def setArmed (armed : Bool) (s : State) : State := { s with rxArmed := armed }

/-- An outcome but for the receiver's flag of its next state. -/
def forgetArmed : Result → Result
  | .next s => .next (setArmed false s)
  | .fault r => .fault r
  | .refused r => .refused r

/-- The receiver's flag makes no difference to a body, but in the flag it leaves. -/
def ArmedUnread (body : State → Result) : Prop :=
  ∀ armed s, forgetArmed (body (setArmed armed s)) = forgetArmed (body s)

/-- An update neither reads nor writes the receiver's flag. -/
def ArmedUntouched (g : State → State) : Prop := ∀ armed s, g (setArmed armed s) = setArmed armed (g s)

/-- Two states that agree but for the receiver's flag. -/
theorem eq_of_setArmed_eq {s t : State} (agree : setArmed false s = setArmed false t) :
    s = { t with rxArmed := s.rxArmed } := by
  cases s
  cases t
  simp_all [setArmed]

/-- Such a body answers a next state from both, and the same but for the flag. -/
theorem ArmedUnread.next {body : State → Result} (unread : ArmedUnread body) {s t : State}
    (next : body s = .next t) (armed : Bool) :
    ∃ armed', body { s with rxArmed := armed } = .next { t with rxArmed := armed' } := by
  have same : forgetArmed (body { s with rxArmed := armed }) = forgetArmed (.next t) :=
    next ▸ unread armed s
  cases other : body { s with rxArmed := armed } with
  | next u =>
    rw [other] at same
    exact ⟨u.rxArmed, congrArg _ (eq_of_setArmed_eq (Host.Outcome.next.inj same))⟩
  | fault r => simp [other, forgetArmed] at same
  | refused r => simp [other, forgetArmed] at same

-- How such bodies are put together

theorem armedUnread_next {g : State → State} (h : ArmedUntouched g) : ArmedUnread fun s => .next (g s) := by
  intro armed s
  simp only [h armed s]
  rfl

theorem ArmedUnread.comp {body : State → Result} {g : State → State} (hbody : ArmedUnread body)
    (hg : ArmedUntouched g) : ArmedUnread fun s => body (g s) := by
  intro armed s
  simp only [hg armed s]
  exact hbody armed (g s)

theorem armedUnread_ite {c : State → Prop} [DecidablePred c] {body body' : State → Result}
    (hc : ∀ armed s, c (setArmed armed s) ↔ c s) (h : ArmedUnread body) (h' : ArmedUnread body') :
    ArmedUnread fun s => if c s then body s else body' s := by
  intro armed s
  by_cases holds : c s
  · simpa [hc, holds] using h armed s
  · simpa [hc, holds] using h' armed s

theorem armedUntouched_ite {c : State → Prop} [DecidablePred c] {g g' : State → State}
    (hc : ∀ armed s, c (setArmed armed s) ↔ c s) (h : ArmedUntouched g) (h' : ArmedUntouched g') :
    ArmedUntouched fun s => if c s then g s else g' s := by
  intro armed s
  by_cases holds : c s
  · simpa [hc, holds] using h armed s
  · simpa [hc, holds] using h' armed s

theorem armedUnread_operate {body : State → Result} (h : ArmedUnread body) : ArmedUnread (operate body) :=
  armedUnread_ite (fun _ _ => Iff.rfl)
    (armedUnread_ite (fun _ _ => Iff.rfl) (armedUnread_next fun _ _ => rfl) h) (fun _ _ => rfl)

-- The shared operations

theorem armedUntouched_count (e : Cause) : ArmedUntouched (count e) := fun _ _ => rfl

theorem armedUntouched_pushRx (b : Byte) : ArmedUntouched (pushRx b) :=
  armedUntouched_ite (fun _ _ => Iff.rfl) (armedUntouched_count _) fun _ _ => rfl

theorem armedUntouched_pushTx (b : Byte) : ArmedUntouched (pushTx b) :=
  armedUntouched_ite (fun _ _ => Iff.rfl) (armedUntouched_count _) fun _ _ => rfl

theorem armedUntouched_pushTxAll (bs : List Byte) : ArmedUntouched (pushTxAll bs) := by
  induction bs with
  | nil => exact fun _ _ => rfl
  | cons b bs ih =>
    intro armed s
    rw [pushTxAll, armedUntouched_pushTx, ih, pushTxAll]

theorem armedUntouched_captureTxDone (ts : Timestamp) : ArmedUntouched (captureTxDone ts) :=
  armedUntouched_ite (fun _ _ => Iff.rfl) (fun _ _ => rfl)
    (armedUntouched_ite (fun _ _ => Iff.rfl) (fun _ _ => rfl)
      (armedUntouched_ite (fun _ _ => Iff.rfl) (fun _ _ => rfl) fun _ _ => rfl))

/-- A re-arm sets the flag or leaves it, as `txBusy` says (R125). -/
theorem armedUnread_armRx : ArmedUnread fun s => .next (armRx s) := by
  intro armed s
  beta_reduce
  cases busy : s.txBusy
  · rw [armRx_idle busy, armRx_idle (s := setArmed armed s) busy]
    rfl
  · rw [armRx_busy busy, armRx_busy (s := setArmed armed s) busy]
    rfl

theorem armedUnread_countArmRx (e : Cause) : ArmedUnread fun s => .next (armRx (count e s)) :=
  armedUnread_armRx.comp (armedUntouched_count e)

/-- `Send` looks at `txBusy`, `lastTx`, `seqCtr` and LOCAL_ADDR (R123). -/
theorem armedUnread_send (dest type : Byte) (payload : List Byte) :
    ArmedUnread (send dest type payload) := by
  intro armed s
  have frameSame : encodeFrame type ⟨(setArmed armed s).cfg.localAddr, dest, (setArmed armed s).seqCtr, payload⟩ =
    encodeFrame type ⟨s.cfg.localAddr, dest, s.seqCtr, payload⟩ := rfl
  have bufSame : (setArmed armed s).lastTx = s.lastTx := rfl
  have busySame : (setArmed armed s).txBusy = s.txBusy := rfl
  simp only [send, frameSame, bufSame, busySame]
  split
  · rfl
  · split
    · rfl
    · split <;> rfl

/-- The relay of a packet counts the success, then drops the packet or sends it (R147 to R149). -/
theorem armedUnread_acceptPacket (p : List Byte) : ArmedUnread (acceptPacket p) := by
  have relayed : ArmedUnread (relay p) :=
    armedUnread_ite (fun _ _ => Iff.rfl) (armedUnread_next (armedUntouched_count _))
      fun armed s => armedUnread_send s.cfg.relayDest 42 p armed s
  exact relayed.comp fun _ _ => rfl

-- The parser

theorem armedUntouched_hunt (n : Nat) : ArmedUntouched (hunt n) := by
  induction n with
  | zero => exact fun _ _ => rfl
  | succ n ih =>
    have discard : ArmedUntouched fun s => hunt n (count .pprzDiscard (popRx s)) :=
      fun armed s => ih armed (count .pprzDiscard (popRx s))
    exact armedUntouched_ite (fun _ _ => Iff.rfl) (fun _ _ => rfl)
      (armedUntouched_ite (fun _ _ => Iff.rfl) (fun _ _ => rfl) discard)

/-- Steps 2 to 6 look at RXRB alone (R143 to R147). -/
theorem parseHead_setArmed (armed : Bool) (s : State) :
    parseHead (setArmed armed s) = (parseHead s).map id (setArmed armed) := by
  have ringSame : (setArmed armed s).rxrb = s.rxrb := rfl
  have lenSame : headLen (setArmed armed s) = headLen s := rfl
  simp only [parseHead, lenSame, ringSame]
  split
  · rfl
  · split
    · rfl
    · split
      · rfl
      · split <;> rfl

/-- The parser finds the same packet, and leaves the same state but for the flag (R142 to R147). -/
theorem parse_setArmed (armed : Bool) (s : State) :
    parse (setArmed armed s) = (parse s).map id (setArmed armed) := by
  have hunted : hunt (setArmed armed s).rxrb.count (setArmed armed s) = setArmed armed (hunt s.rxrb.count s) :=
    armedUntouched_hunt s.rxrb.count armed s
  rw [parse, hunted, parseHead_setArmed, parse]

theorem armedUnread_parseStepBody : ArmedUnread parseStepBody := by
  intro armed s
  unfold parseStepBody
  rw [parse_setArmed]
  rcases parse s with ⟨_ | p, u⟩
  · rfl
  · exact armedUnread_acceptPacket p armed u

-- The handlers of received frames

theorem armedUnread_byRoute (f : FrameBody) {own broadcast foreign : State → Result}
    (hown : ArmedUnread own) (hbroadcast : ArmedUnread broadcast) (hforeign : ArmedUnread foreign) :
    ArmedUnread (byRoute f own broadcast foreign) := by
  intro armed s
  have route : routeOf (setArmed armed s).cfg.localAddr f = routeOf s.cfg.localAddr f := rfl
  simp only [byRoute, route]
  cases routeOf s.cfg.localAddr f with
  | ownSrc => exact armedUnread_countArmRx .ownSrc armed s
  | own => exact hown armed s
  | broadcast => exact hbroadcast armed s
  | foreign => exact hforeign armed s

theorem armedUnread_onRelay (f : FrameBody) : ArmedUnread (onRelay f) :=
  armedUnread_armRx.comp (armedUntouched_pushTxAll f.payload)

theorem armedUnread_onPong (f : FrameBody) : ArmedUnread (onPong f) :=
  armedUnread_armRx.comp (g := registrySet f.src) fun _ _ => rfl

theorem armedUnread_onFinal (f : FrameBody) : ArmedUnread (onFinal f) :=
  fun armed s =>
    armedUnread_send f.src 3 (transferPayload (captureFinal s).session) armed (captureFinal s)

theorem armedUnread_onReport (f : FrameBody) : ArmedUnread (onReport f) :=
  armedUnread_ite (fun _ _ => Iff.rfl) (armedUnread_countArmRx _)
    (armedUnread_armRx.comp fun armed s => armedUntouched_pushTxAll _ armed s)

theorem armedUnread_report (f : FrameBody) (d : F64) : ArmedUnread (report f d) :=
  (armedUnread_send f.src 5 (distBytes d)).comp fun armed s =>
    armedUntouched_pushTxAll _ armed { s with lastDist := d, distValid := true }

theorem armedUnread_onTransfer (f : FrameBody) : ArmedUnread (onTransfer f) := by
  have computed : ArmedUnread (computeAndReport f) :=
    armedUnread_ite (fun _ _ => Iff.rfl) (armedUnread_countArmRx _)
      fun armed s => armedUnread_report f (sessionDistance s) armed s
  exact armedUnread_ite (fun _ _ => Iff.rfl) (armedUnread_countArmRx _)
    (computed.comp (g := captureTransfer f.payload) fun _ _ => rfl)

theorem armedUnread_onUnknown : ArmedUnread onUnknown := armedUnread_countArmRx _

theorem armedUnread_onIgnored : ArmedUnread onIgnored := armedUnread_armRx

-- The instructions

/-- The receiver's flag gates no instruction (R24): RESET and RADIO_RX overwrite it first, and the others are
put together of parts that do not look at it. -/
theorem armedUnread_exec (i : Instr) : ArmedUnread (exec i) := by
  have route (f : FrameBody) {own broadcast foreign : State → Result} (hown : ArmedUnread own)
      (hbroadcast : ArmedUnread broadcast) (hforeign : ArmedUnread foreign) :
      ArmedUnread (operate (byRoute f own broadcast foreign)) :=
    armedUnread_operate (armedUnread_byRoute f hown hbroadcast hforeign)
  have unknown := armedUnread_onUnknown
  have ignored := armedUnread_onIgnored
  cases i with
  | reset flags => exact fun _ _ => rfl
  | uartRxByte b => exact armedUnread_operate (armedUnread_next (armedUntouched_pushRx b))
  | parseStep =>
    exact armedUnread_operate
      (armedUnread_ite (fun _ _ => Iff.rfl) (armedUnread_next fun _ _ => rfl) armedUnread_parseStepBody)
  | txrbPop =>
    exact armedUnread_operate
      (armedUnread_ite (fun _ _ => Iff.rfl) (armedUnread_next fun _ _ => rfl) (armedUnread_next fun _ _ => rfl))
  | pollTick =>
    exact armedUnread_operate
      (armedUnread_ite (fun _ _ => Iff.rfl) (armedUnread_next fun _ _ => rfl)
        (armedUnread_ite (fun _ _ => Iff.rfl) (armedUnread_next (armedUntouched_count _))
          fun armed s => armedUnread_send s.cfg.anchorAddr 0 [] armed (clearSession s)))
  | radioRx ts data => exact armedUnread_operate fun _ _ => rfl
  | radioTxDone ts =>
    exact armedUnread_operate
      (armedUnread_ite (fun _ _ => Iff.rfl)
        (armedUnread_armRx.comp fun armed s => by rw [armedUntouched_captureTxDone]; rfl)
        (armedUnread_next (armedUntouched_count _)))
  | illegalOp op => exact armedUnread_operate (armedUnread_next (armedUntouched_count _))
  | rangePoll f => exact route f (armedUnread_send f.src 1 []) unknown ignored
  | rangeResponse f => exact route f (armedUnread_send f.src 2 []) unknown ignored
  | rangeFinal f => exact route f (armedUnread_onFinal f) unknown ignored
  | rangeTransfer f => exact route f (armedUnread_onTransfer f) unknown ignored
  | rangeReport f => exact route f (armedUnread_onReport f) unknown (armedUnread_onReport f)
  | rangeRequest f => exact route f unknown unknown ignored
  | dataRelay f => exact route f (armedUnread_onRelay f) (armedUnread_onRelay f) ignored
  | ping f => exact route f (armedUnread_send f.src 255 []) (armedUnread_send f.src 255 []) ignored
  | pong f => exact route f (armedUnread_onPong f) (armedUnread_onPong f) ignored
  | unassignedType type f => exact route f unknown unknown ignored
  | pprzPacket data => exact armedUnread_operate (armedUnread_acceptPacket _)
  | pprzRangeReport sender msgId src dest range =>
    exact armedUnread_operate (armedUnread_next (armedUntouched_pushTxAll _))

/-- Settles O57: each instruction's outcome but for the flag is the same whatever the flag was. -/
theorem receiverFlagGatesNothing : Obligations.ReceiverFlagGatesNothing :=
  fun i _ _ armed next => (armedUnread_exec i).next next armed

end Sys2Proof.Machine
end

section
/-! The node registry (spec/20_memory.md R66 to R69): which bit an address selects, and a PONG, which sets
that bit. -/

namespace Sys2Proof.Machine

-- The byte and the bit of an address

theorem registryIndex_eq (mode : RegistryMode) (a : Byte) :
    registryIndex mode a = if mode = .exact then a.toNat / 8 else a.toNat / 32 := by
  cases mode with
  | exact => exact (BitVec.toNat_ushiftRight a 3).trans (Nat.shiftRight_eq_div_pow _ _)
  | legacyAlias => exact (BitVec.toNat_ushiftRight a 5).trans (Nat.shiftRight_eq_div_pow _ _)

theorem registryWeight_eq_twoPow (a : Byte) : registryWeight a = BitVec.twoPow 8 (a.toNat % 8) := rfl

theorem registryWeight_eq_ofNat (a : Byte) : registryWeight a = BitVec.ofNat 8 (2 ^ (a.toNat % 8)) :=
  BitVec.eq_of_toNat_eq ((BitVec.toNat_twoPow 8 _).trans (BitVec.toNat_ofNat _ _).symm)

/-- The weight's one bit is the address modulo 8 (R66). -/
theorem getLsbD_registryWeight (a : Byte) (i : Nat) :
    (registryWeight a).getLsbD i = decide (a.toNat % 8 = i) := by
  have inByte : a.toNat % 8 < 8 := Nat.mod_lt _ (by decide)
  simp [registryWeight_eq_twoPow, BitVec.getLsbD_twoPow, inByte]

theorem registryWeight_ne_zero (a : Byte) : registryWeight a ≠ 0 := by
  intro zero
  have noBit := getLsbD_registryWeight a (a.toNat % 8)
  simp [zero] at noBit

/-- Two addresses select the same byte and the same bit exactly where they are equal (EXACT), or in one
32-address block with one remainder modulo 8 (LEGACY_ALIAS) (R66). -/
theorem sameRegistryBit_iff (mode : RegistryMode) (a b : Byte) :
    (registryIndex mode b = registryIndex mode a ∧ b.toNat % 8 = a.toNat % 8) ↔
      (if mode = .exact then b = a else b.toNat / 32 = a.toNat / 32 ∧ b.toNat % 8 = a.toNat % 8) := by
  rw [registryIndex_eq, registryIndex_eq]
  cases mode with
  | exact =>
    simp only [if_true, ← BitVec.toNat_inj]
    omega
  | legacyAlias => simp

-- RegistrySet and RegistryKnown

/-- `RegistrySet` changes the address's byte alone (R68). -/
theorem read_registrySetBit (mode : RegistryMode) (reg : Memory) (a : Byte) (x : Nat) :
    Memory.read (registrySetBit mode reg a) x =
      if x = registryIndex mode a then Memory.read reg x ||| registryWeight a else Memory.read reg x := by
  rw [registrySetBit, Memory.read_write]
  split
  · next here => rw [here]
  · rfl

/-- `RegistryKnown` reads one bit (R69). -/
theorem registryKnown_iff_getLsbD (s : State) (a : Byte) :
    registryKnown s a = true ↔
      (Memory.read s.registry (registryIndex s.cfg.registryMode a)).getLsbD (a.toNat % 8) = true := by
  rw [registryKnown, decide_eq_true_iff, registryWeight_eq_twoPow, BitVec.and_twoPow,
    ← registryWeight_eq_twoPow]
  split
  · next bit => exact iff_of_true (registryWeight_ne_zero a) bit
  · next noBit => exact iff_of_false (not_not_intro rfl) noBit

/-- `RegistrySet` makes known what selects the same bit, and nothing else (R66, R68, R69). -/
theorem registryKnown_registrySet (s : State) (a b : Byte) :
    registryKnown (registrySet a s) b = true ↔
      registryKnown s b = true ∨
        (registryIndex s.cfg.registryMode b = registryIndex s.cfg.registryMode a ∧
          b.toNat % 8 = a.toNat % 8) := by
  rw [registryKnown_iff_getLsbD, registryKnown_iff_getLsbD, registrySet_cfg, registrySet_registry,
    read_registrySetBit]
  split
  · next same =>
    rw [BitVec.getLsbD_or, getLsbD_registryWeight, Bool.or_eq_true, decide_eq_true_iff]
    simp only [same, true_and, eq_comm]
  · next other => simp [other]

/-- Settles O37: the addresses made known are those that select the registered address's bit. -/
theorem registryKnowsExactlyTheAliases : Obligations.RegistryKnowsExactlyTheAliases :=
  fun s a b => by rw [registryKnown_registrySet, sameRegistryBit_iff]

-- PONG

/-- A frame from another node, to this one or broadcast, of a type handled alike in both cases (R181,
R184). -/
theorem byRoute_ownOrBroadcast {f : FrameBody} {s : State} (other : f.src ≠ s.cfg.localAddr)
    (addressed : f.dest = s.cfg.localAddr ∨ f.dest = 0 ∨ f.dest = 255) (body foreign : State → Result) :
    byRoute f body body foreign s = body s := by
  by_cases own : f.dest = s.cfg.localAddr
  · rw [byRoute, routeOf_own other own]
  · rw [byRoute, routeOf_broadcast other own (addressed.resolve_left own)]

/-- A PONG that the node handles is `RegistrySet` and a re-arm (R189). -/
theorem exec_pong {f : FrameBody} {s : State} (running : Running s) (other : f.src ≠ s.cfg.localAddr)
    (addressed : f.dest = s.cfg.localAddr ∨ f.dest = 0 ∨ f.dest = 255) :
    exec (.pong f) s = .next (armRx (registrySet f.src s)) := by
  rw [exec, execPong, operate_running running, byRoute_ownOrBroadcast other addressed, onPong]

/-- Settles O36: the state after a PONG is known, and its registry is read byte by byte. -/
theorem pongRegistersSender : Obligations.PongRegistersSender := by
  intro f s running other addressed
  refine ⟨_, _, exec_pong running other addressed, armRx_rearmed _, fun a => ?_⟩
  rw [read_registrySetBit, registryIndex_eq, registryWeight_eq_ofNat]

end Sys2Proof.Machine
end

section
/-! The input operations (spec/30_encoding.md R90 to R95): the decoder reads an encoded operation back before
any further bytes, and answers only what it can have read so. -/

namespace Sys2Proof

-- One equation for each opcode

theorem decodeOp_reset (flags : Byte) (rest : List Byte) :
    decodeOp (0x00 :: flags :: rest) = .ok (.reset flags, rest) := rfl

theorem decodeOp_uartRxByte (b : Byte) (rest : List Byte) :
    decodeOp (0x01 :: b :: rest) = .ok (.uartRxByte b, rest) := rfl

theorem decodeOp_parseStep (rest : List Byte) : decodeOp (0x02 :: rest) = .ok (.parseStep, rest) := rfl

theorem decodeOp_txrbPop (rest : List Byte) : decodeOp (0x03 :: rest) = .ok (.txrbPop, rest) := rfl

theorem decodeOp_pollTick (rest : List Byte) : decodeOp (0x04 :: rest) = .ok (.pollTick, rest) := rfl

/-- RADIO_RX: five timestamp bytes, the length byte, and as many data bytes as it says (R92). -/
theorem decodeOp_radioRx {ts : List Byte} (five : ts.length = 5) {len : Byte} {data : List Byte}
    (counted : data.length = len.toNat) (rest : List Byte) :
    decodeOp (0x05 :: (ts ++ [len] ++ (data ++ rest))) =
      .ok (.radioRx (BitVec.ofNat 40 (fromLE ts)) data, rest) := by
  have operands : splitBytes 6 (ts ++ [len] ++ (data ++ rest)) = .ok (ts ++ [len], data ++ rest) :=
    splitBytes_append _ _ (by simp [five])
  have lenByte : (ts ++ [len]).getD 5 0 = len := by simp [← five]
  have stamp : (ts ++ [len]).take 5 = ts := by simp [← five]
  simp only [decodeOp, BitVec.reduceToNat, operands, lenByte, stamp, splitBytes_append data rest counted]

/-- RADIO_TX_DONE: five timestamp bytes (R92). -/
theorem decodeOp_radioTxDone {ts : List Byte} (five : ts.length = 5) (rest : List Byte) :
    decodeOp (0x06 :: (ts ++ rest)) = .ok (.radioTxDone (BitVec.ofNat 40 (fromLE ts)), rest) := by
  simp [decodeOp, splitBytes_append ts rest five]

/-- A reserved opcode is an operation of one byte (R95). -/
theorem decodeOp_illegalOp {op : Byte} (reserved : 7 ≤ op.toNat) (rest : List Byte) :
    decodeOp (op :: rest) = .ok (.illegalOp op, rest) := by
  obtain ⟨k, opcode⟩ : ∃ k, op.toNat = k + 7 := ⟨op.toNat - 7, by omega⟩
  simp [decodeOp, opcode]

/-- An operation decodes the same whatever follows it (R94). -/
theorem decodeOp_encode_append {i : Instr} (rest : List Byte) (wf : WellFormed i)
    (op : i.format = .inputOp) : decodeOp (encode i ++ rest) = .ok (i, rest) := by
  cases i with
  | reset flags => exact decodeOp_reset flags rest
  | uartRxByte b => exact decodeOp_uartRxByte b rest
  | parseStep => exact decodeOp_parseStep rest
  | txrbPop => exact decodeOp_txrbPop rest
  | pollTick => exact decodeOp_pollTick rest
  | radioRx ts data =>
    have short : data.length ≤ 255 := of_decide_eq_true wf
    have counted : data.length = (BitVec.ofNat 8 data.length).toNat := by
      rw [BitVec.toNat_ofNat]
      omega
    have read := decodeOp_radioRx (length_leBytes 5 ts.toNat) counted rest
    rw [ofNat_fromLE_leBytes5] at read
    simpa [encode] using read
  | radioTxDone ts =>
    have read := decodeOp_radioTxDone (length_leBytes 5 ts.toNat) rest
    rwa [ofNat_fromLE_leBytes5] at read
  | illegalOp op => exact decodeOp_illegalOp (of_decide_eq_true wf) rest
  | _ => nomatch op

/-- Settles O4: one equation of the decoder for each input operation. -/
theorem operationDecodesBeforeAnyRest : Obligations.OperationDecodesBeforeAnyRest :=
  fun _ rest wf op => decodeOp_encode_append rest wf op

-- What the decoder answers

/-- Five bytes are `LE_5` of the timestamp they stand for (R71). -/
theorem leBytes5_of_bytes {ts : List Byte} (five : ts.length = 5) :
    leBytes 5 (BitVec.ofNat 40 (fromLE ts)).toNat = ts := by
  rw [leBytes_ofNat40, ← five, leBytes_fromLE]

theorem encode_radioTxDone_of_bytes {ts : List Byte} (five : ts.length = 5) :
    encode (.radioTxDone (BitVec.ofNat 40 (fromLE ts))) = 0x06 :: ts := by
  rw [encode, leBytes5_of_bytes five]

theorem encode_radioRx_of_bytes {ts data : List Byte} {len : Byte} (five : ts.length = 5)
    (counted : data.length = len.toNat) :
    encode (.radioRx (BitVec.ofNat 40 (fromLE ts)) data) = 0x05 :: (ts ++ [len] ++ data) := by
  have lenByte : BitVec.ofNat 8 data.length = len := by simp [counted]
  rw [encode, leBytes5_of_bytes five, lenByte, List.append_assoc]
  rfl

/-- The six operand bytes before the data are the timestamp and the length (R92). -/
theorem operands_eq_append {operands : List Byte} (six : operands.length = 6) :
    operands = operands.take 5 ++ [operands.getD 5 0] := by
  have last : operands.drop 5 = [operands.getD 5 0] := by
    rw [List.drop_eq_getElem_cons (by omega), List.drop_of_length_le (by omega)]
    simp [six]
  rw [← last, List.take_append_drop]

/-- What the decoder has read where it answers after the opcode of RADIO_RX. -/
theorem decodeOp_radioRx_ok {bytes rest : List Byte} {i : Instr}
    (decoded : decodeOp (0x05 :: bytes) = .ok (i, rest)) :
    ∃ ts len data, ts.length = 5 ∧ data.length = len.toNat ∧ bytes = ts ++ [len] ++ (data ++ rest) ∧
      i = .radioRx (BitVec.ofNat 40 (fromLE ts)) data := by
  simp only [decodeOp, BitVec.reduceToNat] at decoded
  split at decoded
  · cases decoded
  · next operands tail first =>
    split at decoded
    · cases decoded
    · next data rest' second =>
      cases decoded
      obtain ⟨rfl, six⟩ := splitBytes_ok first
      obtain ⟨rfl, counted⟩ := splitBytes_ok second
      exact ⟨operands.take 5, operands.getD 5 0, data, by simp [six], counted,
        by rw [← operands_eq_append six], rfl⟩

/-- What the decoder has read where it answers after the opcode of RADIO_TX_DONE. -/
theorem decodeOp_radioTxDone_ok {bytes rest : List Byte} {i : Instr}
    (decoded : decodeOp (0x06 :: bytes) = .ok (i, rest)) :
    ∃ ts, ts.length = 5 ∧ bytes = ts ++ rest ∧ i = .radioTxDone (BitVec.ofNat 40 (fromLE ts)) := by
  simp only [decodeOp, BitVec.reduceToNat] at decoded
  split at decoded
  · cases decoded
  · next ts tail first =>
    cases decoded
    obtain ⟨rfl, five⟩ := splitBytes_ok first
    exact ⟨ts, five, rfl, rfl⟩

/-- An opcode is one of the seven assigned or reserved (R91, R95). -/
theorem opcode_cases (op : Byte) :
    op = 0 ∨ op = 1 ∨ op = 2 ∨ op = 3 ∨ op = 4 ∨ op = 5 ∨ op = 6 ∨ 7 ≤ op.toNat := by
  bv_omega

/-- Settles O5: by opcode, what the decoder has read where it answers. -/
theorem encodeUndoesOperationDecode : Obligations.EncodeUndoesOperationDecode := by
  intro bytes i rest decoded
  cases bytes with
  | nil => cases decoded
  | cons op tail =>
    rcases opcode_cases op with rfl | rfl | rfl | rfl | rfl | rfl | rfl | reserved
    · cases tail with
      | nil => cases decoded
      | cons flags tail =>
        cases decoded
        exact ⟨rfl, rfl, rfl⟩
    · cases tail with
      | nil => cases decoded
      | cons b tail =>
        cases decoded
        exact ⟨rfl, rfl, rfl⟩
    · cases decoded
      exact ⟨rfl, rfl, rfl⟩
    · cases decoded
      exact ⟨rfl, rfl, rfl⟩
    · cases decoded
      exact ⟨rfl, rfl, rfl⟩
    · obtain ⟨ts, len, data, five, counted, rfl, rfl⟩ := decodeOp_radioRx_ok decoded
      have short : data.length ≤ 255 := by omega
      refine ⟨decide_eq_true short, rfl, ?_⟩
      rw [encode_radioRx_of_bytes five counted]
      simp
    · obtain ⟨ts, five, rfl, rfl⟩ := decodeOp_radioTxDone_ok decoded
      exact ⟨rfl, rfl, by rw [encode_radioTxDone_of_bytes five]; rfl⟩
    · rw [decodeOp_illegalOp reserved] at decoded
      cases decoded
      exact ⟨decide_eq_true reserved, rfl, rfl⟩

end Sys2Proof
end

section
/-! The on-air frames, the PPRZ packets and the telemetry message (spec/30_encoding.md R97 to R110), and the
round trip of all four formats. -/

namespace Sys2Proof

-- Frames

/-- A type that R100 does not assign (R101). -/
theorem frameInstr_unassigned {type : Byte} (f : FrameBody) (unassigned : type ∉ assignedTypes) :
    frameInstr type f = .unassignedType type f := by
  simp only [assignedTypes, List.mem_cons, List.not_mem_nil, or_false, not_or] at unassigned
  simp only [frameInstr, unassigned, if_false]

/-- A well-formed frame instruction is the one of its type tag, on the frame it encodes (R100, R101). -/
theorem onAirFrame_eq_frameInstr {i : Instr} (wf : WellFormed i) (frame : i.format = .onAirFrame) :
    ∃ type f, f.wellFormed = true ∧ i = frameInstr type f ∧ encode i = encodeFrame type f := by
  cases i with
  | rangePoll f => exact ⟨0, f, wf, rfl, rfl⟩
  | rangeResponse f => exact ⟨1, f, wf, rfl, rfl⟩
  | rangeFinal f => exact ⟨2, f, wf, rfl, rfl⟩
  | rangeTransfer f => exact ⟨3, f, wf, rfl, rfl⟩
  | rangeReport f => exact ⟨5, f, wf, rfl, rfl⟩
  | rangeRequest f => exact ⟨6, f, wf, rfl, rfl⟩
  | dataRelay f => exact ⟨42, f, wf, rfl, rfl⟩
  | ping f => exact ⟨254, f, wf, rfl, rfl⟩
  | pong f => exact ⟨255, f, wf, rfl, rfl⟩
  | unassignedType type f =>
    simp only [WellFormed, Instr.wellFormed, Bool.and_eq_true, Bool.not_eq_true'] at wf
    obtain ⟨unassigned, short⟩ := wf
    have notAssigned : type ∉ assignedTypes := by simpa using unassigned
    exact ⟨type, f, short, (frameInstr_unassigned f notAssigned).symm, rfl⟩
  | _ => nomatch frame

/-- A frame read back is the instruction of its type (R98, R100). -/
theorem decodeFrame_encodeFrame (type : Byte) {f : FrameBody} (short : f.wellFormed = true) :
    decodeFrame (encodeFrame type f) = .ok (frameInstr type f) := by
  rw [decodeFrame, decodeFrameFields_encodeFrame type f short]

-- Packets

/-- The parts of a packet: STX, LEN, DATA, and the checksums of the whole (R106, R108). -/
theorem pprzEncode_parts (data : List Byte) :
    ∃ cka ckb, pprzEncode data = Config.pprzStx :: BitVec.ofNat 8 (data.length + 4) :: (data ++ [cka, ckb]) ∧
      cks (pprzEncode data) (data.length + 4) = (cka, ckb) := by
  refine ⟨_, _, by rw [pprzEncode, Config.pprzOverhead, Nat.add_comm]; rfl, ?_⟩
  rw [pprzEncode, Config.pprzOverhead, Nat.add_comm,
    cks_append _ _ (by simp) (by omega)]

/-- A packet reads back before any further bytes (R109). -/
theorem decodePprz_pprzEncode_append {data : List Byte} (two : 2 ≤ data.length) (fits : data.length ≤ 251)
    (rest : List Byte) : decodePprz (pprzEncode data ++ rest) = .ok (.pprzPacket data, rest) := by
  have valid := validPacketAt_pprzEncode data rest two
  obtain ⟨cka, ckb, parts, -⟩ := pprzEncode_parts data
  have lenByte : (BitVec.ofNat 8 (data.length + 4)).toNat = data.length + 4 := by
    rw [BitVec.toNat_ofNat]
    omega
  rw [parts] at valid ⊢
  simp only [List.cons_append] at valid ⊢
  rw [decodePprz, lenByte, if_pos ⟨rfl, valid⟩]
  simp

/-- The telemetry message reads back before any further bytes (R110). -/
theorem decodeReport_pprzEncode_append (sender msgId src dest : Byte) (range : F64) (rest : List Byte) :
    decodeReport (pprzEncode ([sender, msgId, src, dest] ++ leBytes 8 range.toNat) ++ rest) =
      .ok (.pprzRangeReport sender msgId src dest range, rest) := by
  rw [decodeReport, decodePprz_pprzEncode_append (by simp) (by simp)]
  simp [ofNat_fromLE_leBytes8]

theorem pprzPacket_of_format {i : Instr} (h : i.format = .pprzPacket) : ∃ data, i = .pprzPacket data := by
  cases i with
  | pprzPacket data => exact ⟨data, rfl⟩
  | _ => nomatch h

theorem pprzRangeReport_of_format {i : Instr} (h : i.format = .pprzRangeReport) :
    ∃ sender msgId src dest range, i = .pprzRangeReport sender msgId src dest range := by
  cases i with
  | pprzRangeReport sender msgId src dest range => exact ⟨sender, msgId, src, dest, range, rfl⟩
  | _ => nomatch h

/-- Settles O3: the four formats, each by the round trip of its own decoder. -/
theorem decodeUndoesEncode : Obligations.DecodeUndoesEncode := by
  intro i wf
  cases fmt : i.format with
  | inputOp => simpa [decodeAs] using decodeOp_encode_append [] wf fmt
  | onAirFrame =>
    obtain ⟨type, f, short, rfl, bytes⟩ := onAirFrame_eq_frameInstr wf fmt
    rw [decodeAs, bytes, decodeFrame_encodeFrame type short]
    rfl
  | pprzPacket =>
    obtain ⟨data, rfl⟩ := pprzPacket_of_format fmt
    obtain ⟨two, fits⟩ : 2 ≤ data.length ∧ data.length ≤ 251 := of_decide_eq_true wf
    simpa [decodeAs, encode] using decodePprz_pprzEncode_append two fits []
  | pprzRangeReport =>
    obtain ⟨sender, msgId, src, dest, range, rfl⟩ := pprzRangeReport_of_format fmt
    simpa [decodeAs, encode] using decodeReport_pprzEncode_append sender msgId src dest range []

/-- Settles O7: five closed terms. -/
theorem writtenWordsDecode : Obligations.WrittenWordsDecode := by
  unfold Obligations.WrittenWordsDecode
  decide

end Sys2Proof
end

section
/-! The checksums of a packet as sums over its bytes (spec/30_encoding.md R108). -/

namespace Sys2Proof

/-- The sum of the bytes. -/
def byteSum (bs : List Byte) : Nat := (bs.map BitVec.toNat).sum

/-- The sum of the running sums of the bytes. -/
def runningByteSum (bs : List Byte) : Nat :=
  ((List.range bs.length).map fun i => byteSum (bs.take (i + 1))).sum

theorem byteSum_cons (x : Byte) (xs : List Byte) : byteSum (x :: xs) = x.toNat + byteSum xs := by
  simp [byteSum]

/-- A byte put in front is in every running sum. -/
theorem runningByteSum_cons (x : Byte) (xs : List Byte) :
    runningByteSum (x :: xs) = (xs.length + 1) * x.toNat + runningByteSum xs := by
  have later : ∀ i, byteSum ((x :: xs).take (i + 1 + 1)) = x.toNat + byteSum (xs.take (i + 1)) :=
    fun i => by rw [List.take_succ_cons, byteSum_cons]
  have first : byteSum ((x :: xs).take (0 + 1)) = x.toNat := by simp [byteSum]
  simp only [runningByteSum, List.length_cons, List.range_succ_eq_map, List.map_cons, List.map_map,
    Function.comp_def, Nat.succ_eq_add_one, first, later, List.sum_cons, List.sum_map_add,
    List.map_const', List.length_range, List.sum_replicate, smul_eq_mul]
  ring

/-- The running sums from a and b on: each further byte adds the sum so far to the second (R108). -/
theorem cksFrom_ofNat (xs : List Byte) : ∀ a b : Nat,
    cksFrom (BitVec.ofNat 8 a) (BitVec.ofNat 8 b) xs =
      (BitVec.ofNat 8 (a + byteSum xs), BitVec.ofNat 8 (b + xs.length * a + runningByteSum xs)) := by
  induction xs with
  | nil => intro a b; simp [cksFrom, byteSum, runningByteSum]
  | cons x xs ih =>
    intro a b
    have sum : BitVec.ofNat 8 a + x = BitVec.ofNat 8 (a + x.toNat) := by simp [BitVec.ofNat_add]
    have first : a + x.toNat + byteSum xs = a + byteSum (x :: xs) := by rw [byteSum_cons]; ring
    have second : b + (a + x.toNat) + xs.length * (a + x.toNat) + runningByteSum xs =
        b + (x :: xs).length * a + runningByteSum (x :: xs) := by
      rw [runningByteSum_cons, List.length_cons]
      ring
    rw [cksFrom, sum, ← BitVec.ofNat_add, ih, first, second]

/-- Settles O8: both running sums start at 0. -/
theorem checksumsAreRunningSums : Obligations.ChecksumsAreRunningSums := by
  intro p len
  have sums := cksFrom_ofNat ((p.drop 1).take (len - 3)) 0 0
  simp only [Nat.mul_zero, Nat.zero_add] at sums
  exact ⟨congrArg Prod.fst sums, congrArg Prod.snd sums⟩

end Sys2Proof
end

section
/-! Two instructions of the encoding's tables in a running FRC: the telemetry message pushed into TXRB
(spec/30_encoding.md R110, spec/41_pprz.md R152) and a reserved opcode (spec/30_encoding.md R95). -/

namespace Sys2Proof.Machine

/-- Settles O29: the message is the packet of its 12 data bytes, and `pushReport_spec` says what its push
leaves. -/
theorem rangeReportMessagePushed : Obligations.RangeReportMessagePushed := by
  intro sender msgId src dest range s running notOver
  obtain ⟨r, appended, report⟩ :=
    pushReport_spec sender msgId src dest (length_leBytes 8 range.toNat) notOver
  obtain ⟨cka, ckb, parts, sums⟩ := pprzEncode_parts ([sender, msgId, src, dest] ++ leBytes 8 range.toNat)
  refine ⟨r, cka, ckb, _, ?_, ?_, appended, ?_⟩
  · simpa [Config.pprzStx] using parts
  · simpa using sums
  · rw [exec, execPprzRangeReport, operate_running running, distBytes, report]

/-- Settles O51: a reserved opcode is the anomaly ILLEGAL_OP (R261) and nothing else. -/
theorem reservedOpcodeCounted : Obligations.ReservedOpcodeCounted := by
  intro opcode s running
  rw [exec, execIllegalOp, operate_running running]
  rfl

end Sys2Proof.Machine
end

section
/-! The frame codec's round trip, both ways (spec/40_codec.md R122). -/

namespace Sys2Proof

/-- A byte string of 4 to 19 bytes is a frame (R98, R121). -/
theorem exists_decodeFrameFields {d : List Byte} (four : 4 ≤ d.length) (short : d.length ≤ 19) :
    ∃ type f, decodeFrameFields d = some (type, f) := by
  cases decoded : decodeFrameFields d with
  | none => rcases decodeFrameFields_none decoded with few | many <;> omega
  | some fields => exact ⟨fields.1, fields.2, rfl⟩

/-- Settles O6: what a frame's encoding decodes to, and what a decoded byte string encodes to, are the model's
two laws of the codec. -/
theorem frameCodecRoundTrip : Obligations.FrameCodecRoundTrip := by
  refine ⟨fun type f short => decodeFrameFields_encodeFrame type f (decide_eq_true short), ?_⟩
  intro d four short
  obtain ⟨type, f, decoded⟩ := exists_decodeFrameFields four short
  obtain ⟨encoded, -⟩ := decodeFrameFields_some decoded
  exact ⟨type, f, decoded, encoded⟩

end Sys2Proof
end

section
/-! The frames an instruction transmits (spec/40_codec.md R124, spec/30_encoding.md R96). Of the moves of an
instruction, only `transmit` emits a TX_FRAME and advances `seqCtr`; it starts a transmission, and only
`complete`, which no transmitting instruction makes, ends one. -/

namespace Sys2Proof.Machine

-- Counting the frames of a list of commands

theorem txFrames_append (cs ds : List Command) : txFrames (cs ++ ds) = txFrames cs + txFrames ds :=
  List.countP_append

theorem txFrame_notMem {cmds : List Command} (zero : txFrames cmds = 0) (bytes : List Byte) :
    Command.txFrame bytes ∉ cmds :=
  fun mem => List.countP_eq_zero.1 zero _ mem rfl

-- No frame, and the frames with their numbers

/-- From `s` to `t` no frame is transmitted: commands other than TX_FRAME may be added, and the address and the
number of the next frame stay (R25, R96). -/
def NoFrameSent (s t : State) : Prop :=
  t.cfg = s.cfg ∧ t.seqCtr = s.seqCtr ∧ ∃ cmds, t.out = s.out ++ cmds ∧ txFrames cmds = 0

/-- From `s` to `t` at most one frame is transmitted, and it carries the address and the sequence number of
`s` (R124). -/
def AtMostOneFrameSent (s t : State) : Prop :=
  ∃ cmds, t.out = s.out ++ cmds ∧ t.seqCtr = s.seqCtr + BitVec.ofNat 8 (txFrames cmds) ∧
    txFrames cmds ≤ 1 ∧
    ∀ bytes, .txFrame bytes ∈ cmds →
      4 ≤ bytes.length ∧ bytes.length ≤ 19 ∧ bytes.getD 0 0 = s.cfg.localAddr ∧
        bytes.getD 3 0 = s.seqCtr

theorem NoFrameSent.of_out_kept {s t : State} (cfg : t.cfg = s.cfg) (seq : t.seqCtr = s.seqCtr)
    (out : t.out = s.out) : NoFrameSent s t :=
  ⟨cfg, seq, [], by rw [out, List.append_nil], rfl⟩

theorem NoFrameSent.refl (s : State) : NoFrameSent s s := .of_out_kept rfl rfl rfl

theorem NoFrameSent.trans {s u t : State} (first : NoFrameSent s u) (second : NoFrameSent u t) :
    NoFrameSent s t := by
  obtain ⟨hcfg, hseq, cs, hout, hcs⟩ := first
  obtain ⟨hcfg', hseq', ds, hout', hds⟩ := second
  refine ⟨hcfg'.trans hcfg, hseq'.trans hseq, cs ++ ds, ?_, ?_⟩
  · rw [hout', hout, List.append_assoc]
  · rw [txFrames_append, hcs, hds]

theorem NoFrameSent.atMostOne {s t : State} (quiet : NoFrameSent s t) : AtMostOneFrameSent s t := by
  obtain ⟨-, hseq, cmds, hout, hnone⟩ := quiet
  refine ⟨cmds, hout, ?_, by omega, fun bytes mem => absurd mem (txFrame_notMem hnone bytes)⟩
  rw [hseq, hnone, BitVec.add_zero]

/-- A frame's number and address are those from before the quiet moves that precede it. -/
theorem AtMostOneFrameSent.after_quiet {s u t : State} (quiet : NoFrameSent s u)
    (sent : AtMostOneFrameSent u t) : AtMostOneFrameSent s t := by
  obtain ⟨hcfg, hseq, cs, hout, hnone⟩ := quiet
  obtain ⟨ds, hout', hseq', hone, hframe⟩ := sent
  have frames : txFrames (cs ++ ds) = txFrames ds := by rw [txFrames_append, hnone, Nat.zero_add]
  refine ⟨cs ++ ds, by rw [hout', hout, List.append_assoc], by rw [frames, hseq', hseq], frames ▸ hone, ?_⟩
  intro bytes mem
  have later := (List.mem_append.1 mem).resolve_left (txFrame_notMem hnone bytes)
  rw [← hcfg, ← hseq]
  exact hframe bytes later

/-- Quiet moves after a frame change nothing that is said of it. -/
theorem AtMostOneFrameSent.before_quiet {s u t : State} (sent : AtMostOneFrameSent s u)
    (quiet : NoFrameSent u t) : AtMostOneFrameSent s t := by
  obtain ⟨cs, hout, hseq, hone, hframe⟩ := sent
  obtain ⟨-, hseq', ds, hout', hnone⟩ := quiet
  have frames : txFrames (cs ++ ds) = txFrames cs := by rw [txFrames_append, hnone, Nat.add_zero]
  refine ⟨cs ++ ds, by rw [hout', hout, List.append_assoc], by rw [frames, hseq', hseq], frames ▸ hone, ?_⟩
  intro bytes mem
  exact hframe bytes ((List.mem_append.1 mem).resolve_right (txFrame_notMem hnone bytes))

-- The moves

theorem armRx_noFrameSent (s : State) : NoFrameSent s (armRx s) := by
  cases busy : s.txBusy
  · rw [armRx_idle busy]
    exact ⟨rfl, rfl, [.armRx], rfl, rfl⟩
  · rw [armRx_busy busy]
    exact .refl s

/-- Only `Send` transmits (R123). -/
theorem Move.noFrameSent {k : Kind} {s t : State} (move : Move k s t) (other : k ≠ .transmit) :
    NoFrameSent s t := by
  cases move with
  | transmit => exact absurd rfl other
  | rearm => exact armRx_noFrameSent s
  | complete => exact ⟨rfl, rfl, [.armRx], rfl, rfl⟩
  | emitUart => exact ⟨rfl, rfl, [.uartTxByte (s.txrb.peek 0)], rfl, rfl⟩
  | enqueue b => exact .of_out_kept (pushTx_cfg b s) (pushTx_seqCtr b s) (pushTx_out b s)
  | storeRx b => exact .of_out_kept (pushRx_cfg b s) (pushRx_seqCtr b s) (pushRx_out b s)
  | _ => exact .of_out_kept rfl rfl rfl

/-- `Send` transmits one frame, of LOCAL_ADDR and `seqCtr`, and starts a transmission (R123, R124). -/
theorem Move.transmit_sends {s t : State} (move : Move .transmit s t) :
    AtMostOneFrameSent s t ∧ t.txBusy = true := by
  cases move with
  | transmit dest type payload _ short _ =>
    refine ⟨⟨[.txFrame ([s.cfg.localAddr, dest, type, s.seqCtr] ++ payload)], rfl, rfl, le_rfl, ?_⟩, rfl⟩
    intro bytes mem
    obtain rfl := Command.txFrame.inj (List.mem_singleton.1 mem)
    refine ⟨?_, ?_, rfl, rfl⟩ <;> simp only [List.length_append, List.length_cons, List.length_nil] <;> omega

/-- Only a completion ends a transmission (R23). -/
theorem Move.busy_kept {k : Kind} {s t : State} (move : Move k s t) (other : k ≠ .complete)
    (busy : s.txBusy = true) : t.txBusy = true := by
  cases move with
  | complete => exact absurd rfl other
  | transmit => rfl
  | rearm => rwa [armRx_txBusy]
  | enqueue b => rwa [pushTx_txBusy]
  | storeRx b => rwa [pushRx_txBusy]
  | _ => exact busy

/-- During a transmission no other is started (R123). -/
theorem Move.kind_ne_transmit_of_busy {k : Kind} {s t : State} (move : Move k s t) (busy : s.txBusy = true) :
    k ≠ .transmit := by
  rintro rfl
  cases move with
  | transmit _ _ _ idle => simp [busy] at idle

variable {P : Kind → Prop}

theorem Moves.noFrameSent (never : ¬ P .transmit) {s t : State} (moves : Moves P s t) : NoFrameSent s t :=
  moves.relation NoFrameSent.refl (fun _ _ _ => NoFrameSent.trans) fun _ _ _ allowed move =>
    move.noFrameSent fun transmits => never (transmits ▸ allowed)

/-- While the transmission in flight does not complete, no frame is transmitted (R123). -/
theorem Moves.noFrameSent_of_busy (never : ¬ P .complete) {s t : State} (moves : Moves P s t)
    (busy : s.txBusy = true) : NoFrameSent s t := by
  induction moves with
  | done s => exact .refl s
  | step allowed move _ ih =>
    have stays := move.busy_kept (fun completes => never (completes ▸ allowed)) busy
    exact (move.noFrameSent (move.kind_ne_transmit_of_busy busy)).trans (ih stays)

/-- Where no transmission completes, the first frame is the last. -/
theorem Moves.atMostOneFrameSent (never : ¬ P .complete) {s t : State} (moves : Moves P s t) :
    AtMostOneFrameSent s t := by
  induction moves with
  | done s => exact (NoFrameSent.refl s).atMostOne
  | @step k _ _ _ _ move rest ih =>
    by_cases transmits : k = .transmit
    · subst transmits
      obtain ⟨sent, busy⟩ := move.transmit_sends
      exact sent.before_quiet (rest.noFrameSent_of_busy never busy)
    · exact ih.after_quiet (move.noFrameSent transmits)

-- The instructions

/-- The one instruction that completes a transmission is RADIO_TX_DONE (R224). -/
theorem canMake_complete {i : Instr} (h : canMake i .complete = true) : ∃ ts, i = .radioTxDone ts := by
  cases i with
  | radioTxDone ts => exact ⟨ts, rfl⟩
  | _ => simp [canMake, frameKind] at h

/-- Settles O53: RADIO_TX_DONE transmits nothing, and no other instruction ends the transmission that its
first frame starts. -/
theorem sequenceCountsTransmittedFrames : Obligations.SequenceCountsTransmittedFrames := by
  intro i s t notRst next
  have moves := exec_moves notRst next
  by_cases completes : canMake i .complete = true
  · obtain ⟨ts, rfl⟩ := canMake_complete completes
    exact (moves.noFrameSent (by simp [canMake])).atMostOne
  · exact moves.atMostOneFrameSent completes

end Sys2Proof.Machine
end

section
/-! The receiver after a radio event (spec/40_codec.md R126). -/

namespace Sys2Proof.Machine

/-- RADIO_TX_DONE of a frame in flight: the captures, the end of the transmission, the re-arm (R224). -/
theorem exec_radioTxDone_busy (ts : Timestamp) {s : State} (running : Running s) (busy : s.txBusy = true) :
    exec (.radioTxDone ts) s = .next (armRx { captureTxDone ts s with txBusy := false }) := by
  rw [exec, execRadioTxDone, operate_running running, if_pos busy]

/-- Settles O54: a received frame's handling settles the receiver, and after a completion the FRC is idle when
it re-arms. -/
theorem radioEventArmsOrTransmits : Obligations.RadioEventArmsOrTransmits := by
  refine ⟨fun ts data s t running next => execRadioRx_armedUnlessBusy running next, ?_⟩
  intro ts s t running busy next
  rw [exec_radioTxDone_busy ts running busy, armRx_idle rfl] at next
  cases next
  exact ⟨rfl, rfl⟩

end Sys2Proof.Machine
end

section
/-! The two UART operations in a running FRC (spec/41_pprz.md R140, R153). -/

namespace Sys2Proof.Machine

/-- `Push(RXRB, b)` with room (R62). -/
theorem pushRx_room {s : State} (room : s.rxrb.count < 256) (b : Byte) :
    pushRx b s = { s with rxrb := s.rxrb.append b } :=
  if_neg (by simp only [Config.rbCap]; omega)

/-- `Push(RXRB, b)` into a full ring (R62). -/
theorem pushRx_full {s : State} (full : s.rxrb.count = 256) (b : Byte) :
    pushRx b s = count .rxrbOverflow s :=
  if_pos full

theorem exec_uartRxByte {s : State} (running : Running s) (b : Byte) :
    exec (.uartRxByte b) s = .next (pushRx b s) := by
  rw [exec, execUartRxByte, operate_running running]

/-- TXRB_POP with nothing to send (R153). -/
theorem exec_txrbPop_empty {s : State} (running : Running s) (empty : s.txrb.count = 0) :
    exec .txrbPop s = .next s := by
  rw [exec, execTxrbPop, operate_running running, if_pos empty]

/-- TXRB_POP with a byte to send (R153). -/
theorem exec_txrbPop_byte {s : State} (running : Running s) (nonempty : 0 < s.txrb.count) :
    exec .txrbPop s =
      .next { s with txrb := s.txrb.dropN 1, out := s.out ++ [.uartTxByte (s.txrb.peek 0)] } := by
  rw [exec, execTxrbPop, operate_running running, if_neg (by omega)]
  rfl

/-- Settles O17: UART_RX_BYTE is one `Push`, with room or into a full ring. -/
theorem uartByteAppendedOrDropped : Obligations.UartByteAppendedOrDropped := by
  intro b s running
  rw [exec_uartRxByte running]
  refine ⟨fun room => ⟨_, RingBuf.appended_one s.rxrb b room, ?_⟩, fun full => ?_⟩
  · rw [pushRx_room room]
  · rw [pushRx_full full]
    rfl

/-- Settles O18: the byte at the head of the content is the one that TXRB_POP emits, and `dropN 1` is what the
pop leaves. -/
theorem txrbPopEmitsOldestByte : Obligations.TxrbPopEmitsOldestByte := by
  intro s running
  have length := RingBuf.length_content s.txrb
  constructor
  · intro b rest content
    have nonempty : 0 < s.txrb.count := by rw [← length, content]; simp
    have head : s.txrb.peek 0 = b := by rw [RingBuf.peek_eq_getD _ nonempty, content]; rfl
    refine ⟨_, consumed_dropN s.txrb 1, ?_, ?_⟩
    · rw [RingBuf.content_dropN, content]
      rfl
    · rw [exec_txrbPop_byte running nonempty, head]
  · intro content
    exact exec_txrbPop_empty running (by rw [← length, content]; rfl)

end Sys2Proof.Machine
end

section
/-! An extracted packet: the success counter, then the relay (spec/41_pprz.md R147 to R149). -/

namespace Sys2Proof.Machine

/-- The state after the success counter has advanced (R147). -/
def succeeded (s : State) : State := { s with cnt := { s.cnt with pprzOk := s.cnt.pprzOk + 1 } }

/-- A packet of at most 15 bytes is handed to `Send` (R148). -/
theorem acceptPacket_short {p : List Byte} (short : p.length ≤ 15) (s : State) :
    acceptPacket p s = send s.cfg.relayDest 42 p (succeeded s) :=
  if_neg (by simp only [Config.maxPayload]; omega)

/-- A packet of more than 15 bytes is dropped (R149). -/
theorem acceptPacket_oversize {p : List Byte} (long : 15 < p.length) (s : State) :
    acceptPacket p s = .next (count .relayOversize (succeeded s)) :=
  if_pos long

/-- What a transmission does to RXRB, the counters and the commands (R123). -/
theorem SentFrame.changes {s t : State} {bytes : List Byte} (sent : SentFrame s bytes t) :
    t.rxrb = s.rxrb ∧ t.cnt = s.cnt ∧ t.out = s.out ++ [.txFrame bytes] := by
  obtain ⟨buf, -, rfl⟩ := sent
  exact ⟨rfl, rfl, rfl⟩

/-- A packet of at most 15 bytes goes out as one DATA_RELAY frame where the transmitter is free (R148). -/
theorem acceptPacket_idle {p : List Byte} (short : p.length ≤ 15) {s : State} (idle : s.txBusy = false) :
    ∃ t, acceptPacket p s = .next t ∧
      SentFrame (succeeded s) ([s.cfg.localAddr, s.cfg.relayDest, 42, s.seqCtr] ++ p) t := by
  rw [acceptPacket_short short]
  exact send_idle (s := succeeded s) idle s.cfg.relayDest 42 short

/-- Whatever becomes of the packet, its success is counted once and RXRB is left alone (R147 to R149). -/
theorem acceptPacket_next {p : List Byte} {s t : State} (next : acceptPacket p s = .next t) :
    t.rxrb = s.rxrb ∧ t.cnt.pprzOk = s.cnt.pprzOk + 1 := by
  by_cases short : p.length ≤ 15
  · rw [acceptPacket_short short] at next
    rcases send_next next with ⟨-, rfl⟩ | ⟨-, sent, -⟩
    · exact ⟨rfl, rfl⟩
    · obtain ⟨rxrb, cnt, -⟩ := sent.changes
      exact ⟨rxrb, by rw [cnt, succeeded]⟩
  · rw [acceptPacket_oversize (by omega)] at next
    cases next
    exact ⟨rfl, rfl⟩

theorem exec_pprzPacket {s : State} (running : Running s) (data : List Byte) :
    exec (.pprzPacket data) s = acceptPacket (pprzEncode data) s := by
  rw [exec, execPprzPacket, operate_running running]

/-- Settles O28: a packet of at most 11 bytes of DATA has at most 15 bytes, and `Send` answers by `txBusy`; a
longer one is never sent. -/
theorem extractedPacketEffect : Obligations.ExtractedPacketEffect := by
  intro data s running
  rw [exec_pprzPacket running]
  have length := length_pprzEncode data
  refine ⟨fun short idle => acceptPacket_idle (by omega) idle, fun short busy => ?_, fun long => ?_⟩
  · rw [acceptPacket_short (by omega), send_busy (s := succeeded s) busy]
    rfl
  · rw [acceptPacket_oversize (by omega)]
    rfl

end Sys2Proof.Machine
end

section
/-! One PARSE_STEP of an idle FRC by what RXRB holds (spec/41_pprz.md R141 to R147): step 1 discards up to the
first 0x99, and from there on the bytes are waited for, rejected with the loss of their 0x99, or extracted. -/

namespace Sys2Proof.Machine

/-- RXRB holds `junk`, in which there is no 0x99, and then `tail`, which is empty or begins with 0x99: its
content as step 1 of the parser splits it (R142). -/
structure SplitAtStx (s : State) (junk tail : List Byte) : Prop where
  content : s.rxrb.content = junk ++ tail
  noStx : ∀ b ∈ junk, b ≠ Config.pprzStx
  stx : ∀ b, tail.head? = some b → b = Config.pprzStx

/-- Every content of RXRB is split so. -/
theorem exists_splitAtStx (s : State) : ∃ junk tail, SplitAtStx s junk tail := by
  obtain ⟨junk, tail, content, noStx, stx⟩ := split_at_stx s.rxrb.content
  exact ⟨junk, tail, content, noStx, stx⟩

/-- A 0x99 after bytes that are none begins the tail. -/
theorem SplitAtStx.of_cons {s : State} {junk more : List Byte}
    (content : s.rxrb.content = junk ++ Config.pprzStx :: more)
    (noStx : ∀ b ∈ junk, b ≠ Config.pprzStx) : SplitAtStx s junk (Config.pprzStx :: more) where
  content := content
  noStx := noStx
  stx _ head := (Option.some.inj head).symm

/-- The LEN byte of the bytes from the first 0x99 on (R144). -/
def tailLen (tail : List Byte) : Nat := (tail.getD 1 0).toNat

@[simp] theorem tailLen_cons_cons (stx len : Byte) (more : List Byte) :
    tailLen (stx :: len :: more) = len.toNat := rfl

theorem tailLen_append {p : List Byte} (two : 2 ≤ p.length) (more : List Byte) :
    tailLen (p ++ more) = tailLen p := by
  rw [tailLen, List.getD_append _ _ _ _ (by omega), tailLen]

/-- The state after n bytes are discarded and the `len` bytes behind them are taken (R142, R147). -/
def taken (n len : Nat) (s : State) : State :=
  { s with
    rxrb := s.rxrb.dropN (n + len)
    cnt := { s.cnt with pprzDiscard := s.cnt.pprzDiscard + BitVec.ofNat 32 n }
    lastErr := if n = 0 then s.lastErr else 0x08 }

/-- The state after n bytes are discarded and the 0x99 behind them is rejected for a cause (R142, R144,
R146). -/
def rejected (e : Cause) (n : Nat) (s : State) : State := count e (taken n 1 s)

theorem dropN_discarded (n len : Nat) (s : State) :
    { discarded n s with rxrb := (discarded n s).rxrb.dropN len } = taken n len s := by
  rw [taken, ← RingBuf.dropN_add]
  rfl

theorem count_popRx_discarded (e : Cause) (n : Nat) (s : State) :
    count e (popRx (discarded n s)) = rejected e n s :=
  congrArg (count e) (dropN_discarded n 1 s)

theorem taken_content (n len : Nat) (s : State) :
    (taken n len s).rxrb.content = s.rxrb.content.drop (n + len) :=
  RingBuf.content_dropN (n + len) s.rxrb

theorem rejected_content (e : Cause) (n : Nat) (s : State) :
    (rejected e n s).rxrb.content = s.rxrb.content.drop (n + 1) :=
  taken_content n 1 s

theorem exec_parseStep_busy {s : State} (running : Running s) (busy : s.txBusy = true) :
    exec .parseStep s = .next { s with held := s.held + 1 } := by
  rw [exec, execParseStep, operate_running running, if_pos busy]

theorem exec_parseStep_idle {s : State} (running : Running s) (idle : s.txBusy = false) :
    exec .parseStep s = parseStepBody s := by
  rw [exec, execParseStep, operate_running running, if_neg (by simp [idle])]

/-- `Parse` returns NONE: the step ends there. -/
theorem parseStepBody_none {s t : State} (noPacket : parse s = (none, t)) : parseStepBody s = .next t := by
  rw [parseStepBody, noPacket]

/-- `Parse` returns a packet: it is counted and relayed (R148). -/
theorem parseStepBody_some {s t : State} {p : List Byte} (packet : parse s = (some p, t)) :
    parseStepBody s = acceptPacket p t := by
  rw [parseStepBody, packet]

/-- Settles O19: the branch of PARSE_STEP during a transmission. -/
theorem parseStepHeldWhileTransmitting : Obligations.ParseStepHeldWhileTransmitting :=
  fun _ running busy => exec_parseStep_busy running busy

section
variable {s : State} {junk tail : List Byte} (running : Running s) (idle : s.txBusy = false)
  (split : SplitAtStx s junk tail)

include split in
/-- `Parse` by the bytes from the first 0x99 on: not enough of them to tell, or to be the whole packet; a LEN
of 5 or less; wrong checksums; a packet (R142 to R147). -/
theorem parse_cases :
    ((tail.length < 5 ∨ (6 ≤ tailLen tail ∧ tail.length < tailLen tail)) ∧
      parse s = (none, discarded junk.length s)) ∨
    (5 ≤ tail.length ∧ tailLen tail < 6 ∧ parse s = (none, rejected .pprzBadLen junk.length s)) ∨
    (5 ≤ tail.length ∧ 6 ≤ tailLen tail ∧ tailLen tail ≤ tail.length ∧
      validPacketAt (tail.take (tailLen tail)) (tailLen tail) = false ∧
      parse s = (none, rejected .pprzBadCksum junk.length s)) ∨
    (5 ≤ tail.length ∧ 6 ≤ tailLen tail ∧ tailLen tail ≤ tail.length ∧
      validPacketAt (tail.take (tailLen tail)) (tailLen tail) = true ∧
      parse s = (some (tail.take (tailLen tail)), taken junk.length (tailLen tail) s)) := by
  obtain ⟨hunted, rest⟩ := parse_spec split.content split.noStx split.stx
  rw [hunted, ← count_popRx_discarded, ← count_popRx_discarded, ← dropN_discarded]
  rcases parseHead_spec rest with ⟨few, h⟩ | badLen | ⟨-, six, part, h⟩ | badCksum | packet
  · exact .inl ⟨.inl few, h⟩
  · exact .inr (.inl badLen)
  · exact .inl ⟨.inr ⟨six, part⟩, h⟩
  · exact .inr (.inr (.inl badCksum))
  · exact .inr (.inr (.inr packet))

include running idle split

/-- Steps 2 and 4: the bytes from the first 0x99 on stay (R143, R145). -/
theorem exec_parseStep_waits
    (part : tail.length < 5 ∨ (6 ≤ tailLen tail ∧ tail.length < tailLen tail)) :
    exec .parseStep s = .next (discarded junk.length s) := by
  rw [exec_parseStep_idle running idle]
  rcases parse_cases split with ⟨-, h⟩ | ⟨_, _, -⟩ | ⟨_, _, _, -⟩ | ⟨_, _, _, -⟩
  · exact parseStepBody_none h
  all_goals omega

/-- Step 3: a LEN of 5 or less (R144). -/
theorem exec_parseStep_badLen (five : 5 ≤ tail.length) (bad : tailLen tail < 6) :
    exec .parseStep s = .next (rejected .pprzBadLen junk.length s) := by
  rw [exec_parseStep_idle running idle]
  rcases parse_cases split with ⟨_, -⟩ | ⟨-, -, h⟩ | ⟨_, _, _, -⟩ | ⟨_, _, _, -⟩
  case inr.inl => exact parseStepBody_none h
  all_goals omega

end

section
variable {s : State} {junk p more : List Byte} (running : Running s) (idle : s.txBusy = false)
  (split : SplitAtStx s junk (p ++ more))

include running idle split

/-- Step 5: a whole packet that is not valid (R146). -/
theorem exec_parseStep_badCksum (six : 6 ≤ p.length) (len : tailLen p = p.length)
    (invalid : validPacketAt p p.length = false) :
    exec .parseStep s = .next (rejected .pprzBadCksum junk.length s) := by
  rw [exec_parseStep_idle running idle]
  have cases := parse_cases split
  rw [tailLen_append (by omega), len, List.take_left, List.length_append] at cases
  rcases cases with ⟨_, -⟩ | ⟨-, _, -⟩ | ⟨-, -, -, -, h⟩ | ⟨-, -, -, valid, -⟩
  case inr.inr.inl => exact parseStepBody_none h
  case inr.inr.inr => simp [invalid] at valid
  all_goals omega

/-- Step 6: a whole valid packet is extracted and relayed (R147, R148). -/
theorem exec_parseStep_packet (six : 6 ≤ p.length) (len : tailLen p = p.length)
    (valid : validPacketAt p p.length = true) :
    exec .parseStep s = acceptPacket p (taken junk.length p.length s) := by
  rw [exec_parseStep_idle running idle]
  have cases := parse_cases split
  rw [tailLen_append (by omega), len, List.take_left, List.length_append] at cases
  rcases cases with ⟨_, -⟩ | ⟨-, _, -⟩ | ⟨-, -, -, invalid, -⟩ | ⟨-, -, -, -, h⟩
  case inr.inr.inr => exact parseStepBody_some h
  case inr.inr.inl => simp [valid] at invalid
  all_goals omega

end

/-- Settles O20: fewer than 5 bytes from the first 0x99 on are waited for. -/
theorem parseDiscardsToStxAndWaits : Obligations.ParseDiscardsToStxAndWaits := by
  intro s junk tail running idle content noStx stx few
  exact ⟨_, consumed_dropN _ _, exec_parseStep_waits running idle ⟨content, noStx, stx⟩ (.inl few)⟩

/-- Settles O21: the rejection for BAD_LEN. -/
theorem parseRejectsShortLen : Obligations.ParseRejectsShortLen := by
  intro s junk more len running idle content noStx three bad
  refine ⟨_, consumed_dropN _ _, exec_parseStep_badLen running idle (.of_cons content noStx) ?_ ?_⟩
  · simp only [List.length_cons]
    omega
  · rw [tailLen_cons_cons]
    omega

/-- Settles O22: fewer bytes than LEN from the first 0x99 on are waited for. -/
theorem parseWaitsForWholePacket : Obligations.ParseWaitsForWholePacket := by
  intro s junk more len running idle content noStx _ six part
  exact ⟨_, consumed_dropN _ _,
    exec_parseStep_waits running idle (.of_cons content noStx) (.inr ⟨six, part⟩)⟩

end Sys2Proof.Machine
end

section
/-! PARSE_STEP on a whole packet, by its checksums (spec/41_pprz.md R146 to R149), and the resync after a
corrupted one (R156). -/

namespace Sys2Proof.Machine

/-- The LEN byte of a packet stands for the packet's length, as DATA has at most 251 bytes (R106). -/
theorem toNat_lenByte {data : List Byte} (fits : data.length ≤ 251) :
    (BitVec.ofNat 8 (data.length + 4)).toNat = data.length + 4 := by
  rw [BitVec.toNat_ofNat]
  omega

/-- A packet is valid exactly where its last two bytes are its checksums (R109). -/
theorem validPacketAt_whole (stx len : Byte) {data : List Byte} (two : 2 ≤ data.length) (cka ckb : Byte) :
    validPacketAt (stx :: len :: (data ++ [cka, ckb])) (data.length + 4) =
      decide (cks (stx :: len :: data) (data.length + 4) = (cka, ckb)) := by
  have sums : cks (stx :: len :: (data ++ [cka, ckb])) (data.length + 4) =
      cks (stx :: len :: data) (data.length + 4) :=
    cks_append (stx :: len :: data) [cka, ckb] (by simp) (by omega)
  simp [validPacketAt, Config.pprzMinLen, two, sums]

section
variable {s : State} {junk data more : List Byte} {cka ckb : Byte} (running : Running s)
  (idle : s.txBusy = false) (two : 2 ≤ data.length) (fits : data.length ≤ 251)
  (noStx : ∀ b ∈ junk, b ≠ 0x99)

include running idle two fits noStx

/-- A whole packet with other bytes in the place of its checksums is rejected (R146). -/
theorem exec_parseStep_corrupted
    (content : s.rxrb.content =
      junk ++ (0x99 :: BitVec.ofNat 8 (data.length + 4) :: data) ++ [cka, ckb] ++ more)
    (wrong : cks (0x99 :: BitVec.ofNat 8 (data.length + 4) :: data) (data.length + 4) ≠ (cka, ckb)) :
    exec .parseStep s = .next (rejected .pprzBadCksum junk.length s) := by
  have length : (0x99 :: BitVec.ofNat 8 (data.length + 4) :: (data ++ [cka, ckb])).length =
      data.length + 4 := by simp
  have split : SplitAtStx s junk
      ((0x99 :: BitVec.ofNat 8 (data.length + 4) :: (data ++ [cka, ckb])) ++ more) :=
    .of_cons (by simpa [Config.pprzStx] using content) noStx
  refine exec_parseStep_badCksum running idle split (by omega) ?_ ?_
  · rw [tailLen_cons_cons, toNat_lenByte fits, length]
  · rw [length, validPacketAt_whole _ _ two, decide_eq_false wrong]

/-- A whole packet as the encoder makes it is extracted and relayed (R147, R148). -/
theorem exec_parseStep_pprzEncode (content : s.rxrb.content = junk ++ pprzEncode data ++ more) :
    exec .parseStep s = acceptPacket (pprzEncode data) (taken junk.length (data.length + 4) s) := by
  have length := length_pprzEncode data
  have valid := validPacketAt_pprzEncode data [] two
  rw [List.append_nil, ← length] at valid
  obtain ⟨cka, ckb, parts, -⟩ := pprzEncode_parts data
  have split : SplitAtStx s junk (pprzEncode data ++ more) := by
    rw [parts] at content ⊢
    exact .of_cons (by simpa using content) noStx
  have len : tailLen (pprzEncode data) = (pprzEncode data).length := by
    rw [length, parts, tailLen_cons_cons, toNat_lenByte fits]
  rw [exec_parseStep_packet running idle split (by omega) len valid, length]

end

/-- Settles O23: the rejection for BAD_CKSUM. -/
theorem parseRejectsBadChecksum : Obligations.ParseRejectsBadChecksum := by
  intro s junk data more cka ckb running idle two fits content noStx wrong
  exact ⟨_, consumed_dropN _ _, exec_parseStep_corrupted running idle two fits noStx content wrong⟩

/-- Settles O24: the packet extracted has at most 15 bytes, and the transmitter is free. -/
theorem parseRelaysValidPacket : Obligations.ParseRelaysValidPacket := by
  intro s junk data more running idle two short content noStx
  obtain ⟨t, next, sent⟩ := acceptPacket_idle (p := pprzEncode data)
    (s := taken junk.length (data.length + 4) s) (by rw [length_pprzEncode]; omega) idle
  simp only [succeeded, taken] at sent
  refine ⟨_, t, consumed_dropN _ _, ?_, sent⟩
  rw [exec_parseStep_pprzEncode running idle two (by omega) noStx content, next]

/-- Settles O25: the packet extracted has more than 15 bytes. -/
theorem parseDropsOversizePacket : Obligations.ParseDropsOversizePacket := by
  intro s junk data more running idle long fits content noStx
  refine ⟨_, consumed_dropN _ _, ?_⟩
  rw [exec_parseStep_pprzEncode running idle (by omega) fits noStx content,
    acceptPacket_oversize (by rw [length_pprzEncode]; omega)]
  rfl

/-- Settles O27: the first step is the rejection of the corrupted packet, with nothing ahead of it; what it
leaves of the packet holds no 0x99, so it is what the second step discards ahead of the valid one. -/
theorem resyncAfterCorruptedPacket : Obligations.ResyncAfterCorruptedPacket := by
  intro s bad data good more cka ckb running idle two fits badBytes wrong noStx two' short content
  have first : exec .parseStep s = .next (rejected .pprzBadCksum 0 s) :=
    exec_parseStep_corrupted (junk := []) (more := pprzEncode good ++ more) running idle two fits (by simp)
      (by simp [content, badBytes]) wrong
  have left : (rejected .pprzBadCksum 0 s).rxrb.content = bad ++ pprzEncode good ++ more := by
    simp [rejected_content, content]
  have second := exec_parseStep_pprzEncode (s := rejected .pprzBadCksum 0 s) running idle two'
    (by omega) noStx left
  obtain ⟨u, relayed, sent⟩ := acceptPacket_idle (p := pprzEncode good)
    (s := taken bad.length (good.length + 4) (rejected .pprzBadCksum 0 s))
    (by rw [length_pprzEncode]; omega) idle
  obtain ⟨rxrb, cnt, out⟩ := sent.changes
  refine ⟨_, u, first, rfl, left, ?_, second.trans relayed, ?_, ?_, ?_⟩
  · simp [rejected, taken, count, Counters.bump]
  · rw [rxrb]
    have rest := taken_content bad.length (good.length + 4) (rejected .pprzBadCksum 0 s)
    rw [left] at rest
    simpa [succeeded] using rest
  · rw [cnt]
    simp [succeeded, taken, rejected, count, Counters.bump]
  · rw [out]
    simp [succeeded, taken, rejected]

end Sys2Proof.Machine
end

section
/-! The progress of the parser (spec/41_pprz.md R154). -/

namespace Sys2Proof.Machine

/-- What R154 asks of a PARSE_STEP that consumes k bytes on its way from `s` to `t`. -/
def ProgressBy (k : Nat) (s t : State) : Prop :=
  k ≤ s.rxrb.content.length ∧ t.rxrb.content = s.rxrb.content.drop k ∧
    (k = 0 → s.rxrb.content = [] ∨
      (s.rxrb.content.getD 0 0 = 0x99 ∧
        (s.rxrb.content.length < 5 ∨
          s.rxrb.content.length < (s.rxrb.content.getD 1 0).toNat))) ∧
    (t.cnt.pprzOk = s.cnt.pprzOk → ∀ j, j + 1 < k → s.rxrb.content.getD j 0 ≠ 0x99)

section
variable {s : State} {junk tail : List Byte} (split : SplitAtStx s junk tail)

include split

theorem SplitAtStx.length : s.rxrb.content.length = junk.length + tail.length := by
  rw [split.content, List.length_append]

/-- No byte ahead of the tail is 0x99. -/
theorem SplitAtStx.getD_ne_stx {j : Nat} (ahead : j < junk.length) : s.rxrb.content.getD j 0 ≠ 0x99 := by
  rw [split.content, List.getD_append _ _ _ _ ahead, List.getD_eq_getElem _ _ ahead]
  exact split.noStx _ (List.getElem_mem ahead)

/-- The junk alone is consumed; with none of it the head is the 0x99 that is waited for (R143, R145). -/
theorem progressBy_discarded
    (part : tail.length < 5 ∨ (6 ≤ tailLen tail ∧ tail.length < tailLen tail)) :
    ProgressBy junk.length s (discarded junk.length s) := by
  have length := split.length
  refine ⟨by omega, RingBuf.content_dropN _ _, fun noJunk => ?_, fun _ j ahead =>
    split.getD_ne_stx (by omega)⟩
  have whole : s.rxrb.content = tail := by
    rw [split.content, List.length_eq_zero_iff.1 noJunk, List.nil_append]
  rw [whole]
  cases tail with
  | nil => exact .inl rfl
  | cons b more => exact .inr ⟨split.stx b rfl, part.imp_right And.right⟩

/-- The junk and the 0x99 are consumed (R144, R146). -/
theorem progressBy_rejected (e : Cause) (five : 5 ≤ tail.length) :
    ProgressBy (junk.length + 1) s (rejected e junk.length s) := by
  have length := split.length
  exact ⟨by omega, rejected_content e _ s, by omega, fun _ j ahead => split.getD_ne_stx (by omega)⟩

/-- The junk and the packet are consumed, and the success counter advances (R147). -/
theorem progressBy_accepted {p : List Byte} {len : Nat} {t : State} (positive : 0 < len)
    (whole : len ≤ tail.length)
    (next : acceptPacket p (taken junk.length len s) = .next t) :
    ProgressBy (junk.length + len) s t := by
  have length := split.length
  obtain ⟨rxrb, success⟩ := acceptPacket_next next
  refine ⟨by omega, by rw [rxrb, taken_content], by omega, fun same => ?_⟩
  have advanced : t.cnt.pprzOk = s.cnt.pprzOk + 1 := success
  simp [same] at advanced

end

/-- Settles O26: the junk ahead of the first 0x99 is consumed in every case, and behind it nothing, the 0x99
alone, or a packet. -/
theorem parserMakesProgress : Obligations.ParserMakesProgress := by
  intro s t running idle next
  rw [exec_parseStep_idle running idle] at next
  obtain ⟨junk, tail, split⟩ := exists_splitAtStx s
  rcases parse_cases split with
    ⟨part, h⟩ | ⟨five, -, h⟩ | ⟨five, -, -, -, h⟩ | ⟨-, six, whole, -, h⟩
  · cases (parseStepBody_none h).symm.trans next
    exact ⟨_, progressBy_discarded split part⟩
  · cases (parseStepBody_none h).symm.trans next
    exact ⟨_, progressBy_rejected split _ five⟩
  · cases (parseStepBody_none h).symm.trans next
    exact ⟨_, progressBy_rejected split _ five⟩
  · rw [parseStepBody_some h] at next
    exact ⟨_, progressBy_accepted split (by omega) whole next⟩

end Sys2Proof.Machine
end

section
/-! The router (spec/42_router.md R181 to R192): the handler of each route by the frame's type, as the tables of
R183, R185 and R186 give it, and what a frame does by its route. -/

namespace Sys2Proof.Machine

-- The tables

/-- `Bcast(f)` (R185). -/
def onBroadcast (type : Byte) (f : FrameBody) : State → Result :=
  if type = 42 then onRelay f
  else if type = 254 then onPing f
  else if type = 255 then onPong f
  else onUnknown

/-- `Own(f)` (R183): a type without a ranging role is handled as broadcast (R184). -/
def onOwn (type : Byte) (f : FrameBody) : State → Result :=
  if type = 0 then onPoll f
  else if type = 1 then onResponse f
  else if type = 2 then onFinal f
  else if type = 3 then onTransfer f
  else if type = 5 then onReport f
  else onBroadcast type f

/-- `Foreign(f)` (R186). -/
def onForeign (type : Byte) (f : FrameBody) : State → Result :=
  if type = 5 then onReport f else onIgnored

/-- The types whose broadcast frames have a handler are 42, 254 and 255 (R185). -/
theorem onBroadcast_unknown {type : Byte} (notRelay : type ≠ 42) (notPing : type ≠ 254) (notPong : type ≠ 255)
    (f : FrameBody) : onBroadcast type f = onUnknown := by
  rw [onBroadcast, if_neg notRelay, if_neg notPing, if_neg notPong]

/-- A type without a ranging role has its broadcast handler on the own route, too (R184). -/
theorem onOwn_nonRanging {type : Byte} (notPoll : type ≠ 0) (notResponse : type ≠ 1) (notFinal : type ≠ 2)
    (notTransfer : type ≠ 3) (notReport : type ≠ 5) (f : FrameBody) : onOwn type f = onBroadcast type f := by
  rw [onOwn, if_neg notPoll, if_neg notResponse, if_neg notFinal, if_neg notTransfer, if_neg notReport]

theorem onForeign_ignored {type : Byte} (notReport : type ≠ 5) (f : FrameBody) : onForeign type f = onIgnored :=
  if_neg notReport

/-- The handlers of broadcast frames take `src` and the payload from the frame (R187 to R191). -/
theorem onBroadcast_dest (type : Byte) (f : FrameBody) (d : Byte) :
    onBroadcast type { f with dest := d } = onBroadcast type f := rfl

/-- Every frame is routed, to the handlers the tables give for its type (R181, R192). -/
theorem execFrame_eq_byRoute (type : Byte) (f : FrameBody) (s : State) :
    execFrame type f s = operate (byRoute f (onOwn type f) (onBroadcast type f) (onForeign type f)) s := by
  unfold execFrame
  split
  · next poll => subst poll; rfl
  split
  · next response => subst response; rfl
  split
  · next final => subst final; rfl
  split
  · next transfer => subst transfer; rfl
  split
  · next report => subst report; rfl
  next notPoll notResponse notFinal notTransfer notReport =>
  rw [onOwn_nonRanging notPoll notResponse notFinal notTransfer notReport, onForeign_ignored notReport]
  split
  · next request => subst request; rfl
  split
  · next relay => subst relay; rfl
  split
  · next ping => subst ping; rfl
  split
  · next pong => subst pong; rfl
  next notRelay notPing notPong =>
  rw [onBroadcast_unknown notRelay notPing notPong]
  rfl

-- A frame by its route

theorem operate_congr {body body' : State → Result} {s : State} (same : body s = body' s) :
    operate body s = operate body' s := by
  rw [operate, same, operate]

theorem exec_frameInstr (type : Byte) (f : FrameBody) (s : State) :
    exec (frameInstr type f) s =
      operate (byRoute f (onOwn type f) (onBroadcast type f) (onForeign type f)) s := by
  rw [← execFrame_eq_exec, execFrame_eq_byRoute]

section
variable {f : FrameBody} {s : State} (type : Byte)

theorem exec_frameInstr_ownSrc (ownSrc : f.src = s.cfg.localAddr) :
    exec (frameInstr type f) s = operate onOwnSrc s := by
  rw [exec_frameInstr]
  exact operate_congr (by rw [byRoute, routeOf_ownSrc ownSrc])

variable (other : f.src ≠ s.cfg.localAddr)

include other

theorem exec_frameInstr_own (own : f.dest = s.cfg.localAddr) :
    exec (frameInstr type f) s = operate (onOwn type f) s := by
  rw [exec_frameInstr]
  exact operate_congr (by rw [byRoute, routeOf_own other own])

variable (notOwn : f.dest ≠ s.cfg.localAddr)

include notOwn

theorem exec_frameInstr_broadcast (broadcast : f.dest = 0 ∨ f.dest = 255) :
    exec (frameInstr type f) s = operate (onBroadcast type f) s := by
  rw [exec_frameInstr]
  exact operate_congr (by rw [byRoute, routeOf_broadcast other notOwn broadcast])

theorem exec_frameInstr_foreign (notZero : f.dest ≠ 0) (notAll : f.dest ≠ 255) :
    exec (frameInstr type f) s = operate (onForeign type f) s := by
  rw [exec_frameInstr]
  exact operate_congr (by rw [byRoute, routeOf_foreign other notOwn notZero notAll])

end

/-- Settles O30: the source route of every type counts and re-arms. -/
theorem ownSourceFrameDropped : Obligations.OwnSourceFrameDropped := by
  intro type f s running ownSrc
  rw [exec_frameInstr_ownSrc type ownSrc, operate_running running]
  exact ⟨_, rfl, armRx_rearmed (count .ownSrc s)⟩

/-- Settles O31: the foreign route of every type but RANGE_REPORT re-arms. -/
theorem foreignFrameIgnored : Obligations.ForeignFrameIgnored := by
  intro type f s running other notOwn notZero notAll notReport
  rw [exec_frameInstr_foreign type other notOwn notZero notAll, operate_running running,
    onForeign_ignored notReport]
  exact ⟨_, rfl, armRx_rearmed s⟩

/-- Settles O32: on both routes the frame falls through to `OnUnknown`. -/
theorem unknownTypeCounted : Obligations.UnknownTypeCounted := by
  intro type f s running other notRelay notPing notPong route
  have unknown := onBroadcast_unknown notRelay notPing notPong f
  have handled : exec (frameInstr type f) s = operate onUnknown s := by
    rcases route with ⟨notOwn, broadcast⟩ | ⟨own, notPoll, notResponse, notFinal, notTransfer, notReport⟩
    · rw [exec_frameInstr_broadcast type other notOwn broadcast, unknown]
    · rw [exec_frameInstr_own type other own,
        onOwn_nonRanging notPoll notResponse notFinal notTransfer notReport, unknown]
  rw [handled, operate_running running]
  exact ⟨_, rfl, armRx_rearmed (count .unknownType s)⟩

/-- Settles O33: the own frame has the broadcast handler, which does not look at `dest`. -/
theorem ownNonRangingAsBroadcast : Obligations.OwnNonRangingAsBroadcast := by
  intro type f s other own notZero notAll notPoll notResponse notFinal notTransfer notReport
  have sentTo (d : Byte) (notOwn : d ≠ s.cfg.localAddr) (broadcast : d = 0 ∨ d = 255) :
      exec (frameInstr type f) s = exec (frameInstr type { f with dest := d }) s := by
    rw [exec_frameInstr_own type other own,
      onOwn_nonRanging notPoll notResponse notFinal notTransfer notReport,
      exec_frameInstr_broadcast (f := { f with dest := d }) type other notOwn broadcast,
      onBroadcast_dest type f d]
  exact ⟨sentTo 255 notAll.symm (.inr rfl), sentTo 0 notZero.symm (.inl rfl)⟩

-- DATA_RELAY and PING

section
variable {f : FrameBody} {s : State} (running : Running s) (other : f.src ≠ s.cfg.localAddr)
  (addressed : f.dest = s.cfg.localAddr ∨ f.dest = 0 ∨ f.dest = 255)

include running other addressed

/-- A DATA_RELAY that the node handles is a multi-byte enqueue and a re-arm (R187). -/
theorem exec_dataRelay : exec (.dataRelay f) s = .next (armRx (pushTxAll f.payload s)) := by
  rw [exec, execDataRelay, operate_running running, byRoute_ownOrBroadcast other addressed, onRelay]

/-- A PING that the node handles is a `Send` to its sender (R188, R193). -/
theorem exec_ping : exec (.ping f) s = send f.src 255 [] s := by
  rw [exec, execPing, operate_running running, byRoute_ownOrBroadcast other addressed, onPing]

end

/-- Settles O34: `pushTxAll_spec` says what the enqueue leaves. -/
theorem dataRelayEnqueuesPayload : Obligations.DataRelayEnqueuesPayload := by
  intro f s running notOver other addressed
  obtain ⟨r, appended, enqueued⟩ := pushTxAll_spec f.payload notOver
  refine ⟨r, _, appended, exec_dataRelay running other addressed, ?_⟩
  rw [enqueued]
  simpa only [pushed, Nat.sub_eq_zero_iff_le] using
    armRx_rearmed (pushed r (f.payload.length - (256 - s.txrb.count)) s)

/-- Settles O35: the `Send` of a PONG, with the transmitter free or not. -/
theorem pingAnsweredByPong : Obligations.PingAnsweredByPong := by
  intro f s running other addressed
  rw [exec_ping running other addressed]
  refine ⟨fun idle => send_idle idle f.src 255 (payload := []) (Nat.zero_le _), fun busy => ?_⟩
  rw [send_busy busy]
  rfl

end Sys2Proof.Machine
end

section
/-! RADIO_RX (spec/42_router.md R180): what is no frame, and the frame that is latched and handled. -/

namespace Sys2Proof.Machine

/-- What a store in a frame buffer leaves (R29, R30). -/
theorem FrameBuf.exists_stored (old : FrameBuf) {bytes : List Byte} (fits : bytes.length ≤ 19) :
    ∃ buf, old.store bytes = some buf ∧ Stored old buf bytes := by
  refine ⟨_, FrameBuf.store_spec old fits, rfl, FrameBuf.bytes_store old bytes, fun a past => ?_⟩
  rw [Memory.read_writeAll, if_neg (by omega)]

theorem exec_radioRx {s : State} (running : Running s) (ts : Timestamp) (data : List Byte) :
    exec (.radioRx ts data) s = receive (data.take 19) (latchRx ts s) := by
  rw [exec, execRadioRx, operate_running running]
  rfl

/-- Fewer than 4 bytes are no frame (R98). -/
theorem decodeFrameFields_short {d : List Byte} (few : d.length < 4) : decodeFrameFields d = none := by
  cases decoded : decodeFrameFields d with
  | none => rfl
  | some fields =>
    obtain ⟨-, -, four, -⟩ := decodeFrameFields_some decoded
    omega

theorem receive_short {d : List Byte} (few : d.length < 4) (s : State) :
    receive d s = .next (armRx (count .shortFrame s)) := by
  rw [receive, decodeFrameFields_short few]

/-- A frame of at most 19 bytes is latched in `lastRx`, and its instruction runs. -/
theorem receive_encodeFrame {type : Byte} {f : FrameBody} (fits : (encodeFrame type f).length ≤ 19)
    (s : State) :
    ∃ buf, Stored s.lastRx buf (encodeFrame type f) ∧
      receive (encodeFrame type f) s = exec (frameInstr type f) { s with lastRx := buf } := by
  obtain ⟨buf, store, stored⟩ := s.lastRx.exists_stored fits
  have wellFormed : f.wellFormed = true := by
    simp only [encodeFrame, List.length_append, List.length_cons, List.length_nil] at fits
    exact decide_eq_true (by simp only [Config.maxPayload]; omega)
  refine ⟨buf, stored, ?_⟩
  rw [receive, decodeFrameFields_encodeFrame type f wellFormed, store]
  exact execFrame_eq_exec _ _ _

/-- Settles O50: the first 19 bytes are received in the state that the latch leaves. -/
theorem radioRxRunsTheFrame : Obligations.RadioRxRunsTheFrame := by
  intro ts data s running
  rw [exec_radioRx running]
  constructor
  · intro few
    rw [receive_short (by rw [List.length_take]; omega)]
    exact ⟨_, rfl, armRx_rearmed (count .shortFrame (latchRx ts s))⟩
  · intro type f frame
    have fits := List.length_take_le 19 data
    rw [frame] at fits ⊢
    exact receive_encodeFrame fits (latchRx ts s)

end Sys2Proof.Machine
end

section
/-! What no instruction reads: the Node Registry (spec/42_router.md R196, spec/10_state.md R32). A body is put
together of updates that commute with a change of the registry, tests that do not look at it, and `Send`; PONG and
RESET, which write the registry, do the same to all else. -/

namespace Sys2Proof.Machine

/-- A state with another registry. -/
def setRegistry (reg : Memory) (s : State) : State := { s with registry := reg }

/-- An outcome with another registry in its next state. -/
def withRegistry (reg : Memory) : Result → Result
  | .next s => .next (setRegistry reg s)
  | .fault r => .fault r
  | .refused r => .refused r

/-- What a function of the state answers changes with the registry as `act` says: it neither reads nor writes
it. -/
def FollowsRegistry {α : Type} (act : Memory → α → α) (g : State → α) : Prop :=
  ∀ reg s, g (setRegistry reg s) = act reg (g s)

/-- An update neither reads nor writes the registry. -/
abbrev RegistryCommutes (g : State → State) : Prop := FollowsRegistry setRegistry g

/-- A body neither reads nor writes the registry. -/
abbrev RegistryUntouched (body : State → Result) : Prop := FollowsRegistry withRegistry body

/-- The registry makes no difference to a body, but in the registry it leaves. -/
def RegistryUnread (body : State → Result) : Prop :=
  ∀ reg s, ∃ reg', body (setRegistry reg s) = withRegistry reg' (body s)

-- How such bodies are put together

theorem RegistryUntouched.unread {body : State → Result} (untouched : RegistryUntouched body) :
    RegistryUnread body :=
  fun reg s => ⟨reg, untouched reg s⟩

theorem registryUntouched_next {g : State → State} (commutes : RegistryCommutes g) :
    RegistryUntouched fun s => .next (g s) :=
  fun reg s => congrArg _ (commutes reg s)

section
variable {α : Type} {act : Memory → α → α}

theorem FollowsRegistry.comp {g : State → α} {h : State → State} (hg : FollowsRegistry act g)
    (hh : RegistryCommutes h) : FollowsRegistry act fun s => g (h s) :=
  fun reg s => (congrArg g (hh reg s)).trans (hg reg (h s))

theorem followsRegistry_ite {c : State → Prop} [DecidablePred c] {g g' : State → α}
    (blind : ∀ reg s, c (setRegistry reg s) ↔ c s) (hg : FollowsRegistry act g)
    (hg' : FollowsRegistry act g') : FollowsRegistry act fun s => if c s then g s else g' s := by
  intro reg s
  by_cases holds : c s
  · simpa [blind, holds] using hg reg s
  · simpa [blind, holds] using hg' reg s

end

/-- The guard looks at `started` and `halted` (R293, R295). -/
theorem registryUnread_operate {body : State → Result} (unread : RegistryUnread body) :
    RegistryUnread (operate body) := by
  intro reg s
  cases started : s.started with
  | false =>
    rw [operate_beforeReset started, operate_beforeReset (s := setRegistry reg s) started]
    exact ⟨reg, rfl⟩
  | true =>
    cases halted : s.halted with
    | true =>
      rw [operate_halted started halted, operate_halted (s := setRegistry reg s) started halted]
      exact ⟨reg, rfl⟩
    | false =>
      rw [operate_running ⟨started, halted⟩, operate_running (s := setRegistry reg s) ⟨started, halted⟩]
      exact unread reg s

-- The shared operations

theorem registryCommutes_count (e : Cause) : RegistryCommutes (count e) := fun _ _ => rfl

theorem registryCommutes_armRx : RegistryCommutes armRx :=
  followsRegistry_ite (fun _ _ => Iff.rfl) (fun _ _ => rfl) fun _ _ => rfl

theorem registryCommutes_pushRx (b : Byte) : RegistryCommutes (pushRx b) :=
  followsRegistry_ite (fun _ _ => Iff.rfl) (registryCommutes_count _) fun _ _ => rfl

theorem registryCommutes_pushTx (b : Byte) : RegistryCommutes (pushTx b) :=
  followsRegistry_ite (fun _ _ => Iff.rfl) (registryCommutes_count _) fun _ _ => rfl

theorem registryCommutes_pushTxAll (bs : List Byte) : RegistryCommutes (pushTxAll bs) := by
  induction bs with
  | nil => exact fun _ _ => rfl
  | cons b bs ih => exact ih.comp (registryCommutes_pushTx b)

theorem registryCommutes_captureTxDone (ts : Timestamp) : RegistryCommutes (captureTxDone ts) :=
  followsRegistry_ite (fun _ _ => Iff.rfl) (fun _ _ => rfl)
    (followsRegistry_ite (fun _ _ => Iff.rfl) (fun _ _ => rfl)
      (followsRegistry_ite (fun _ _ => Iff.rfl) (fun _ _ => rfl) fun _ _ => rfl))

theorem registryUntouched_countArmRx (e : Cause) : RegistryUntouched fun s => .next (armRx (count e s)) :=
  registryUntouched_next (registryCommutes_armRx.comp (registryCommutes_count e))

/-- `Send` looks at `txBusy`, `lastTx`, `seqCtr` and LOCAL_ADDR (R123). -/
theorem registryUntouched_send (dest type : Byte) (payload : List Byte) :
    RegistryUntouched (send dest type payload) := by
  refine followsRegistry_ite (fun _ _ => Iff.rfl) (registryUntouched_next (registryCommutes_count _))
    (followsRegistry_ite (fun _ _ => Iff.rfl) (fun _ _ => rfl) fun reg s => ?_)
  cases stored : s.lastTx.store (encodeFrame type ⟨s.cfg.localAddr, dest, s.seqCtr, payload⟩) with
  | none => simp only [setRegistry, stored, withRegistry]
  | some buf =>
    simp only [setRegistry, stored, withRegistry]
    rfl

/-- The relay of a packet counts the success, then drops the packet or sends it (R147 to R149). -/
theorem registryUntouched_acceptPacket (p : List Byte) : RegistryUntouched (acceptPacket p) := by
  have relayed : RegistryUntouched (relay p) :=
    followsRegistry_ite (fun _ _ => Iff.rfl) (registryUntouched_next (registryCommutes_count _))
      fun reg s => registryUntouched_send s.cfg.relayDest 42 p reg s
  exact relayed.comp (h := succeeded) fun _ _ => rfl

-- The parser

theorem registryCommutes_hunt (n : Nat) : RegistryCommutes (hunt n) := by
  induction n with
  | zero => exact fun _ _ => rfl
  | succ n ih =>
    exact followsRegistry_ite (fun _ _ => Iff.rfl) (fun _ _ => rfl)
      (followsRegistry_ite (fun _ _ => Iff.rfl) (fun _ _ => rfl)
        (ih.comp (h := fun s => count .pprzDiscard (popRx s)) fun _ _ => rfl))

/-- Steps 2 to 6 look at RXRB alone (R143 to R147). -/
theorem parseHead_setRegistry (reg : Memory) (s : State) :
    parseHead (setRegistry reg s) = (parseHead s).map id (setRegistry reg) := by
  have ringSame : (setRegistry reg s).rxrb = s.rxrb := rfl
  have lenSame : headLen (setRegistry reg s) = headLen s := rfl
  simp only [parseHead, lenSame, ringSame]
  split
  · rfl
  split
  · rfl
  split
  · rfl
  split <;> rfl

theorem parse_setRegistry (reg : Memory) (s : State) :
    parse (setRegistry reg s) = (parse s).map id (setRegistry reg) :=
  (congrArg parseHead (registryCommutes_hunt s.rxrb.count reg s)).trans (parseHead_setRegistry reg _)

theorem registryUntouched_parseStepBody : RegistryUntouched parseStepBody := by
  intro reg s
  unfold parseStepBody
  rw [parse_setRegistry]
  rcases parse s with ⟨_ | p, t⟩
  · rfl
  · exact registryUntouched_acceptPacket p reg t

-- The handlers of received frames

theorem registryUntouched_onFinal (f : FrameBody) : RegistryUntouched (onFinal f) :=
  fun reg s => registryUntouched_send f.src 3 (transferPayload (captureFinal s).session) reg (captureFinal s)

theorem registryUntouched_onReport (f : FrameBody) : RegistryUntouched (onReport f) :=
  followsRegistry_ite (fun _ _ => Iff.rfl) (registryUntouched_countArmRx _)
    (registryUntouched_next (registryCommutes_armRx.comp
      fun reg s => registryCommutes_pushTxAll _ reg s))

theorem registryUntouched_report (f : FrameBody) (d : F64) : RegistryUntouched (report f d) :=
  (registryUntouched_send f.src 5 (distBytes d)).comp fun reg s =>
    registryCommutes_pushTxAll _ reg { s with lastDist := d, distValid := true }

theorem registryUntouched_onTransfer (f : FrameBody) : RegistryUntouched (onTransfer f) := by
  have computed : RegistryUntouched (computeAndReport f) :=
    followsRegistry_ite (fun _ _ => Iff.rfl) (registryUntouched_countArmRx _)
      fun reg s => registryUntouched_report f (sessionDistance s) reg s
  exact followsRegistry_ite (fun _ _ => Iff.rfl) (registryUntouched_countArmRx _)
    (computed.comp (h := captureTransfer f.payload) fun _ _ => rfl)

/-- A PONG's bit is set in whatever registry there is (R189, R68). -/
theorem registryUnread_onPong (f : FrameBody) : RegistryUnread (onPong f) := fun reg s =>
  ⟨registrySetBit s.cfg.registryMode reg f.src,
    congrArg _ (registryCommutes_armRx _ (registrySet f.src s))⟩

theorem registryUnread_onBroadcast (type : Byte) (f : FrameBody) : RegistryUnread (onBroadcast type f) := by
  unfold onBroadcast
  split
  · exact (registryUntouched_next
      (registryCommutes_armRx.comp (registryCommutes_pushTxAll f.payload))).unread
  split
  · exact (registryUntouched_send f.src 255 []).unread
  split
  · exact registryUnread_onPong f
  · exact (registryUntouched_countArmRx _).unread

theorem registryUnread_onOwn (type : Byte) (f : FrameBody) : RegistryUnread (onOwn type f) := by
  unfold onOwn
  split
  · exact (registryUntouched_send f.src 1 []).unread
  split
  · exact (registryUntouched_send f.src 2 []).unread
  split
  · exact (registryUntouched_onFinal f).unread
  split
  · exact (registryUntouched_onTransfer f).unread
  split
  · exact (registryUntouched_onReport f).unread
  · exact registryUnread_onBroadcast type f

theorem registryUnread_onForeign (type : Byte) (f : FrameBody) : RegistryUnread (onForeign type f) := by
  unfold onForeign
  split
  · exact (registryUntouched_onReport f).unread
  · exact (registryUntouched_next registryCommutes_armRx).unread

/-- The routing tests look at LOCAL_ADDR and the frame (R181). -/
theorem registryUnread_byRoute (f : FrameBody) {own broadcast foreign : State → Result}
    (hown : RegistryUnread own) (hbroadcast : RegistryUnread broadcast) (hforeign : RegistryUnread foreign) :
    RegistryUnread (byRoute f own broadcast foreign) := by
  intro reg s
  have route : routeOf (setRegistry reg s).cfg.localAddr f = routeOf s.cfg.localAddr f := rfl
  simp only [byRoute, route]
  cases routeOf s.cfg.localAddr f with
  | ownSrc => exact (registryUntouched_countArmRx .ownSrc).unread reg s
  | own => exact hown reg s
  | broadcast => exact hbroadcast reg s
  | foreign => exact hforeign reg s

/-- A received frame of any type, by its route and its handler (R181, R192). -/
theorem registryUnread_execFrame (type : Byte) (f : FrameBody) : RegistryUnread (execFrame type f) := by
  rw [funext (execFrame_eq_byRoute type f)]
  exact registryUnread_operate (registryUnread_byRoute f (registryUnread_onOwn type f)
    (registryUnread_onBroadcast type f) (registryUnread_onForeign type f))

theorem registryUnread_receive (d : List Byte) : RegistryUnread (receive d) := by
  intro reg s
  have bufferSame : (setRegistry reg s).lastRx = s.lastRx := rfl
  simp only [receive, bufferSame]
  split
  · exact (registryUntouched_countArmRx .shortFrame).unread reg s
  · next type f _ =>
    split
    · next buf _ => exact registryUnread_execFrame type f reg { s with lastRx := buf }
    · exact ⟨reg, rfl⟩

-- The instructions

/-- RESET discards the registry (R43, R290). -/
theorem registryUnread_reset (flags : Byte) : RegistryUnread (execReset flags) := by
  refine fun reg s => ⟨[], ?_⟩
  change execReset flags s = withRegistry [] (execReset flags s)
  unfold execReset
  split
  · split <;> rfl
  · rfl

theorem registryUnread_exec (i : Instr) : RegistryUnread (exec i) := by
  have guarded {body : State → Result} (untouched : RegistryUntouched body) : RegistryUnread (operate body) :=
    registryUnread_operate untouched.unread
  cases i with
  | reset flags => exact registryUnread_reset flags
  | uartRxByte b => exact guarded (registryUntouched_next (registryCommutes_pushRx b))
  | parseStep =>
    exact guarded (followsRegistry_ite (fun _ _ => Iff.rfl) (registryUntouched_next fun _ _ => rfl)
      registryUntouched_parseStepBody)
  | txrbPop =>
    exact guarded (followsRegistry_ite (fun _ _ => Iff.rfl) (registryUntouched_next fun _ _ => rfl)
      (registryUntouched_next fun _ _ => rfl))
  | pollTick =>
    exact guarded (followsRegistry_ite (fun _ _ => Iff.rfl) (registryUntouched_next fun _ _ => rfl)
      (followsRegistry_ite (fun _ _ => Iff.rfl) (registryUntouched_next (registryCommutes_count _))
        fun reg s => registryUntouched_send s.cfg.anchorAddr 0 [] reg (clearSession s)))
  | radioRx ts data =>
    exact registryUnread_operate fun reg s => registryUnread_receive (receivedBytes data) reg (latchRx ts s)
  | radioTxDone ts =>
    exact guarded (followsRegistry_ite (fun _ _ => Iff.rfl)
      (registryUntouched_next (registryCommutes_armRx.comp
        fun reg s => by rw [registryCommutes_captureTxDone]; rfl))
      (registryUntouched_next (registryCommutes_count _)))
  | illegalOp op => exact guarded (registryUntouched_next (registryCommutes_count _))
  | rangePoll f => exact registryUnread_execFrame 0 f
  | rangeResponse f => exact registryUnread_execFrame 1 f
  | rangeFinal f => exact registryUnread_execFrame 2 f
  | rangeTransfer f => exact registryUnread_execFrame 3 f
  | rangeReport f => exact registryUnread_execFrame 5 f
  | rangeRequest f => exact registryUnread_execFrame 6 f
  | dataRelay f => exact registryUnread_execFrame 42 f
  | ping f => exact registryUnread_execFrame 254 f
  | pong f => exact registryUnread_execFrame 255 f
  | unassignedType type f => exact registryUnread_execFrame 4 f
  | pprzPacket data => exact guarded (registryUntouched_acceptPacket _)
  | pprzRangeReport sender msgId src dest range =>
    exact guarded (registryUntouched_next (registryCommutes_pushTxAll _))

/-- Settles O55: with another registry each instruction has the same outcome but for a registry. -/
theorem registryNeverRead : Obligations.RegistryNeverRead := by
  intro i s t reg next
  obtain ⟨reg', same⟩ := registryUnread_exec i reg s
  exact ⟨reg', same.trans (by rw [next]; rfl)⟩

end Sys2Proof.Machine
end

section
/-! The intervals of a session and the terms over them (spec/43_ranging.md R220, R233 to R235). -/

namespace Sys2Proof.Machine

theorem delta40_lt (start stop : Timestamp) : delta40 start stop < 2 ^ 40 := by
  have startBound := start.isLt
  have stopBound := stop.isLt
  unfold delta40 Config.tsMod
  split <;> omega

/-- The interval over the integers: with or without the wrap, it differs from the difference by a multiple of 2^40
(R220). -/
theorem delta40_eq_emod (start stop : Timestamp) :
    (delta40 start stop : Int) = ((stop.toNat : Int) - start.toNat) % 2 ^ 40 := by
  have startBound := start.isLt
  have stopBound := stop.isLt
  unfold delta40 Config.tsMod
  split <;> omega

theorem delta40_eq_sub (start stop : Timestamp) : delta40 start stop = (stop - start).toNat := by
  have startBound := start.isLt
  have stopBound := stop.isLt
  rw [BitVec.toNat_sub]
  unfold delta40 Config.tsMod
  split <;> omega

/-- Settles O38: the wrap of `delta40` is the wrap of 40-bit subtraction. -/
theorem deltaIsDifferenceModulo : Obligations.DeltaIsDifferenceModulo :=
  fun start stop => ⟨delta40_eq_sub start stop, delta40_eq_emod start stop⟩

/-- Settles O39: D is a sum of four natural numbers. -/
theorem denominatorZeroIffIntervalsZero : Obligations.DenominatorZeroIffIntervalsZero := by
  intro x
  unfold termD
  constructor <;> omega

/-- A product of two intervals needs 80 bits (R234). -/
theorem interval_mul_lt {i j : Nat} (left : i < 2 ^ 40) (right : j < 2 ^ 40) :
    0 ≤ (i : Int) * j ∧ (i : Int) * j < 2 ^ 80 := by
  have product : i * j < 2 ^ 40 * 2 ^ 40 := Nat.mul_lt_mul'' left right
  exact ⟨by positivity, by exact_mod_cast product⟩

theorem termN_bounds (x : Session) : -(2 ^ 80 : Int) < termN x ∧ termN x < 2 ^ 80 := by
  obtain ⟨roundsLow, roundsHigh⟩ :=
    interval_mul_lt (delta40_lt x.tStartRound1 x.tStartReply2) (delta40_lt x.tEndReply1 x.tEndRound2)
  obtain ⟨repliesLow, repliesHigh⟩ :=
    interval_mul_lt (delta40_lt x.tStartReply1 x.tEndReply1) (delta40_lt x.tStartReply2 x.tEndReply2)
  unfold termN tRound1 tRound2 tReply1 tReply2
  constructor <;> linarith

theorem termD_bounds (x : Session) : 0 ≤ termD x ∧ termD x < 2 ^ 42 := by
  have round1 := delta40_lt x.tStartRound1 x.tStartReply2
  have reply1 := delta40_lt x.tStartReply1 x.tEndReply1
  have round2 := delta40_lt x.tEndReply1 x.tEndRound2
  have reply2 := delta40_lt x.tStartReply2 x.tEndReply2
  unfold termD tRound1 tReply1 tRound2 tReply2
  constructor <;> omega

/-- Settles O45: N is a difference of two products of intervals, D a sum of four intervals. -/
theorem distanceTermsOfSession : Obligations.DistanceTermsOfSession := by
  intro x
  obtain ⟨nLow, nHigh⟩ := termN_bounds x
  obtain ⟨dLow, dHigh⟩ := termD_bounds x
  exact ⟨delta40_eq_sub _ _, delta40_eq_sub _ _, delta40_eq_sub _ _, delta40_eq_sub _ _, rfl, nLow, nHigh, rfl,
    dLow, dHigh⟩

end Sys2Proof.Machine
end

section
/-! The ranging frames addressed to this node, and RANGE_REPORT addressed to another (spec/43_ranging.md R229 to
R238): each is its handler of R183, which sends at most one frame. -/

namespace Sys2Proof.Machine

/-- A frame from another node to this one is handled as its type's own frames are (R181). -/
theorem byRoute_own {f : FrameBody} {s : State} (other : f.src ≠ s.cfg.localAddr)
    (own : f.dest = s.cfg.localAddr) (handler broadcast foreign : State → Result) :
    byRoute f handler broadcast foreign s = handler s := by
  rw [byRoute, routeOf_own other own]

/-- A frame that is neither broadcast nor this node's own, of a type delivered alike on the own and the foreign
route (R186). -/
theorem byRoute_ownOrForeign {f : FrameBody} {s : State} (other : f.src ≠ s.cfg.localAddr)
    (addressed : f.dest = s.cfg.localAddr ∨ f.dest ≠ 0 ∧ f.dest ≠ 255) (handler broadcast : State → Result) :
    byRoute f handler broadcast handler s = handler s := by
  by_cases own : f.dest = s.cfg.localAddr
  · rw [byRoute_own other own]
  · obtain ⟨notZero, notAll⟩ := addressed.resolve_left own
    rw [byRoute, routeOf_foreign other own notZero notAll]

/-- `Send` as the obligations say it: one frame where the transmitter is free, else TX_OVERLAP (R123). -/
theorem send_answers (s : State) (dest type : Byte) {payload : List Byte} (short : payload.length ≤ 15) :
    (s.txBusy = false →
      ∃ t, send dest type payload s = .next t ∧
        SentFrame s ([s.cfg.localAddr, dest, type, s.seqCtr] ++ payload) t) ∧
    (s.txBusy = true →
      send dest type payload s = .next { s with
        cnt := { s.cnt with txOverlap := s.cnt.txOverlap + 1 }, lastErr := 0x0C }) :=
  ⟨fun idle => send_idle idle dest type short, fun busy => send_busy busy dest type payload⟩

section
variable {f : FrameBody} {s : State} (running : Running s) (other : f.src ≠ s.cfg.localAddr)
  (own : f.dest = s.cfg.localAddr)

include running other own

theorem exec_rangePoll_own : exec (.rangePoll f) s = send f.src 1 [] s := by
  rw [exec, execRangePoll, operate_running running, byRoute_own other own, onPoll]

theorem exec_rangeResponse_own : exec (.rangeResponse f) s = send f.src 2 [] s := by
  rw [exec, execRangeResponse, operate_running running, byRoute_own other own, onResponse]

theorem exec_rangeFinal_own :
    exec (.rangeFinal f) s = send f.src 3 (transferPayload (captureFinal s).session) (captureFinal s) := by
  rw [exec, execRangeFinal, operate_running running, byRoute_own other own, onFinal]

theorem exec_rangeTransfer_own : exec (.rangeTransfer f) s = onTransfer f s := by
  rw [exec, execRangeTransfer, operate_running running, byRoute_own other own]

end

/-- Settles O41: the handler is the `Send` of an empty RANGE_RESPONSE. -/
theorem pollAnsweredByResponse : Obligations.PollAnsweredByResponse := by
  intro f s running other own
  rw [exec_rangePoll_own running other own]
  exact send_answers s f.src 1 (payload := []) (Nat.zero_le _)

/-- Settles O42: the handler is the `Send` of an empty RANGE_FINAL. -/
theorem responseAnsweredByFinal : Obligations.ResponseAnsweredByFinal := by
  intro f s running other own
  rw [exec_rangeResponse_own running other own]
  exact send_answers s f.src 2 (payload := []) (Nat.zero_le _)

-- RANGE_FINAL

theorem length_transferPayload (x : Session) : (transferPayload x).length = 15 := by
  simp [transferPayload, tsBytes]

/-- Settles O43: the `Send` of the three timestamps begins in the state after the capture. -/
theorem finalAnsweredByTransfer : Obligations.FinalAnsweredByTransfer := by
  intro f s running other own
  rw [exec_rangeFinal_own running other own]
  have reply := send_answers (captureFinal s) f.src 3 (length_transferPayload (captureFinal s).session).le
  simpa only [transferPayload, tsBytes, captureFinal, List.append_assoc] using reply

-- RANGE_TRANSFER

/-- A timestamp of the payload read back, five bytes at a time (R103, R112). -/
theorem payloadTs_append (before : List Byte) (t : Timestamp) (after : List Byte) :
    payloadTs (before ++ (leBytes 5 t.toNat ++ after)) before.length = t := by
  rw [payloadTs, List.drop_left, List.take_left' (length_leBytes 5 _), ofNat_fromLE_leBytes5]

/-- The captures from a payload of three `LE_5` timestamps (R232). -/
theorem captureTransfer_timestamps (a b c : Timestamp) (s : State) :
    captureTransfer (leBytes 5 a.toNat ++ leBytes 5 b.toNat ++ leBytes 5 c.toNat) s =
      { s with session := { s.session with tStartReply1 := a, tEndReply1 := b, tEndRound2 := c } } := by
  have first := payloadTs_append [] a (leBytes 5 b.toNat ++ leBytes 5 c.toNat)
  have second := payloadTs_append (leBytes 5 a.toNat) b (leBytes 5 c.toNat)
  have third := payloadTs_append (leBytes 5 a.toNat ++ leBytes 5 b.toNat) c []
  simp only [List.nil_append, List.length_nil, List.length_append, length_leBytes, List.append_nil,
    ← List.append_assoc] at first second third
  rw [captureTransfer, first, second, third]

theorem onTransfer_short {f : FrameBody} (short : f.payload.length < 15) (s : State) :
    onTransfer f s = .next (armRx (count .shortPayload s)) := by
  rw [onTransfer, if_pos short]

/-- A whole payload: its timestamps are copied before anything is computed (R232). -/
theorem onTransfer_timestamps {f : FrameBody} {a b c : Timestamp}
    (payload : f.payload = leBytes 5 a.toNat ++ leBytes 5 b.toNat ++ leBytes 5 c.toNat) (s : State) :
    onTransfer f s = computeAndReport f
      { s with session := { s.session with tStartReply1 := a, tEndReply1 := b, tEndRound2 := c } } := by
  have whole : ¬ f.payload.length < 15 := by simp [payload]
  rw [onTransfer, if_neg whole, payload, captureTransfer_timestamps]

theorem computeAndReport_degenerate {s : State} (zero : termD s.session ≤ 0) (f : FrameBody) :
    computeAndReport f s = .next (armRx (count .degenerate s)) := by
  rw [computeAndReport, if_pos zero]

theorem computeAndReport_report {s : State} (pos : 0 < termD s.session) (f : FrameBody) :
    computeAndReport f s = report f (sessionDistance s) s := by
  rw [computeAndReport, if_neg (by omega)]

/-- Settles O46: both branches that compute nothing count and re-arm, the second after the copy. -/
theorem transferShortOrDegenerate : Obligations.TransferShortOrDegenerate := by
  intro f s running other own
  rw [exec_rangeTransfer_own running other own]
  constructor
  · intro short
    rw [onTransfer_short short]
    exact ⟨_, rfl, armRx_rearmed (count .shortPayload s)⟩
  · intro a b c x payload session round1 reply1 round2 reply2
    have zero : termD x ≤ 0 := (denominatorZeroIffIntervalsZero x).2.2 ⟨round1, reply1, round2, reply2⟩
    rw [onTransfer_timestamps payload, ← session,
      computeAndReport_degenerate (s := { s with session := x }) zero]
    exact ⟨_, rfl, armRx_rearmed (count .degenerate { s with session := x })⟩

/-- The state after the distance is recorded and its telemetry message pushed (R237). -/
def distanceRecorded (f : FrameBody) (d : F64) (s : State) : State :=
  telemetry s.cfg.localAddr f.src (distBytes d) { s with lastDist := d, distValid := true }

@[simp] theorem distanceRecorded_cfg (f : FrameBody) (d : F64) (s : State) :
    (distanceRecorded f d s).cfg = s.cfg := telemetry_cfg _ _ _ _

@[simp] theorem distanceRecorded_txBusy (f : FrameBody) (d : F64) (s : State) :
    (distanceRecorded f d s).txBusy = s.txBusy := telemetry_txBusy _ _ _ _

@[simp] theorem distanceRecorded_seqCtr (f : FrameBody) (d : F64) (s : State) :
    (distanceRecorded f d s).seqCtr = s.seqCtr := telemetry_seqCtr _ _ _ _

/-- What `Telemetry` leaves of the recorded distance, where TXRB may lack room (R237, R152, R62). -/
theorem distanceRecorded_spec (f : FrameBody) (d : F64) {s : State} (notOver : s.txrb.count ≤ 256) :
    ∃ r, Appended s.txrb r
        ((pprzEncode ([s.cfg.localAddr, s.cfg.pprzMsgIdRange, s.cfg.localAddr, f.src] ++
          leBytes 8 d.toNat)).take (256 - s.txrb.count)) ∧
      distanceRecorded f d s = { s with
        lastDist := d
        distValid := true
        txrb := r
        cnt := { s.cnt with
          txrbDrop := s.cnt.txrbDrop + BitVec.ofNat 32 (16 - (256 - s.txrb.count)) }
        lastErr := if s.txrb.count ≤ 240 then s.lastErr else 0x07 } :=
  pushReport_spec s.cfg.localAddr s.cfg.pprzMsgIdRange s.cfg.localAddr f.src (length_leBytes 8 d.toNat)
    (s := { s with lastDist := d, distValid := true }) notOver

/-- `Report` sends the distance in the state that records it (R237). -/
theorem report_answers (f : FrameBody) (d : F64) (s : State) :
    (s.txBusy = false →
      ∃ t, report f d s = .next t ∧ SentFrame (distanceRecorded f d s)
        ([s.cfg.localAddr, f.src, 5, s.seqCtr] ++ leBytes 8 d.toNat) t) ∧
    (s.txBusy = true → report f d s = .next (count .txOverlap (distanceRecorded f d s))) := by
  have sends : report f d s = send f.src 5 (leBytes 8 d.toNat) (distanceRecorded f d s) := rfl
  have short : (leBytes 8 d.toNat).length ≤ 15 := (length_leBytes 8 _).trans_le (by decide)
  rw [sends]
  constructor
  · intro idle
    have sent := send_idle (s := distanceRecorded f d s) (by simpa using idle) f.src 5 short
    rwa [distanceRecorded_cfg, distanceRecorded_seqCtr] at sent
  · intro busy
    exact send_busy (by simpa using busy) _ _ _

/-- Settles O44: the report begins in the state that records the distance of the session copied. -/
theorem transferComputesAndReports : Obligations.TransferComputesAndReports := by
  intro f s a b c x d running other own payload session pos distance notOver
  have computed : sessionDistance { s with session := x } = d := distance.symm
  rw [exec_rangeTransfer_own running other own, onTransfer_timestamps payload, ← session,
    computeAndReport_report (s := { s with session := x }) pos, computed]
  obtain ⟨r, appended, recorded⟩ := distanceRecorded_spec f d (s := { s with session := x }) notOver
  have reply := report_answers f d { s with session := x }
  generalize distanceRecorded f d { s with session := x } = m at recorded reply
  exact ⟨r, m, appended, recorded, reply⟩

-- RANGE_REPORT

/-- Settles O47: the own and the foreign route have one handler, which takes 8 bytes of a payload that has them. -/
theorem reportDeliveredToTelemetry : Obligations.ReportDeliveredToTelemetry := by
  intro f s running other addressed
  have handled : exec (.rangeReport f) s = onReport f s := by
    rw [exec, execRangeReport, operate_running running, byRoute_ownOrForeign other addressed]
  rw [handled]
  constructor
  · intro short
    rw [onReport, if_pos short]
    exact ⟨_, rfl, armRx_rearmed (count .shortPayload s)⟩
  · intro whole notOver
    obtain ⟨r, appended, pushes⟩ :=
      pushReport_spec s.cfg.localAddr s.cfg.pprzMsgIdRange f.src f.dest
        (range := f.payload.take 8) (by rw [List.length_take]; omega) notOver
    refine ⟨r, _, appended, ?_, armRx_rearmed _⟩
    rw [onReport, if_neg (by omega), telemetry, payloadDist, pushes]

end Sys2Proof.Machine
end

section
/-! POLL_TICK and RADIO_TX_DONE (spec/43_ranging.md R223 to R228). -/

namespace Sys2Proof.Machine

section
variable {s : State} (running : Running s)

include running

theorem exec_pollTick_anchor (anchor : s.cfg.localAddr = s.cfg.anchorAddr) : exec .pollTick s = .next s := by
  rw [exec, execPollTick, operate_running running, if_pos anchor]

theorem exec_pollTick_busy (tag : s.cfg.localAddr ≠ s.cfg.anchorAddr) (busy : s.txBusy = true) :
    exec .pollTick s = .next (count .pollSkipped s) := by
  rw [exec, execPollTick, operate_running running, if_neg tag, if_pos busy]

theorem exec_pollTick_idle (tag : s.cfg.localAddr ≠ s.cfg.anchorAddr) (idle : s.txBusy = false) :
    exec .pollTick s = send s.cfg.anchorAddr 0 [] (clearSession s) := by
  rw [exec, execPollTick, operate_running running, if_neg tag, if_neg (by simp [idle])]

theorem exec_radioTxDone_idle (ts : Timestamp) (idle : s.txBusy = false) :
    exec (.radioTxDone ts) s = .next (count .spuriousTxDone s) := by
  rw [exec, execRadioTxDone, operate_running running, if_neg (by simp [idle])]

end

/-- Settles O48: the three branches of POLL_TICK, the last a `Send` after the session is cleared. -/
theorem pollTickPollsTheAnchor : Obligations.PollTickPollsTheAnchor := by
  intro s running
  refine ⟨exec_pollTick_anchor running, fun tag busy => ?_, fun tag idle => ?_⟩
  · rw [exec_pollTick_busy running tag busy]
    rfl
  · rw [exec_pollTick_idle running tag idle]
    exact send_idle (s := clearSession s) idle s.cfg.anchorAddr 0 (payload := []) (Nat.zero_le _)

/-- The captures of a transmit completion, as one session by the type of the frame (R225 to R228). -/
theorem captureTxDone_session (ts : Timestamp) (s : State) :
    captureTxDone ts s = { s with
      session :=
        if Memory.read s.lastTx.b 2 = 0 then { s.session with tStartRound1 := ts }
        else if Memory.read s.lastTx.b 2 = 1 then
          { s.session with tStartReply1 := s.lastRxTs, tEndReply1 := ts }
        else if Memory.read s.lastTx.b 2 = 2 then
          { s.session with tStartReply2 := s.lastRxTs, tEndReply2 := ts }
        else s.session } := by
  unfold captureTxDone lastTxType
  split
  · rfl
  split
  · rfl
  split <;> rfl

/-- Settles O49: after the captures the transmitter is free, so that the re-arm takes place. -/
theorem transmitDoneCapturesAndRearms : Obligations.TransmitDoneCapturesAndRearms := by
  intro ts s running
  constructor
  · intro busy
    rw [exec_radioTxDone_busy ts running busy, armRx_idle rfl, captureTxDone_session]
  · intro idle
    rw [exec_radioTxDone_idle running ts idle]
    rfl

end Sys2Proof.Machine
end

section
/-! REF (spec/43_ranging.md R236). In units of 2^-1074, the smallest subnormal, every binary64 value is an integer. A
magnitude of x units is rounded to a multiple of 2^u, the unit in the last place at x. The value of every pattern is
such a multiple too, or smaller than 2^(52+u) where x is not; so none comes between x and the multiples next to
it. -/

namespace Sys2Proof.Machine

-- Rounding a quotient to an integer

/-- The quotient is at most half a unit from the exact one, and even where it is half a unit away. -/
theorem divNearestEven_spec (a : Nat) {b : Nat} (pos : 0 < b) :
    2 * a ≤ 2 * (divNearestEven a b * b) + b ∧ 2 * (divNearestEven a b * b) ≤ 2 * a + b ∧
      (2 * a = 2 * (divNearestEven a b * b) + b ∨ 2 * (divNearestEven a b * b) = 2 * a + b →
        divNearestEven a b % 2 = 0) := by
  have division : a / b * b + a % b = a := Nat.div_add_mod' a b
  have below : a % b < b := Nat.mod_lt a pos
  have up : (a / b + 1) * b = a / b * b + b := Nat.succ_mul _ _
  unfold divNearestEven
  simp only
  split_ifs with lower upper even <;> omega

/-- No other integer is nearer to the exact quotient, and only an even one is as near as another. -/
theorem divNearestEven_nearest (a : Nat) {b : Nat} (pos : 0 < b) (j : Int) :
    |(divNearestEven a b : Int) * b - a| ≤ |j * b - a| ∧
      (j ≠ divNearestEven a b → |(divNearestEven a b : Int) * b - a| = |j * b - a| →
        divNearestEven a b % 2 = 0) := by
  obtain ⟨low, high, even⟩ := divNearestEven_spec a pos
  generalize divNearestEven a b = m at *
  zify at low high even
  have within : 2 * |(m : Int) * b - a| ≤ b ∧ (2 * |(m : Int) * b - a| = b → m % 2 = 0) := by
    rcases abs_cases ((m : Int) * b - a) with ⟨abs, -⟩ | ⟨abs, -⟩ <;> rw [abs] <;>
      exact ⟨by linarith, fun tie => by exact_mod_cast even (by omega)⟩
  have apart (other : j ≠ m) : (b : Int) ≤ |(m : Int) * b - a| + |j * b - a| := by
    have one : 1 ≤ |(m : Int) - j| := Int.one_le_abs (sub_ne_zero.2 other.symm)
    have bpos : (0 : Int) ≤ b := Int.natCast_nonneg b
    calc (b : Int) ≤ |(m : Int) - j| * b := le_mul_of_one_le_left bpos one
      _ = |((m : Int) * b - a) - (j * b - a)| := by
          rw [← abs_of_nonneg bpos, ← abs_mul, abs_of_nonneg bpos]; ring_nf
      _ ≤ _ := abs_sub _ _
  by_cases same : j = m
  · subst same
    exact ⟨le_rfl, fun other => absurd rfl other⟩
  · obtain ⟨half, tied⟩ := within
    have separate := apart same
    exact ⟨by linarith, fun _ tie => tied (by linarith)⟩

-- The leading bit of a quotient

/-- Scaled by 2^1074, a quotient lies below the power of two past its leading exponent, and, but for subnormal
values, not below the power at it. -/
theorem leadExponent_spec {a b : Nat} (apos : 0 < a) (bpos : 0 < b) :
    a * 2 ^ 1074 < b * 2 ^ (leadExponent a b + 1) ∧
      (leadExponent a b = 0 ∨ b * 2 ^ leadExponent a b ≤ a * 2 ^ 1074) := by
  have alow : 2 ^ a.log2 ≤ a := Nat.log2_self_le apos.ne'
  have ahigh : a < 2 ^ (a.log2 + 1) := Nat.lt_log2_self
  have blow : 2 ^ b.log2 ≤ b := Nat.log2_self_le bpos.ne'
  have bhigh : b < 2 ^ (b.log2 + 1) := Nat.lt_log2_self
  unfold leadExponent
  generalize 1074 = scale
  have top : a * 2 ^ scale < b * 2 ^ (scale + a.log2 - b.log2 + 1) :=
    calc a * 2 ^ scale < 2 ^ (a.log2 + 1) * 2 ^ scale := by gcongr
      _ = 2 ^ (a.log2 + 1 + scale) := (Nat.pow_add _ _ _).symm
      _ ≤ 2 ^ (b.log2 + (scale + a.log2 - b.log2 + 1)) := Nat.pow_le_pow_right (by decide) (by omega)
      _ = 2 ^ b.log2 * 2 ^ (scale + a.log2 - b.log2 + 1) := Nat.pow_add _ _ _
      _ ≤ _ := Nat.mul_le_mul_right _ blow
  simp only
  split_ifs with reached
  · exact ⟨top, .inr reached⟩
  · cases exponent : scale + a.log2 - b.log2 with
    | zero =>
      rw [exponent] at top
      exact ⟨top, .inl rfl⟩
    | succ e =>
      rw [exponent] at reached
      refine ⟨by simpa using reached, .inr ?_⟩
      calc b * 2 ^ e ≤ 2 ^ (b.log2 + 1) * 2 ^ e := Nat.mul_le_mul_right _ bhigh.le
        _ = 2 ^ (b.log2 + 1 + e) := (Nat.pow_add _ _ _).symm
        _ ≤ 2 ^ (a.log2 + scale) := Nat.pow_le_pow_right (by decide) (by omega)
        _ = 2 ^ a.log2 * 2 ^ scale := Nat.pow_add _ _ _
        _ ≤ _ := Nat.mul_le_mul_right _ alow

-- Patterns

/-- The value, in units of 2^-1074, of a binary64's 63 magnitude bits (assumption 17). -/
def magnitudeScaled (k : Nat) : Nat :=
  if k / 2 ^ 52 = 0 then k % 2 ^ 52 else (2 ^ 52 + k % 2 ^ 52) * 2 ^ (k / 2 ^ 52 - 1)

/-- m units of 2^u, in the pattern that `roundMagnitude` gives them. -/
theorem magnitudeScaled_units {u m : Nat} (normal : u = 0 ∨ 2 ^ 52 ≤ m) (high : m ≤ 2 ^ 53) :
    magnitudeScaled (u * 2 ^ 52 + m) = m * 2 ^ u := by
  unfold magnitudeScaled
  rcases lt_or_ge m (2 ^ 52) with subnormal | normal'
  · obtain rfl : u = 0 := by omega
    rw [if_pos (by omega), Nat.mod_eq_of_lt (by omega)]
    simp
  · rcases high.lt_or_eq with within | carry
    · rw [if_neg (by omega), show (u * 2 ^ 52 + m) / 2 ^ 52 - 1 = u by omega,
        show 2 ^ 52 + (u * 2 ^ 52 + m) % 2 ^ 52 = m by omega]
    · subst carry
      rw [if_neg (by omega), show (u * 2 ^ 52 + 2 ^ 53) / 2 ^ 52 - 1 = u + 1 by omega,
        show (u * 2 ^ 52 + 2 ^ 53) % 2 ^ 52 = 0 by omega, Nat.pow_succ]
      ring

theorem magnitudeFields (p : F64) :
    (p.extractLsb' 52 11).toNat = p.toNat % 2 ^ 63 / 2 ^ 52 ∧
      (p.extractLsb' 0 52).toNat = p.toNat % 2 ^ 63 % 2 ^ 52 := by
  simp only [BitVec.extractLsb'_toNat, Nat.shiftRight_eq_div_pow]
  omega

/-- A pattern's value is that of its magnitude bits, signed by bit 63. -/
theorem f64Scaled_eq (p : F64) :
    f64Scaled p = if p.getLsbD 63 then -(magnitudeScaled (p.toNat % 2 ^ 63) : Int)
      else magnitudeScaled (p.toNat % 2 ^ 63) := by
  obtain ⟨exponent, fraction⟩ := magnitudeFields p
  unfold f64Scaled magnitudeScaled
  simp only [exponent, fraction]

theorem natAbs_f64Scaled (p : F64) : (f64Scaled p).natAbs = magnitudeScaled (p.toNat % 2 ^ 63) := by
  rw [f64Scaled_eq]
  split <;> simp

theorem f64Finite_iff (p : F64) : f64Finite p ↔ p.toNat % 2 ^ 63 < 2047 * 2 ^ 52 := by
  rw [f64Finite, ne_eq, ← BitVec.toNat_inj, (magnitudeFields p).1]
  have : BitVec.toNat (2047 : BitVec 11) = 2047 := rfl
  omega

/-- A value is a multiple of 2^u, or it is below all that have 53 significant bits and the unit 2^u. -/
theorem magnitudeScaled_multiple_or_small (k u : Nat) :
    2 ^ u ∣ magnitudeScaled k ∨ magnitudeScaled k < 2 ^ 52 * 2 ^ u := by
  unfold magnitudeScaled
  have fraction : k % 2 ^ 52 < 2 ^ 52 := Nat.mod_lt _ (by decide)
  split_ifs with subnormal
  · exact .inr (fraction.trans_le (Nat.le_mul_of_pos_right _ (by positivity)))
  · rcases le_or_gt u (k / 2 ^ 52 - 1) with fine | coarse
    · exact .inl ((Nat.pow_dvd_pow 2 fine).mul_left _)
    · refine .inr ?_
      calc (2 ^ 52 + k % 2 ^ 52) * 2 ^ (k / 2 ^ 52 - 1)
          < (2 ^ 52 + 2 ^ 52) * 2 ^ (k / 2 ^ 52 - 1) :=
            Nat.mul_lt_mul_of_pos_right (by omega) (by positivity)
        _ = 2 ^ 52 * 2 ^ (k / 2 ^ 52 - 1 + 1) := by rw [Nat.pow_succ]; ring
        _ ≤ 2 ^ 52 * 2 ^ u := Nat.mul_le_mul_left _ (Nat.pow_le_pow_right (by decide) coarse)

/-- The exponent, from 2^-1074, of the unit in the last place of the largest finite values. -/
def topExponent : Nat := 2045

/-- The unit in the last place of the largest finite values. -/
def topUnit : Nat := 2 ^ topExponent

theorem topUnit_pos : 0 < topUnit := Nat.two_pow_pos topExponent

theorem two_topUnit_le {u : Nat} (more : topExponent < u) : 2 * topUnit ≤ 2 ^ u := by
  rw [topUnit, ← Nat.pow_succ']
  exact Nat.pow_le_pow_right (by decide) more

theorem two_pow_mul_le {i j k : Nat} (le : i + j ≤ k) : 2 ^ i * 2 ^ j ≤ 2 ^ k := by
  rw [← Nat.pow_add]
  exact Nat.pow_le_pow_right (by decide) le

/-- The largest finite value is 2^53 − 1 of these units. -/
theorem magnitudeScaled_le {k : Nat} (finite : k < 2047 * 2 ^ 52) :
    magnitudeScaled k ≤ (2 ^ 53 - 1) * topUnit := by
  unfold magnitudeScaled
  have fraction : k % 2 ^ 52 < 2 ^ 52 := Nat.mod_lt _ (by decide)
  split_ifs with subnormal
  · exact (show k % 2 ^ 52 ≤ 2 ^ 53 - 1 by omega).trans (Nat.le_mul_of_pos_right _ topUnit_pos)
  · have exponent : k / 2 ^ 52 - 1 ≤ topExponent := by unfold topExponent; omega
    exact Nat.mul_le_mul (by omega) (Nat.pow_le_pow_right (by decide) exponent)

/-- The quotient a/b lies less than half a unit in the last place past the largest finite value, so that rounding
does not overflow. -/
def BelowOverflow (a b : Nat) : Prop := 2 * (a * 2 ^ 1074) + b * topUnit < 2 ^ 54 * (b * topUnit)

-- The rounded magnitude

/-- The exponent, from 2^-1074, of the unit in the last place that `roundMagnitude` rounds to. -/
def unitExponent (a b : Nat) : Nat := leadExponent a b - 52

/-- How many such units the rounded magnitude is. -/
def roundedUnits (a b : Nat) : Nat := divNearestEven (a * 2 ^ 1074) (b * 2 ^ unitExponent a b)

/-- A magnitude is below 2^53 of its units, and, but for subnormal values, not below 2^52 of them. -/
theorem unitExponent_spec {a b : Nat} (apos : 0 < a) (bpos : 0 < b) :
    a * 2 ^ 1074 < 2 ^ 53 * (b * 2 ^ unitExponent a b) ∧
      (unitExponent a b = 0 ∨ 2 ^ 52 * (b * 2 ^ unitExponent a b) ≤ a * 2 ^ 1074) := by
  obtain ⟨top, bottom⟩ := leadExponent_spec apos bpos
  have units (k : Nat) : 2 ^ k * (b * 2 ^ unitExponent a b) = b * 2 ^ (unitExponent a b + k) := by
    rw [Nat.pow_add]
    ring
  rw [units, units]
  unfold unitExponent
  constructor
  · exact top.trans_le (Nat.mul_le_mul_left _ (Nat.pow_le_pow_right (by decide) (by omega)))
  · rcases le_or_gt (leadExponent a b) 52 with subnormal | normal
    · exact .inl (by omega)
    · rw [show leadExponent a b - 52 + 52 = leadExponent a b by omega]
      exact .inr (bottom.resolve_left (by omega))

theorem roundedUnits_bounds {a b : Nat} (apos : 0 < a) (bpos : 0 < b) :
    roundedUnits a b ≤ 2 ^ 53 ∧ (unitExponent a b = 0 ∨ 2 ^ 52 ≤ roundedUnits a b) := by
  obtain ⟨top, bottom⟩ := unitExponent_spec apos bpos
  have pos : 0 < b * 2 ^ unitExponent a b := by positivity
  obtain ⟨low, high, -⟩ := divNearestEven_spec (a * 2 ^ 1074) pos
  rw [← roundedUnits] at low high
  generalize b * 2 ^ unitExponent a b = unit at *
  generalize roundedUnits a b = m at *
  generalize a * 2 ^ 1074 = x at *
  refine ⟨?_, bottom.imp_right fun bottom => ?_⟩
  · by_contra more
    have := Nat.mul_le_mul_right unit (show 2 ^ 53 + 1 ≤ m by omega)
    linarith
  · by_contra fewer
    have := Nat.mul_le_mul_right unit (show 2 * m + 2 ≤ 2 ^ 53 by omega)
    linarith

/-- The magnitude bits of the rounded units: no overflow, so not those of infinity. -/
theorem roundMagnitude_eq {a b : Nat} (apos : 0 < a) (bpos : 0 < b) (finite : BelowOverflow a b) :
    roundMagnitude a b = unitExponent a b * 2 ^ 52 + roundedUnits a b ∧
      roundMagnitude a b < 2047 * 2 ^ 52 := by
  unfold BelowOverflow at finite
  obtain ⟨-, bottom⟩ := unitExponent_spec apos bpos
  obtain ⟨atMost, -⟩ := roundedUnits_bounds apos bpos
  have pos : 0 < b * topUnit := Nat.mul_pos bpos topUnit_pos
  have bits : unitExponent a b * 2 ^ 52 + roundedUnits a b < 2047 * 2 ^ 52 := by
    rcases lt_trichotomy (unitExponent a b) topExponent with small | last | large
    · unfold topExponent at small
      omega
    · obtain ⟨-, high, -⟩ := divNearestEven_spec (a * 2 ^ 1074) pos
      have units : roundedUnits a b = divNearestEven (a * 2 ^ 1074) (b * topUnit) := by
        rw [roundedUnits, last, topUnit]
      rw [← units] at high
      have fewer : roundedUnits a b < 2 ^ 53 := by
        by_contra more
        have := Nat.mul_le_mul_right (b * topUnit) (show 2 ^ 53 ≤ roundedUnits a b by omega)
        omega
      unfold topExponent at last
      omega
    · have past := bottom.resolve_left (by omega)
      have := Nat.mul_le_mul_left b (two_topUnit_le large)
      rw [Nat.mul_left_comm] at this
      omega
  have same : roundMagnitude a b = unitExponent a b * 2 ^ 52 + roundedUnits a b := min_eq_left bits.le
  exact ⟨same, same ▸ bits⟩

-- The rounded pattern

/-- The rounded magnitude, in units of 2^-1074. -/
def roundedScaled (a b : Nat) : Nat := roundedUnits a b * 2 ^ unitExponent a b

/-- No integer that is a multiple of the unit, or below 2^52 units, is nearer than the rounded magnitude, and only
an even number of units is as near as another. -/
theorem roundedScaled_nearest {a b : Nat} (apos : 0 < a) (bpos : 0 < b) {y : Int}
    (resolved : 2 ^ unitExponent a b ∣ y.natAbs ∨ y.natAbs < 2 ^ 52 * 2 ^ unitExponent a b) :
    |(roundedScaled a b : Int) * b - (a * 2 ^ 1074 : Nat)| ≤ |y * b - (a * 2 ^ 1074 : Nat)| ∧
      (y ≠ roundedScaled a b →
        |(roundedScaled a b : Int) * b - (a * 2 ^ 1074 : Nat)| = |y * b - (a * 2 ^ 1074 : Nat)| →
        roundedUnits a b % 2 = 0) := by
  obtain ⟨-, bottom⟩ := unitExponent_spec apos bpos
  have nearest := divNearestEven_nearest (a * 2 ^ 1074) (show 0 < b * 2 ^ unitExponent a b by positivity)
  rw [← roundedUnits] at nearest
  have inUnits (j : Int) : j * (2 ^ unitExponent a b : Nat) * b = j * (b * 2 ^ unitExponent a b : Nat) := by
    push_cast
    ring
  rw [roundedScaled, Nat.cast_mul, inUnits]
  generalize a * 2 ^ 1074 = x at *
  by_cases multiple : 2 ^ unitExponent a b ∣ y.natAbs
  · obtain ⟨j, rfl⟩ := Int.ofNat_dvd_left.2 multiple
    obtain ⟨near, even⟩ := nearest j
    rw [mul_comm _ j, inUnits]
    refine ⟨near, fun other => even ?_⟩
    rintro rfl
    exact other rfl
  · have small := resolved.resolve_left multiple
    have normal := bottom.resolve_left (fun subnormal => multiple (by simp [subnormal]))
    have below : y * b < 2 ^ 52 * (b * 2 ^ unitExponent a b : Nat) :=
      calc y * b < (2 ^ 52 * 2 ^ unitExponent a b : Nat) * b :=
            mul_lt_mul_of_pos_right (by omega) (by exact_mod_cast bpos)
        _ = _ := by push_cast; ring
    generalize b * 2 ^ unitExponent a b = unit at *
    have strictly : |(roundedUnits a b : Int) * unit - x| < |y * b - x| :=
      calc |(roundedUnits a b : Int) * unit - x| ≤ |2 ^ 52 * (unit : Int) - x| := (nearest (2 ^ 52)).1
        _ = x - 2 ^ 52 * unit := by rw [abs_sub_comm, abs_of_nonneg (by omega)]
        _ < x - y * b := by omega
        _ ≤ |y * b - x| := by rw [abs_sub_comm]; exact le_abs_self _
    exact ⟨strictly.le, fun _ tie => absurd tie strictly.ne⟩

/-- The pattern of a magnitude with its sign bit. -/
def signedPattern (negative : Bool) (k : Nat) : F64 :=
  if negative then BitVec.ofNat 64 (2 ^ 63 + k) else BitVec.ofNat 64 k

theorem signedPattern_spec (negative : Bool) {k : Nat} (fits : k < 2 ^ 63) :
    (signedPattern negative k).toNat % 2 ^ 63 = k ∧
      (signedPattern negative k).getLsbD 63 = negative ∧
      ((signedPattern negative k).getLsbD 0 = false ↔ k % 2 = 0) := by
  have bits : (signedPattern negative k).toNat = (if negative then 2 ^ 63 else 0) + k := by
    cases negative <;> simp only [signedPattern, Bool.false_eq_true, if_true, if_false, BitVec.toNat_ofNat] <;>
      omega
  simp only [BitVec.getLsbD, Nat.testBit_eq_decide_div_mod_eq, bits]
  cases negative <;> simp <;> omega

theorem roundNearestEven64_eq {n : Int} (nonzero : n ≠ 0) (d : Nat) :
    roundNearestEven64 n d = signedPattern (decide (n < 0)) (roundMagnitude n.natAbs d) := by
  simp [roundNearestEven64, nonzero, signedPattern]

/-- The sign of a nonzero integer, as a factor. -/
theorem abs_sign_mul {n : Int} (nonzero : n ≠ 0) (z : Int) : |n.sign * z| = |z| := by
  rw [abs_mul, Int.abs_sign_of_ne_zero nonzero, one_mul]

theorem sign_mul_sign {n : Int} (nonzero : n ≠ 0) : n.sign * n.sign = 1 := by
  rcases lt_or_gt_of_ne nonzero with negative | positive
  · rw [Int.sign_eq_neg_one_of_neg negative, neg_one_mul, neg_neg]
  · rw [Int.sign_eq_one_of_pos positive, one_mul]

/-- What `RNE64` gives for a nonzero n/d that does not overflow (R236). -/
theorem roundNearestEven64_spec {n : Int} (nonzero : n ≠ 0) {d : Nat} (pos : 0 < d)
    (finite : BelowOverflow n.natAbs d) :
    f64Finite (roundNearestEven64 n d) ∧
      f64Scaled (roundNearestEven64 n d) = n.sign * roundedScaled n.natAbs d ∧
      ((roundNearestEven64 n d).getLsbD 0 = false ↔ roundedUnits n.natAbs d % 2 = 0) := by
  have apos : 0 < n.natAbs := Int.natAbs_pos.2 nonzero
  obtain ⟨bits, fits⟩ := roundMagnitude_eq apos pos finite
  obtain ⟨atMost, normal⟩ := roundedUnits_bounds apos pos
  obtain ⟨magnitude, sign, last⟩ :=
    signedPattern_spec (decide (n < 0)) (k := roundMagnitude n.natAbs d) (by omega)
  rw [← roundNearestEven64_eq nonzero] at magnitude sign last
  refine ⟨?_, ?_, last.trans (by omega)⟩
  · rwa [f64Finite_iff, magnitude]
  · rw [f64Scaled_eq, magnitude, sign, bits, magnitudeScaled_units normal atMost, ← roundedScaled]
    rcases lt_or_gt_of_ne nonzero with negative | positive
    · simp [negative, Int.sign_eq_neg_one_of_neg negative]
    · simp [positive.le, Int.sign_eq_one_of_pos positive]

theorem roundNearestEven64_zero (d : Nat) : roundNearestEven64 0 d = 0 := rfl

/-- `RNE64` is the nearest of all patterns, and where another value is as near, its last bit is 0 (R236). A
negative quotient is as far from a value as its magnitude is from the value with the other sign. -/
theorem roundNearestEven64_nearest {n : Int} {d : Nat} (pos : 0 < d)
    (finite : BelowOverflow n.natAbs d) (p : F64) :
    |f64Scaled (roundNearestEven64 n d) * d - n * 2 ^ 1074| ≤ |f64Scaled p * d - n * 2 ^ 1074| ∧
      (f64Scaled p ≠ f64Scaled (roundNearestEven64 n d) →
        |f64Scaled (roundNearestEven64 n d) * d - n * 2 ^ 1074| = |f64Scaled p * d - n * 2 ^ 1074| →
        (roundNearestEven64 n d).getLsbD 0 = false) := by
  rcases eq_or_ne n 0 with rfl | nonzero
  · have zero : f64Scaled 0 = 0 := rfl
    rw [roundNearestEven64_zero, zero, Int.zero_mul, Int.zero_mul, sub_zero, abs_zero]
    exact ⟨abs_nonneg _, fun _ _ => rfl⟩
  have apos : 0 < n.natAbs := Int.natAbs_pos.2 nonzero
  obtain ⟨-, value, last⟩ := roundNearestEven64_spec nonzero pos finite
  have unsigned := sign_mul_sign nonzero
  have magnitude (y : Int) :
      |y * d - n * 2 ^ 1074| = |n.sign * y * d - (n.natAbs * 2 ^ 1074 : Nat)| := by
    rw [← abs_sign_mul nonzero, Nat.cast_mul, ← Int.sign_mul_self_eq_natAbs, mul_sub, ← mul_assoc, ← mul_assoc,
      Nat.cast_pow, Nat.cast_two]
  have signs : f64Scaled p = n.sign * (n.sign * f64Scaled p) := by rw [← mul_assoc, unsigned, one_mul]
  have resolved : 2 ^ unitExponent n.natAbs d ∣ (n.sign * f64Scaled p).natAbs ∨
      (n.sign * f64Scaled p).natAbs < 2 ^ 52 * 2 ^ unitExponent n.natAbs d := by
    rw [Int.natAbs_mul, Int.natAbs_sign_of_ne_zero nonzero, one_mul, natAbs_f64Scaled]
    exact magnitudeScaled_multiple_or_small _ _
  obtain ⟨near, even⟩ := roundedScaled_nearest apos pos resolved
  rw [value, last, magnitude, magnitude, ← mul_assoc, unsigned, one_mul]
  refine ⟨near, fun other => even fun same => other ?_⟩
  rw [signs, same]

-- The distance

theorem refDen_pos {d : Int} (pos : 0 < d) : 0 < refDen d := by
  unfold refDen
  generalize 1074 = scale
  have ticks : 0 < d.toNat := by omega
  exact Nat.mul_pos (Nat.mul_pos ticks (by decide)) (Nat.two_pow_pos scale)

/-- The exact value as the quotient that REF rounds (R236). -/
theorem refExact_eq {d : Int} (pos : 0 < d) (n : Int) (cal : F64) :
    refExact n d cal = (refNum n d cal : ℚ) / (refDen d : ℚ) := by
  obtain ⟨k, rfl⟩ := Int.eq_ofNat_of_zero_le pos.le
  have kpos : (k : ℚ) ≠ 0 := by
    have : k ≠ 0 := by omega
    exact_mod_cast this
  simp only [refExact, f64Value, refNum, refDen, Config.cLight, Config.fCtr, Int.toNat_natCast]
  generalize 1074 = e
  push_cast
  field_simp

theorem f64Value_sub_quotient (p : F64) (n : Int) {d : Nat} (pos : 0 < d) :
    f64Value p - (n : ℚ) / d = (f64Scaled p * d - n * 2 ^ 1074 : Int) / (2 ^ 1074 * (d : ℚ)) := by
  have dpos : (d : ℚ) ≠ 0 := by exact_mod_cast pos.ne'
  rw [f64Value]
  generalize 1074 = e
  push_cast
  field_simp

theorem natAbs_refNum_le (n d : Int) (cal : F64) :
    (refNum n d cal).natAbs ≤
      Config.cLight * n.natAbs * 2 ^ 1074 + (f64Scaled cal).natAbs * (d.natAbs * Config.fCtr) := by
  rw [refNum]
  generalize 1074 = scale
  refine (Int.natAbs_sub_le _ _).trans_eq ?_
  simp only [Int.natAbs_mul, Int.natAbs_pow, Int.natAbs_natCast]
  rfl

/-- With N of R234 and a finite CAL_OFFSET the distance does not overflow (R236): C_LIGHT·N / (D·F_CTR) is far less
than half a unit in the last place of the largest finite values. -/
theorem refNum_belowOverflow {n d : Int} {cal : F64} (pos : 0 < d) (low : -(2 ^ 80 : Int) < n) (high : n < 2 ^ 80)
    (calFinite : f64Finite cal) :
    BelowOverflow (refNum n d cal).natAbs (refDen d) := by
  have bound := natAbs_refNum_le n d cal
  have offset : (f64Scaled cal).natAbs ≤ (2 ^ 53 - 1) * topUnit := by
    rw [natAbs_f64Scaled]
    exact magnitudeScaled_le ((f64Finite_iff cal).1 calFinite)
  have room : 2 ^ 110 * 2 ^ 1074 ≤ topUnit := two_pow_mul_le (k := topExponent) (by decide)
  have scale : 0 < 2 ^ 1074 := by generalize 1074 = e; positivity
  obtain ⟨k, rfl⟩ := Int.eq_ofNat_of_zero_le pos.le
  have ticks : 0 < k * Config.fCtr := Nat.mul_pos (by omega) (by decide)
  have product : 2 * (Config.cLight * n.natAbs) < 2 ^ 110 := by unfold Config.cLight; omega
  simp only [BelowOverflow, refDen, Int.natAbs_natCast, Int.toNat_natCast] at *
  generalize 2 ^ 1074 = P at *
  generalize k * Config.fCtr = D at *
  generalize topUnit = T at *
  have quotient : 2 * (Config.cLight * n.natAbs * P) < D * T :=
    calc 2 * (Config.cLight * n.natAbs * P) = 2 * (Config.cLight * n.natAbs) * P := by ring
      _ < 2 ^ 110 * P := Nat.mul_lt_mul_of_pos_right product scale
      _ ≤ T := room
      _ ≤ D * T := Nat.le_mul_of_pos_left T ticks
  have numerator : 2 * (refNum n k cal).natAbs < D * T + 2 * ((2 ^ 53 - 1) * (D * T)) :=
    calc 2 * (refNum n k cal).natAbs
        ≤ 2 * (Config.cLight * n.natAbs * P) + 2 * ((f64Scaled cal).natAbs * D) := by omega
      _ < D * T + 2 * ((2 ^ 53 - 1) * T * D) :=
          Nat.add_lt_add_of_lt_of_le quotient (Nat.mul_le_mul_left 2 (Nat.mul_le_mul_right D offset))
      _ = _ := by ring
  have scaled := Nat.mul_lt_mul_of_pos_right numerator scale
  calc 2 * ((refNum n k cal).natAbs * P) + D * P * T
      = 2 * (refNum n k cal).natAbs * P + D * T * P := by ring
    _ < (D * T + 2 * ((2 ^ 53 - 1) * (D * T))) * P + D * T * P := by omega
    _ = 2 ^ 54 * (D * P * T) := by ring

/-- Settles O40: both distances to the exact value are integers over one denominator, and `RNE64` gives the smaller
one. -/
theorem refRoundsOnceToNearestEven : Obligations.RefRoundsOnceToNearestEven := by
  intro n d cal pos _ low high calFinite
  have denominator := refDen_pos pos
  have finite := refNum_belowOverflow pos low high calFinite
  have nearest := roundNearestEven64_nearest denominator finite
  have common : (0 : ℚ) < 2 ^ 1074 * refDen d := by
    generalize 1074 = scale
    positivity
  have distance (p : F64) : |f64Value p - refExact n d cal| =
      (|f64Scaled p * refDen d - refNum n d cal * 2 ^ 1074| : Int) / (2 ^ 1074 * (refDen d : ℚ)) := by
    rw [refExact_eq pos, f64Value_sub_quotient p _ denominator, abs_div, abs_of_pos common, Int.cast_abs]
  refine ⟨?_, fun zero => ?_, fun p _ => ?_, fun p _ other tie => ?_⟩
  · rcases eq_or_ne (refNum n d cal) 0 with zero | nonzero
    · rw [refNumerics, zero, roundNearestEven64_zero]
      decide
    · exact (roundNearestEven64_spec nonzero denominator finite).1
  · rw [refExact_eq pos, div_eq_zero_iff] at zero
    have : refNum n d cal = 0 := by
      rcases zero with zero | zero
      · exact_mod_cast zero
      · exact absurd (by exact_mod_cast zero) denominator.ne'
    rw [refNumerics, this, roundNearestEven64_zero]
  · rw [distance, distance]
    exact div_le_div_of_nonneg_right (by exact_mod_cast (nearest p).1) common.le
  · rw [distance, distance, div_left_inj' common.ne'] at tie
    refine (nearest p).2 (fun same => other ?_) (by exact_mod_cast tie)
    rw [f64Value, same, f64Value, refNumerics]

end Sys2Proof.Machine
end

section
/-! A step that fetches nothing (spec/60_exceptions.md R267, R279, spec/41_pprz.md R141). -/

namespace Sys2Proof.Machine

/-- A held PARSE_STEP that can run runs before anything is fetched. -/
theorem step_of_parseReady {s : State} (ready : parseReady s = true) :
    step s = exec .parseStep { s with held := s.held - 1 } :=
  if_pos ready

/-- Where no held PARSE_STEP can run, the step is what the failed fetch makes of it. -/
theorem step_of_fetch_error {s : State} {e : DecodeError} (waits : parseReady s = false)
    (failed : fetch s = .error e) : step s = noFetch e s := by
  simp [step, waits, failed]

/-- With no byte presented, the fetch finds no operation (R279). -/
theorem fetch_of_input_nil {s : State} (nothing : s.input = []) : fetch s = .error .noOperation := by
  rw [fetch, nothing, decodeOp]

/-- Settles O2: the branch of `step` for a held PARSE_STEP, and the fetch from no bytes. -/
theorem stepWithoutFetchedOperation : Obligations.StepWithoutFetchedOperation := by
  constructor
  · intro s held idle
    exact step_of_parseReady ((parseReady_iff s).2 ⟨held, idle⟩)
  · intro s nothing notReady
    have waits : parseReady s = false := by rwa [← parseReady_iff, Bool.not_eq_true] at notReady
    rw [step_of_fetch_error waits (fetch_of_input_nil nothing), noFetch]

end Sys2Proof.Machine
end

section
/-! Every operation of a running FRC completes (spec/60_exceptions.md R260, R264). A body could fail to complete
only where it sends a payload of more than 15 bytes or stores more than 19 bytes in a frame buffer: every
payload sent is empty, a distance, three timestamps or a packet whose length the relay tests, and of a received
frame only the first 19 bytes are stored. -/

namespace Sys2Proof.Machine

/-- A body answers a next state from every state: no fault and no refusal. -/
def Completes (body : State → Result) : Prop := ∀ s, ∃ t, body s = .next t

-- How such bodies are put together

theorem completes_next (g : State → State) : Completes fun s => .next (g s) := fun s => ⟨g s, rfl⟩

theorem completes_ite {c : State → Prop} [DecidablePred c] {body body' : State → Result}
    (yes : Completes body) (no : Completes body') : Completes fun s => if c s then body s else body' s := by
  intro s
  by_cases test : c s
  · simpa only [if_pos test] using yes s
  · simpa only [if_neg test] using no s

theorem Completes.operate {body : State → Result} (completes : Completes body) {s : State}
    (running : Running s) : ∃ t, operate body s = .next t := by
  rw [operate_running running]
  exact completes s

theorem completes_send (dest type : Byte) {payload : List Byte} (short : payload.length ≤ 15) :
    Completes (send dest type payload) := by
  intro s
  obtain ⟨t, next, -⟩ := send_spec s dest type short
  exact ⟨t, next⟩

theorem completes_byRoute (f : FrameBody) {own broadcast foreign : State → Result} (hown : Completes own)
    (hbroadcast : Completes broadcast) (hforeign : Completes foreign) :
    Completes (byRoute f own broadcast foreign) := by
  intro s
  unfold byRoute
  split
  · exact ⟨_, rfl⟩
  · exact hown s
  · exact hbroadcast s
  · exact hforeign s

-- The parser (R141 to R149)

theorem completes_acceptPacket (p : List Byte) : Completes (acceptPacket p) := by
  intro s
  by_cases short : p.length ≤ 15
  · rw [acceptPacket_short short]
    exact completes_send _ _ short _
  · exact ⟨_, acceptPacket_oversize (by omega) s⟩

theorem completes_parseStepBody : Completes parseStepBody := by
  intro s
  cases parsed : parse s with
  | mk packet t =>
    cases packet with
    | none => exact ⟨t, parseStepBody_none parsed⟩
    | some p =>
      rw [parseStepBody_some parsed]
      exact completes_acceptPacket p t

-- The handlers of a received frame (R183 to R186)

theorem completes_onFinal (f : FrameBody) : Completes (onFinal f) := fun s =>
  completes_send _ _ (length_transferPayload _).le (captureFinal s)

theorem completes_report (f : FrameBody) (d : F64) : Completes (report f d) := fun s =>
  completes_send f.src 5 ((length_leBytes 8 d.toNat).trans_le (by decide)) (distanceRecorded f d s)

theorem completes_computeAndReport (f : FrameBody) : Completes (computeAndReport f) :=
  completes_ite (completes_next _) fun s => completes_report f (sessionDistance s) s

theorem completes_onTransfer (f : FrameBody) : Completes (onTransfer f) :=
  completes_ite (completes_next _) fun s => completes_computeAndReport f (captureTransfer f.payload s)

theorem completes_onReport (f : FrameBody) : Completes (onReport f) :=
  completes_ite (completes_next _) (completes_next _)

theorem completes_onBroadcast (type : Byte) (f : FrameBody) : Completes (onBroadcast type f) := by
  unfold onBroadcast
  split
  · exact completes_next _
  split
  · exact completes_send _ _ (Nat.zero_le _)
  split
  · exact completes_next _
  · exact completes_next _

theorem completes_onOwn (type : Byte) (f : FrameBody) : Completes (onOwn type f) := by
  unfold onOwn
  split
  · exact completes_send _ _ (Nat.zero_le _)
  split
  · exact completes_send _ _ (Nat.zero_le _)
  split
  · exact completes_onFinal f
  split
  · exact completes_onTransfer f
  split
  · exact completes_onReport f
  · exact completes_onBroadcast type f

theorem completes_onForeign (type : Byte) (f : FrameBody) : Completes (onForeign type f) := by
  unfold onForeign
  split
  · exact completes_onReport f
  · exact completes_next _

/-- A received frame of any type is handled to the end. -/
theorem execFrame_completes (type : Byte) (f : FrameBody) {s : State} (running : Running s) :
    ∃ t, execFrame type f s = .next t := by
  rw [execFrame_eq_byRoute]
  exact (completes_byRoute f (completes_onOwn type f) (completes_onBroadcast type f)
    (completes_onForeign type f)).operate running

/-- What is received in at most 19 bytes is no frame, or fits the buffer and is handled (R180, R98). -/
theorem receive_completes {d : List Byte} (fits : d.length ≤ 19) {s : State} (running : Running s) :
    ∃ t, receive d s = .next t := by
  by_cases few : d.length < 4
  · exact ⟨_, receive_short few s⟩
  · obtain ⟨type, f, decoded⟩ := exists_decodeFrameFields (by omega) fits
    obtain ⟨rfl, -⟩ := decodeFrameFields_some decoded
    obtain ⟨buf, -, handled⟩ := receive_encodeFrame fits s
    rw [handled, ← execFrame_eq_exec]
    exact execFrame_completes type f running

/-- Settles O52: the body of each operation completes, and a frame's instruction is its handling. -/
theorem runningOperationsComplete : Obligations.RunningOperationsComplete := by
  intro i s running notRst
  cases i with
  | reset => simp [notReset] at notRst
  | uartRxByte b => exact (completes_next (pushRx b)).operate running
  | parseStep =>
    rw [exec, execParseStep]
    exact Completes.operate (completes_ite (completes_next _) completes_parseStepBody) running
  | txrbPop =>
    rw [exec, execTxrbPop]
    exact Completes.operate (completes_ite (completes_next _) (completes_next _)) running
  | pollTick =>
    have polls : Completes fun s => send s.cfg.anchorAddr 0 [] (clearSession s) := fun s =>
      completes_send _ _ (Nat.zero_le _) (clearSession s)
    rw [exec, execPollTick]
    exact Completes.operate (completes_ite (completes_next _) (completes_ite (completes_next _) polls)) running
  | radioRx ts data =>
    rw [exec_radioRx running]
    exact receive_completes (List.length_take_le 19 data) (s := latchRx ts s) running
  | radioTxDone ts =>
    rw [exec, execRadioTxDone]
    exact Completes.operate (completes_ite (completes_next _) (completes_next _)) running
  | illegalOp opcode => exact (completes_next (count .illegalOp)).operate running
  | rangePoll f => exact execFrame_completes 0 f running
  | rangeResponse f => exact execFrame_completes 1 f running
  | rangeFinal f => exact execFrame_completes 2 f running
  | rangeTransfer f => exact execFrame_completes 3 f running
  | rangeReport f => exact execFrame_completes 5 f running
  | rangeRequest f => exact execFrame_completes 6 f running
  | dataRelay f => exact execFrame_completes 42 f running
  | ping f => exact execFrame_completes 254 f running
  | pong f => exact execFrame_completes 255 f running
  -- every unassigned type has the same handling (R192), so one of them stands for it
  | unassignedType type f => exact execFrame_completes 4 f running
  | pprzPacket data => exact (completes_acceptPacket (pprzEncode data)).operate running
  | pprzRangeReport sender msgId src dest range =>
    exact (completes_next (pushReport sender msgId src dest (distBytes range))).operate running

end Sys2Proof.Machine
end

section
/-! RESET (spec/70_reset_and_hazards.md R290 to R292), and what the guard of every other instruction does in the
halted state and before the first RESET (R293, R295). -/

namespace Sys2Proof.Machine

-- The three branches of RESET

/-- The state in which init_ok decides: every component at its reset value, both HAL commands emitted. -/
theorem emitReset_cleared (s : State) :
    emitReset (cleared s) = { cleared s with
      out := s.out ++ [.halReset,
        .halConfigure s.envCfg.radioChannel s.envCfg.radioPreamble s.envCfg.radioMode] } := by
  simp [emitReset, emit, cleared]

theorem exec_reset_initOk {flags : Byte} {s : State} (valid : s.envCfg.valid = true)
    (ok : flags.getLsbD 0 = true) : exec (.reset flags) s = .next (armRx (emitReset (cleared s))) := by
  rw [exec, execReset, if_pos valid, initOk, if_pos ok]

theorem exec_reset_initFailed {flags : Byte} {s : State} (valid : s.envCfg.valid = true)
    (failed : flags.getLsbD 0 = false) :
    exec (.reset flags) s = .next (haltFatal (emitReset (cleared s))) := by
  rw [exec, execReset, if_pos valid, initOk, if_neg (ne_true_of_eq_false failed)]

theorem exec_reset_invalid (flags : Byte) {s : State} (invalid : s.envCfg.valid = false) :
    exec (.reset flags) s = .refused .badConfiguration := by
  rw [exec, execReset, if_neg (ne_true_of_eq_false invalid)]

/-- A RESET leaves the FRC halted exactly where the radio did not initialise (R22, R292). -/
theorem exec_reset_halted {flags : Byte} {s t : State} (next : exec (.reset flags) s = .next t) :
    t.halted = !flags.getLsbD 0 := by
  cases valid : s.envCfg.valid
  · simp [exec_reset_invalid flags valid] at next
  · cases ok : flags.getLsbD 0
    · rw [exec_reset_initFailed valid ok] at next
      cases next
      rfl
    · rw [exec_reset_initOk valid ok] at next
      cases next
      exact armRx_halted _

/-- Settles O11: the transmitter of the reset state is free, so that the re-arm takes place. -/
theorem resetSucceeds : Obligations.ResetSucceeds := by
  intro flags s valid ok
  rw [exec_reset_initOk valid ok, emitReset_cleared, armRx_idle rfl]
  simp [cleared, Session.zero, FrameBuf.empty, RingBuf.empty, Counters.zero]

/-- Settles O12: the fatal condition sets `halted` and `lastErr` in the reset state, and nothing re-arms. -/
theorem resetFailureHalts : Obligations.ResetFailureHalts := by
  intro flags s valid failed
  rw [exec_reset_initFailed valid failed, emitReset_cleared]
  rfl

-- The configuration presented

theorem cfg_invalid_iff (c : Cfg) :
    c.valid = false ↔
      (c.localAddr = 0 ∨ c.localAddr = 255 ∨ c.anchorAddr = 0 ∨ c.anchorAddr = 255 ∨
        c.calOffset.extractLsb' 52 11 = 2047) := by
  simp only [Cfg.valid, Bool.and_eq_false_iff, decide_eq_false_iff_not, ne_eq, not_not, or_assoc]

/-- Settles O13: with a valid configuration either branch of RESET answers a next state. -/
theorem resetRefusesBadConfiguration : Obligations.ResetRefusesBadConfiguration := by
  intro flags s
  rw [← cfg_invalid_iff]
  refine ⟨fun refused => ?_, exec_reset_invalid flags⟩
  by_contra notInvalid
  have valid : s.envCfg.valid = true := by simpa using notInvalid
  cases ok : flags.getLsbD 0
  · simp [exec_reset_initFailed valid ok] at refused
  · simp [exec_reset_initOk valid ok] at refused

-- The guard of every other instruction

theorem eq_reset_of_notReset_eq_false {i : Instr} (h : notReset i = false) : ∃ flags, i = .reset flags := by
  cases i with
  | reset flags => exact ⟨flags, rfl⟩
  | _ => cases h

/-- Settles O15: the guard refuses before it looks at the instruction's body. -/
theorem runMustBeginWithReset : Obligations.RunMustBeginWithReset := by
  intro i s notStarted notRst
  obtain ⟨body, guarded⟩ := exec_guarded i notRst
  rw [guarded, operate_beforeReset notStarted]

theorem exec_halted {i : Instr} {s : State} (started : s.started = true) (halted : s.halted = true)
    (notRst : notReset i = true) : exec i s = .next s := by
  obtain ⟨body, guarded⟩ := exec_guarded i notRst
  rw [guarded, operate_halted started halted]

/-- Settles O14: an instruction that the guard ignores leaves the FRC halted, and so does a RESET with
init_ok = 0. -/
theorem haltedIgnoresAllButReset : Obligations.HaltedIgnoresAllButReset := by
  refine ⟨fun _ _ started halted notRst => exec_halted started halted notRst, ?_⟩
  intro i s t started halted next left
  cases notRst : notReset i
  · obtain ⟨flags, rfl⟩ := eq_reset_of_notReset_eq_false notRst
    have halts := exec_reset_halted next
    exact ⟨flags, rfl, by simpa [left] using halts⟩
  · rw [exec_halted started halted notRst] at next
    cases next
    simp [halted] at left

end Sys2Proof.Machine
end

section
/-! A lost transmit completion (spec/70_reset_and_hazards.md R300). During a transmission `Send` transmits nothing
and `ArmRx` does nothing, and every move but the completion leaves the transmission in flight. -/

namespace Sys2Proof.Machine

/-- From `s` to `t` the receiver is not armed, by flag or by command, and the frame last sent is the same. -/
def NotRearmed (s t : State) : Prop :=
  t.lastTx = s.lastTx ∧ (t.rxArmed = true → s.rxArmed = true) ∧
    t.out.count .armRx = s.out.count .armRx

theorem NotRearmed.refl (s : State) : NotRearmed s s := ⟨rfl, id, rfl⟩

theorem NotRearmed.trans {s u t : State} (first : NotRearmed s u) (second : NotRearmed u t) :
    NotRearmed s t := by
  obtain ⟨hlast, harmed, hout⟩ := first
  obtain ⟨hlast', harmed', hout'⟩ := second
  exact ⟨hlast'.trans hlast, harmed ∘ harmed', hout'.trans hout⟩

theorem NotRearmed.of_kept {s t : State} (last : t.lastTx = s.lastTx) (armed : t.rxArmed = s.rxArmed)
    (out : t.out = s.out) : NotRearmed s t :=
  ⟨last, fun h => armed ▸ h, by rw [out]⟩

theorem Move.notRearmed_of_busy {k : Kind} {s t : State} (move : Move k s t) (other : k ≠ .complete)
    (busy : s.txBusy = true) : NotRearmed s t := by
  cases move with
  | complete => exact absurd rfl other
  | transmit _ _ _ idle => simp [busy] at idle
  | rearm =>
    rw [armRx_busy busy]
    exact .refl s
  | latch ts => exact ⟨rfl, fun armed => (Bool.false_ne_true armed).elim, rfl⟩
  | emitUart => exact ⟨rfl, id, by simp [List.count_append]⟩
  | enqueue b => exact .of_kept (pushTx_lastTx b s) (pushTx_rxArmed b s) (pushTx_out b s)
  | storeRx b => exact .of_kept (pushRx_lastTx b s) (pushRx_rxArmed b s) (pushRx_out b s)
  | _ => exact .of_kept rfl rfl rfl

variable {P : Kind → Prop}

/-- Where no transmission completes, the one in flight stays so and the receiver is not re-armed (R125). -/
theorem Moves.notRearmed_of_busy (never : ¬ P .complete) {s t : State} (moves : Moves P s t)
    (busy : s.txBusy = true) : t.txBusy = true ∧ NotRearmed s t := by
  induction moves with
  | done s => exact ⟨busy, .refl s⟩
  | @step k _ _ _ allowed move _ ih =>
    have other : k ≠ .complete := fun completes => never (completes ▸ allowed)
    obtain ⟨stays, later⟩ := ih (move.busy_kept other busy)
    exact ⟨stays, (move.notRearmed_of_busy other busy).trans later⟩

/-- Settles O59: only RADIO_TX_DONE completes a transmission, and until then no frame is sent and nothing
re-armed. -/
theorem lostCompletionHangs : Obligations.LostCompletionHangs := by
  intro i s t _ busy notRst notDone next
  have moves := exec_moves notRst next
  have never : ¬ canMake i .complete = true := by
    intro completes
    obtain ⟨ts, rfl⟩ := canMake_complete completes
    exact notDone ts rfl
  obtain ⟨-, seq, cmds, out, noFrame⟩ := moves.noFrameSent_of_busy never busy
  obtain ⟨stays, last, armed, arms⟩ := moves.notRearmed_of_busy never busy
  have noArm : Command.armRx ∉ cmds := by
    rw [out, List.count_append] at arms
    exact List.count_eq_zero.1 (by omega)
  exact ⟨stays, seq, last, armed, cmds, out, noFrame, noArm⟩

end Sys2Proof.Machine
end
